-- ==== Sys2Proof/Word.lean ====
section
/-!
DEFINITION. The words of the block: the widths that `00_scope.md` section 5 fixes.
-/
namespace Sys2Proof

/-- A PCM sample, `SAMPLE_W` = 16 bits (R4). -/
abbrev Sample := BitVec 16

/-- A raw capture element: `RAW_W` bits, 1 to 16 (R6), held in 16; the bits above `RAW_W` are 0. -/
abbrev Raw := BitVec 16

/-- A slot of the playback buffer, `SLOT_W` = 16 bits (R7). -/
abbrev Slot := BitVec 16

/-- The 16-bit immediate of a command word (R90). -/
abbrev Imm := BitVec 16

/-- A command word (R90). -/
abbrev CmdWord := BitVec 32

/-- A diagnostic counter, `CNT_W` = 32 bits (R9), and the width of a result value (R96). -/
abbrev Word32 := BitVec 32

end Sys2Proof
end

