-- ==== Sys2Proof/Syntax.lean ====
section
/-!
DEFINITION. The twenty operations of the block, one constructor per row of `opcode_table.json` (R92).
-/
namespace Sys2Proof

/-- The operations (R92), each with its operand (R93). -/
inductive Instr where
  /-- `SYS.RESET` (R185). -/
  | sysReset
  /-- `SYS.START ok`: `ok` is `imm[0]`, true when every external bring-up step succeeded (R186). -/
  | sysStart (ok : Bool)
  /-- `SYS.RDSTAT r`: `r` is the register number (R187). -/
  | sysRdstat (r : Imm)
  /-- `FIFO.INIT` (R110). -/
  | fifoInit
  /-- `FIFO.WRITE s`: `s` is the sample (R111). -/
  | fifoWrite (v : Sample)
  /-- `FIFO.READ` (R112). -/
  | fifoRead
  /-- `FIFO.WRBLK n`: `n` samples from `din` (R113). -/
  | fifoWrblk (n : Imm)
  /-- `FIFO.RDBLK n`: up to `n` samples to `dout` (R114). -/
  | fifoRdblk (n : Imm)
  /-- `CAP.DMA w`: `w` is the raw element taken from `rx` (R130). -/
  | capDma (w : Raw)
  /-- `EV.CAP.HALF` (R131). -/
  | evCapHalf
  /-- `EV.CAP.FULL` (R132). -/
  | evCapFull
  /-- `SVC.CAP0` (R133). -/
  | svcCap0
  /-- `SVC.CAP1` (R134). -/
  | svcCap1
  /-- `PB.DMA` (R150). -/
  | pbDma
  /-- `EV.PB.HALF` (R151). -/
  | evPbHalf
  /-- `EV.PB.FULL` (R152). -/
  | evPbFull
  /-- `SVC.PB0` (R153). -/
  | svcPb0
  /-- `SVC.PB1` (R154). -/
  | svcPb1
  /-- `POLL.CAP` (R170). -/
  | pollCap
  /-- `POLL.PB` (R171). -/
  | pollPb
deriving DecidableEq, Repr

end Sys2Proof
end

