-- ==== Sys2Proof/WellFormed.lean ====
section
/-!
DEFINITION. Which operations have a legal command word: the two operand checks of R94.
-/
namespace Sys2Proof

/-- An operation is well formed for the element width `rawW` when its operand has a legal encoding (R93, R94):
`SYS.RDSTAT` names a register below 16, `CAP.DMA` an element of `rawW` bits; every other operand may have any value. -/
def Instr.wellFormed (rawW : Nat) : Instr → Bool
  | .sysReset => true
  | .sysStart _ => true
  | .sysRdstat r => decide (r.toNat < 16)
  | .fifoInit => true
  | .fifoWrite _ => true
  | .fifoRead => true
  | .fifoWrblk _ => true
  | .fifoRdblk _ => true
  | .capDma w => decide (w.toNat < 2 ^ rawW)
  | .evCapHalf => true
  | .evCapFull => true
  | .svcCap0 => true
  | .svcCap1 => true
  | .pbDma => true
  | .evPbHalf => true
  | .evPbFull => true
  | .svcPb0 => true
  | .svcPb1 => true
  | .pollCap => true
  | .pollPb => true

end Sys2Proof
end

