-- ==== Sys2Proof/Decode.lean ====
section
/-!
DEFINITION. The command word (R90 to R94): its fields, the decoder, total on every 32-bit word and refusing an illegal
one by name, and the encoder.
-/
namespace Sys2Proof

/-- `cw[31:28]`, the component (R90). -/
def unitOf (w : CmdWord) : BitVec 4 := w.extractLsb' 28 4

/-- `cw[27:24]`, the operation within the unit (R90). -/
def fnOf (w : CmdWord) : BitVec 4 := w.extractLsb' 24 4

/-- `cw[23:16]`, reserved (R90). -/
def rsvOf (w : CmdWord) : BitVec 8 := w.extractLsb' 16 8

/-- `cw[15:0]`, the immediate (R90). -/
def immOf (w : CmdWord) : Imm := w.extractLsb' 0 16

/-- Why a command word is illegal (R94). -/
inductive DecodeError where
  /-- `unit` is 5 to 15. -/
  | unknownUnit
  /-- `fn` is not listed for the unit. -/
  | unknownFn
  /-- `rsv` is not 0. -/
  | reservedNotZero
  /-- The format is N and `imm` is not 0, or it is K and `imm[15:1]` is not 0. -/
  | immediateNotZero
  /-- The operation is `CAP.DMA` and `imm[15:RAW_W]` is not 0. -/
  | rawTooWide
  /-- The operation is `SYS.RDSTAT` and `r` is 16 or more. -/
  | noSuchRegister
deriving DecidableEq, Repr

/-- Format N (R91): no operand, `imm` must be 0. -/
def formatN (imm : Imm) (i : Instr) : Except DecodeError Instr :=
  if imm = 0#16 then .ok i else .error .immediateNotZero

/-- Format K (R91): the operand is `imm[0]`, and `imm[15:1]` must be 0. -/
def formatK (imm : Imm) (i : Bool → Instr) : Except DecodeError Instr :=
  if imm = 0#16 then .ok (i false) else if imm = 1#16 then .ok (i true) else .error .immediateNotZero

/-- Unit 0, SYS (R92). -/
def decodeSys (fn : Nat) (imm : Imm) : Except DecodeError Instr :=
  match fn with
  | 1 => formatN imm .sysReset
  | 2 => formatK imm .sysStart
  | 3 => if imm.toNat < 16 then .ok (.sysRdstat imm) else .error .noSuchRegister
  | _ => .error .unknownFn

/-- Unit 1, FIFO (R92). -/
def decodeFifo (fn : Nat) (imm : Imm) : Except DecodeError Instr :=
  match fn with
  | 0 => formatN imm .fifoInit
  | 1 => .ok (.fifoWrite imm)
  | 2 => formatN imm .fifoRead
  | 3 => .ok (.fifoWrblk imm)
  | 4 => .ok (.fifoRdblk imm)
  | _ => .error .unknownFn

/-- Unit 2, CAP (R92). -/
def decodeCap (rawW : Nat) (fn : Nat) (imm : Imm) : Except DecodeError Instr :=
  match fn with
  | 0 => if imm.toNat < 2 ^ rawW then .ok (.capDma imm) else .error .rawTooWide
  | 1 => formatN imm .evCapHalf
  | 2 => formatN imm .evCapFull
  | 3 => formatN imm .svcCap0
  | 4 => formatN imm .svcCap1
  | _ => .error .unknownFn

/-- Unit 3, PB (R92). -/
def decodePb (fn : Nat) (imm : Imm) : Except DecodeError Instr :=
  match fn with
  | 0 => formatN imm .pbDma
  | 1 => formatN imm .evPbHalf
  | 2 => formatN imm .evPbFull
  | 3 => formatN imm .svcPb0
  | 4 => formatN imm .svcPb1
  | _ => .error .unknownFn

/-- Unit 4, SCHED (R92). -/
def decodeSched (fn : Nat) (imm : Imm) : Except DecodeError Instr :=
  match fn with
  | 0 => formatN imm .pollCap
  | 1 => formatN imm .pollPb
  | _ => .error .unknownFn

/-- The operation a command word stands for, in a block whose raw elements have `rawW` bits (R92 to R94). -/
def decode (rawW : Nat) (w : CmdWord) : Except DecodeError Instr :=
  if rsvOf w ≠ 0#8 then .error .reservedNotZero else
  match (unitOf w).toNat with
  | 0 => decodeSys (fnOf w).toNat (immOf w)
  | 1 => decodeFifo (fnOf w).toNat (immOf w)
  | 2 => decodeCap rawW (fnOf w).toNat (immOf w)
  | 3 => decodePb (fnOf w).toNat (immOf w)
  | 4 => decodeSched (fnOf w).toNat (immOf w)
  | _ => .error .unknownUnit

/-- The command word of `unit`, `fn` and `imm`, with `rsv` 0 (R90). -/
def mkWord (unit fn : BitVec 4) (imm : Imm) : CmdWord := (unit ++ fn ++ 0#8 : BitVec 16) ++ imm

/-- The command word of an operation (R92, R93). -/
def encode : Instr → CmdWord
  | .sysReset => mkWord 0#4 1#4 0#16
  | .sysStart ok => mkWord 0#4 2#4 (if ok then 1#16 else 0#16)
  | .sysRdstat r => mkWord 0#4 3#4 r
  | .fifoInit => mkWord 1#4 0#4 0#16
  | .fifoWrite v => mkWord 1#4 1#4 v
  | .fifoRead => mkWord 1#4 2#4 0#16
  | .fifoWrblk n => mkWord 1#4 3#4 n
  | .fifoRdblk n => mkWord 1#4 4#4 n
  | .capDma w => mkWord 2#4 0#4 w
  | .evCapHalf => mkWord 2#4 1#4 0#16
  | .evCapFull => mkWord 2#4 2#4 0#16
  | .svcCap0 => mkWord 2#4 3#4 0#16
  | .svcCap1 => mkWord 2#4 4#4 0#16
  | .pbDma => mkWord 3#4 0#4 0#16
  | .evPbHalf => mkWord 3#4 1#4 0#16
  | .evPbFull => mkWord 3#4 2#4 0#16
  | .svcPb0 => mkWord 3#4 3#4 0#16
  | .svcPb1 => mkWord 3#4 4#4 0#16
  | .pollCap => mkWord 4#4 0#4 0#16
  | .pollPb => mkWord 4#4 1#4 0#16

/-- The operation the decoder reads from a row of the opcode table, in a block with `RAW_W` = 16, the width every 16-bit
operand fits (log 13). A command word is one 32-bit word and there is no second length (R94), so more bits are refused;
fewer than 32 stand for the word whose other bits are 0. -/
def decodeTableWord (nbits w : Nat) : Option Instr :=
  if 32 < nbits then none
  else match decode 16 (BitVec.ofNat 32 (w % 2 ^ nbits)) with
    | .ok i => some i
    | .error _ => none

end Sys2Proof
end

