-- ==== Sys2Proof/Config.lean ====
section
/-!
DEFINITION. The parameters of `00_scope.md` section 5, and the free values: opaque constants, about whose
values nothing can be proved.
-/
namespace Sys2Proof

/-- `ON_UNDERRUN`: what a starved playback service does to its half (R8). -/
inductive OnUnderrun where
  | repeatLast
  | silence
deriving DecidableEq, Repr

/-- `POLL_ORDER`: which channel an iteration polls first (R10). -/
inductive PollOrder where
  | captureFirst
  | playbackFirst
deriving DecidableEq, Repr

/-- The opaque state types `FiltState` and `HookState` (R11, R12), coded as numbers (log 5). -/
abbrev CollabState := Nat

/-- One known value of a collaborator: called in state `before` with `input`, it answers `output` and goes to
state `after` (R11, R12; log 5). -/
structure CallRow where
  before : CollabState
  input : List (BitVec 16)
  after : CollabState
  output : List (BitVec 16)
deriving DecidableEq, Repr

/-- The parameters (`00_scope.md` section 5). `PB_HALF` is computed (`Config.pbHalf`), and the contents of the three
memories are free values (`Config.freeFifoMem` and the two after it). -/
structure Config where
  /-- `FIFO_CAP`, C (R5). -/
  fifoCap : Nat
  /-- `RAW_W` (R6). -/
  rawW : Nat
  /-- `CAP_HALF`, Hc (R6). -/
  capHalf : Nat
  /-- `CAP_BATCH`, Nc (R6). -/
  capBatch : Nat
  /-- `PB_BATCH`, Np (R7). -/
  pbBatch : Nat
  /-- `PB_STRIDE`, S (R7). -/
  pbStride : Nat
  /-- `PB_OFFSETS` (R7). -/
  pbOffsets : List Nat
  /-- `ON_UNDERRUN` (R8). -/
  onUnderrun : OnUnderrun
  /-- `POLL_ORDER` (R10). -/
  pollOrder : PollOrder
  /-- `FILT_INIT` (R11). -/
  filtInit : CollabState
  /-- `HOOK_INIT` (R12). -/
  hookInit : CollabState
  /-- The calls of `Decimate` whose answers are known; every other call is answered by a free function (log 5). -/
  decimateRows : List CallRow
  /-- The calls of `Hook` whose answers are known; every other call is answered by a free function (log 5). -/
  hookRows : List CallRow
deriving DecidableEq, Repr

/-- `PB_HALF`, Hp: exactly Np × S (R7). -/
def Config.pbHalf (c : Config) : Nat := c.pbBatch * c.pbStride

/-- The configuration of `State.reset`: the values of the document's end-to-end example (`00_scope.md` section 5,
`95_test_vectors.md` CFG-E), with no collaborator call known.
DESIGN CHOICE, log 1: the spec leaves every one of these open; unsafe for a claim about `State.reset` alone. -/
def Config.documentExample : Config where
  fifoCap := 32
  rawW := 16
  capHalf := 1
  capBatch := 16
  pbBatch := 16
  pbStride := 2
  pbOffsets := [0, 1]
  onUnderrun := .repeatLast
  pollOrder := .captureFirst
  filtInit := 0
  hookInit := 0
  decimateRows := []
  hookRows := []

/-- `FIFO_MEM_INIT` of the reset numbered by the first argument, element by element (R13, R66; log 3). -/
opaque Config.freeFifoMem : Nat → Nat → Sample

/-- `CAP_BUF_INIT`, likewise (R13, R66; log 3). -/
opaque Config.freeCapBuf : Nat → Nat → Raw

/-- `PB_BUF_INIT`, likewise (R13, R66; log 3). -/
opaque Config.freePbBuf : Nat → Nat → Slot

/-- The filter state `Decimate` goes to, from its two arguments (R11; log 5). -/
opaque Config.freeFiltState : CollabState → List Raw → CollabState

/-- The k-th sample `Decimate` yields, from its two arguments and k (R11; log 5). -/
opaque Config.freePcm : CollabState → List Raw → Nat → Sample

/-- The state `Hook` goes to, from its two arguments (R12; log 5). -/
opaque Config.freeHookState : CollabState → List Sample → CollabState

/-- The k-th sample `Hook` hands back, from its two arguments and k (R12; log 5). -/
opaque Config.freeHooked : CollabState → List Sample → Nat → Sample

/-- The command word of the k-th draw of the schedule (R69, U11; log 7). -/
opaque Config.freeWord : Nat → CmdWord

/-- The samples the host puts on `din` with the k-th draw (R38; log 7). -/
opaque Config.freeData : Nat → List Sample

/-- What register 13 or 14 shows for a position that 32 bits do not hold (R41; log 9). -/
opaque Config.freeWidePos : Nat → Word32

end Sys2Proof
end

