-- ==== Sys2Proof/Machine/State.lean ====
section
/-!
DEFINITION. The state of the block (`10_state.md`), as plain data; the machine right after reset; the reasons a step can stop.
-/
namespace Sys2Proof.Machine

/-- The tri-state transfer flag of a channel (R25, R40). -/
inductive TransferState where
  | idle
  | firstHalfReady
  | secondHalfReady
deriving DecidableEq, Repr

/-- The two halves of a DMA buffer (R61). -/
inductive Half where
  | first
  | second
deriving DecidableEq, Repr

/-- The two channels. -/
inductive Chan where
  | cap
  | pb
deriving DecidableEq, Repr

/-- `sched_job`: the half the scheduler has observed and cleared and not finished serving (R32). -/
inductive SchedJob where
  | none
  | cap0
  | cap1
  | pb0
  | pb1
deriving DecidableEq, Repr

/-- `sched_phase`: which channel the scheduler polls next (R33). -/
inductive SchedPhase where
  | phCap
  | phPb
deriving DecidableEq, Repr

/-- `sys_state` (R36). -/
inductive SysState where
  | stopped
  | running
  | halted
deriving DecidableEq, Repr

/-- The eight result codes (R200). -/
inductive ResultCode where
  | ok
  | full
  | empty
  | overrun
  | underrun
  | initializationFailure
  | notEnabled
  | illegalCommand
deriving DecidableEq, Repr

/-- What an operation returns: `(code, val)` (R38, R96). -/
structure Result where
  code : ResultCode
  val : Word32
deriving DecidableEq, Repr

/-- A memory: the elements written since the last reset, by element index (R62), indices strictly rising. An index that is
not listed has not been written since, and holds a launch input (R66; logs 3 and 4). -/
structure Memory where
  cells : List (Nat × BitVec 16)
deriving DecidableEq, Repr

/-- RingFifo: `fifo_mem`, `fifo_wr`, `fifo_rd`, `fifo_count` (R20 to R22). -/
structure Fifo where
  mem : Memory
  wr : BitVec 16
  rd : BitVec 16
  count : BitVec 16
deriving DecidableEq, Repr

/-- What each channel has: its flag, its DMA position, the pending latches of its two halves, its two hazard bits
(R25, R26, R29, R30, R31, R35). -/
structure Channel where
  flag : TransferState
  pos : Nat
  /-- `irq_pend[ch][0]`. -/
  pend0 : Bool
  /-- `irq_pend[ch][1]`. -/
  pend1 : Bool
  /-- `hz_<ch>_lost`. -/
  lost : Bool
  /-- `hz_<ch>_race`. -/
  race : Bool
deriving DecidableEq, Repr

/-- One entry of the schedule: a command word, and the samples the host puts at the tail of `din` before it (R90, R38; log 7). -/
structure Command where
  word : CmdWord
  data : List Sample
deriving DecidableEq, Repr

/-- The state of the block. -/
structure State where
  /-- The parameters; no operation writes them (R14; log 1). -/
  cfg : Config
  /-- RingFifo (R20 to R22). -/
  fifo : Fifo
  /-- `cap_buf` (R24). -/
  capBuf : Memory
  /-- The capture channel (R25, R26, R31, R35). -/
  cap : Channel
  /-- `filt_state` (R27). -/
  filt : CollabState
  /-- `hook_state` (R27). -/
  hook : CollabState
  /-- `pb_buf` (R28). -/
  pbBuf : Memory
  /-- The playback channel (R29, R30, R31, R35). -/
  pb : Channel
  /-- `sched_job` (R32). -/
  job : SchedJob
  /-- `sched_phase` (R33). -/
  phase : SchedPhase
  /-- `ovr_events` (R34). -/
  ovrEvents : Word32
  /-- `ovr_samples` (R34). -/
  ovrSamples : Word32
  /-- `und_events` (R34). -/
  undEvents : Word32
  /-- `sys_state` (R36). -/
  sys : SysState
  /-- `tx_trace`, oldest first (R37). -/
  txTrace : List Slot
  /-- `din`, head first (R38). -/
  din : List Sample
  /-- `dout`, head first (R38). -/
  dout : List Sample
  /-- What the last operation returned (R38, R96; log 8). -/
  result : Result
  /-- The model's own: the commands that come next (log 7). -/
  schedule : List Command
  /-- The model's own: how many commands have been drawn (log 7). -/
  drawn : Nat
  /-- The model's own: how many times `SYS.RESET` has run, the index of the free memory contents (log 3). -/
  epoch : Nat
deriving DecidableEq, Repr

/-- A memory with nothing written since reset (R66). -/
def Memory.unwritten : Memory := ⟨[]⟩

/-- RingFifo after reset (R46). -/
def Fifo.atReset : Fifo := { mem := .unwritten, wr := 0#16, rd := 0#16, count := 0#16 }

/-- A channel after reset: flag `Idle`, position 0, no event pending, no hazard recorded (R46). -/
def Channel.atReset : Channel :=
  { flag := .idle, pos := 0, pend0 := false, pend1 := false, lost := false, race := false }

/-- The reset value of `sched_phase` (R33). -/
def firstPhase : PollOrder → SchedPhase
  | .captureFirst => .phCap
  | .playbackFirst => .phPb

/-- Power-up of a block with the parameters `c`: the table of R46. -/
def State.powerUp (c : Config) : State where
  cfg := c
  fifo := .atReset
  capBuf := .unwritten
  cap := .atReset
  filt := c.filtInit
  hook := c.hookInit
  pbBuf := .unwritten
  pb := .atReset
  job := .none
  phase := firstPhase c.pollOrder
  ovrEvents := 0#32
  ovrSamples := 0#32
  undEvents := 0#32
  sys := .stopped
  txTrace := []
  din := []
  dout := []
  result := ⟨.ok, 0#32⟩
  schedule := []
  drawn := 0
  epoch := 0

/-- The machine right after reset (R46, R240), with the parameters of the document's example (log 1). -/
def State.reset : State := State.powerUp Config.documentExample

/-- Why the machine stops with a fault. -/
inductive Fault where
  /-- Raised by the operations that use a cursor or a position as an element index, when that index is outside its memory.
  R63: no reachable state forms such an index, so the fault is safe (log 10). -/
  | indexOutOfMemory
deriving DecidableEq, Repr

/-- Why an operation has no meaning. -/
inductive Refusal where
  /-- Raised by no operation: every operation has its meaning. It is the host's name for an operation without one (safe). -/
  | notModelled (mnemonic : String)
  /-- Raised by every operation, when a parameter is outside its legal values: that is "not a configuration" and the block
  has no step (`93_implementation_defined.md` U1, U14, U15; safe, log 2). -/
  | notAConfiguration
deriving DecidableEq, Repr

end Sys2Proof.Machine
end

