-- ==== Sys2Proof/Machine/Ops.lean ====
section
/-!
DEFINITION. The operations shared by the meanings: memory elements, the FIFO functions of `40_ringfifo.md`, raising and
entering an event, the DMA step of a channel, reset, the fetch of the next command, and the frame every operation is issued in.
-/
namespace Sys2Proof.Machine

/-! ## Memories (R16, R60 to R66) -/

/-- The value listed for index `i`, if a step has written that element since reset. -/
def lookupCell (i : Nat) : List (Nat × BitVec 16) → Option (BitVec 16)
  | [] => none
  | (j, v) :: rest => if i = j then some v else lookupCell i rest

/-- List `v` for index `i`, keeping the indices rising. -/
def insertCell (i : Nat) (v : BitVec 16) : List (Nat × BitVec 16) → List (Nat × BitVec 16)
  | [] => [(i, v)]
  | (j, u) :: rest =>
    if i < j then (i, v) :: (j, u) :: rest
    else if i = j then (i, v) :: rest
    else (j, u) :: insertCell i v rest

/-- The element at index `i`, if a step has written it since reset. -/
def Memory.lookup (m : Memory) (i : Nat) : Option (BitVec 16) := lookupCell i m.cells

/-- The element at index `i`: what was last written there, else the launch input `fill i` (R66). -/
def Memory.read (fill : Nat → BitVec 16) (m : Memory) (i : Nat) : BitVec 16 := (m.lookup i).getD (fill i)

/-- One element written (R16, `MemWrite` with n = 1). -/
def Memory.write (m : Memory) (i : Nat) (v : BitVec 16) : Memory := ⟨insertCell i v m.cells⟩

/-- The canonical form: indices strictly rising. (What an unlisted index reads as is no value of the list, so no entry can
repeat it; log 4.) -/
abbrev Memory.wf (m : Memory) : Prop := m.cells.Pairwise (fun a b => a.1 < b.1)

/-- `MemRead(M, i, n)` (R16). -/
def memRead (fill : Nat → BitVec 16) (m : Memory) (i n : Nat) : List (BitVec 16) :=
  (List.range n).map fun k => m.read fill (i + k)

/-- `FIFO_MEM_INIT`: what an element of `fifo_mem` holds that no step has written since the present reset (R13, R66). -/
def State.fifoFill (s : State) (i : Nat) : Sample := Config.freeFifoMem s.epoch i

/-- `CAP_BUF_INIT`: likewise for `cap_buf`, a value of `RAW_W` bits (R13, R24, R66). -/
def State.capFill (s : State) (i : Nat) : Raw :=
  BitVec.ofNat 16 ((Config.freeCapBuf s.epoch i).toNat % 2 ^ s.cfg.rawW)

/-- `PB_BUF_INIT`: likewise for `pb_buf` (R13, R66). -/
def State.pbFill (s : State) (i : Nat) : Slot := Config.freePbBuf s.epoch i

/-- `fifo_mem[i]`. -/
def State.fifoAt (s : State) (i : Nat) : Sample := s.fifo.mem.read s.fifoFill i

/-- `cap_buf[i]`. -/
def State.capAt (s : State) (i : Nat) : Raw := s.capBuf.read s.capFill i

/-- `pb_buf[i]`. -/
def State.pbAt (s : State) (i : Nat) : Slot := s.pbBuf.read s.pbFill i

/-! ## The FIFO functions (`40_ringfifo.md`), over the FIFO state alone -/

/-- `F_init` (R110): `fifo_mem` is not written. -/
def Fifo.init (f : Fifo) : Fifo := { f with wr := 0#16, rd := 0#16, count := 0#16 }

/-- `F_write` (R111): `none` is `Full`. -/
def Fifo.write (cap : Nat) (f : Fifo) (v : Sample) : Option Fifo :=
  if f.count.toNat = cap then none
  else some { f with
    mem := f.mem.write f.wr.toNat v
    wr := BitVec.ofNat 16 ((f.wr.toNat + 1) % cap)
    count := BitVec.ofNat 16 (f.count.toNat + 1) }

/-- `F_read` (R112): `none` is `Empty`. -/
def Fifo.read (cap : Nat) (fill : Nat → Sample) (f : Fifo) : Option (Sample × Fifo) :=
  if f.count.toNat = 0 then none
  else some (f.mem.read fill f.rd.toNat, { f with
    rd := BitVec.ofNat 16 ((f.rd.toNat + 1) % cap)
    count := BitVec.ofNat 16 (f.count.toNat - 1) })

/-- The loop of `F_write_block` (R113): `xs[i], xs[i+1], …` at the indices `(start + i) mod cap`, in order. -/
def ringWrite (cap start : Nat) : Nat → List Sample → Memory → Memory
  | _, [], m => m
  | i, x :: xs, m => ringWrite cap start (i + 1) xs (m.write ((start + i) % cap) x)

/-- `F_write_block` (R113): how many samples were written, and the FIFO after. -/
def Fifo.writeBlock (cap : Nat) (f : Fifo) (xs : List Sample) : Nat × Fifo :=
  let w := min xs.length (cap - f.count.toNat)
  (w, { f with
    mem := ringWrite cap f.wr.toNat 0 (xs.take w) f.mem
    wr := BitVec.ofNat 16 ((f.wr.toNat + w) % cap)
    count := BitVec.ofNat 16 (f.count.toNat + w) })

/-- `F_read_block` (R114): the samples read, oldest first, and the FIFO after. -/
def Fifo.readBlock (cap : Nat) (fill : Nat → Sample) (f : Fifo) (n : Nat) : List Sample × Fifo :=
  let r := min n f.count.toNat
  ((List.range r).map fun i => f.mem.read fill ((f.rd.toNat + i) % cap),
    { f with
      rd := BitVec.ofNat 16 ((f.rd.toNat + r) % cap)
      count := BitVec.ofNat 16 (f.count.toNat - r) })

/-- The logical content of the FIFO, oldest first (R23 d). -/
def Fifo.content (cap : Nat) (fill : Nat → Sample) (f : Fifo) : List Sample :=
  (List.range f.count.toNat).map fun i => f.mem.read fill ((f.rd.toNat + i) % cap)

/-! ## Halves, events and the DMA step of a channel -/

/-- The number of a half (R61). -/
def Half.index : Half → Nat
  | .first => 0
  | .second => 1

/-- `half(p, H)` (R16). -/
def halfOf (p H : Nat) : Half := if p < H then .first else .second

/-- `Ready(h)` (R16). -/
def ready : Half → TransferState
  | .first => .firstHalfReady
  | .second => .secondHalfReady

/-- `Job(ch, h)` (R32). -/
def jobOf : Chan → Half → SchedJob
  | .cap, .first => .cap0
  | .cap, .second => .cap1
  | .pb, .first => .pb0
  | .pb, .second => .pb1

/-- The pending latch of a half (R31). -/
def Channel.pend (c : Channel) : Half → Bool
  | .first => c.pend0
  | .second => c.pend1

/-- The pending latch of a half set to `b` (R31). -/
def Channel.setPend (c : Channel) (h : Half) (b : Bool) : Channel :=
  match h with
  | .first => { c with pend0 := b }
  | .second => { c with pend1 := b }

/-- A channel of the state. -/
def State.chan (s : State) : Chan → Channel
  | .cap => s.cap
  | .pb => s.pb

/-- A channel of the state replaced. -/
def State.setChan (s : State) (ch : Chan) (c : Channel) : State :=
  match ch with
  | .cap => { s with cap := c }
  | .pb => { s with pb := c }

/-- `outstanding(ch, h)` (R47): half `h` belongs to the scheduler. -/
def State.outstanding (s : State) (ch : Chan) (h : Half) : Bool :=
  (s.chan ch).pend h || decide ((s.chan ch).flag = ready h) || decide (s.job = jobOf ch h)

/-- Raising the event of a half (R209, R210): its latch is set, and a latch found set is an event lost (R221 a). -/
def Channel.raise (c : Channel) (h : Half) : Channel :=
  { c.setPend h true with lost := c.lost || c.pend h }

/-- Taking an event: the entry point of a half (R131, R132, R151, R152, R212). Its latch is cleared and the channel's flag
set; a flag found not `Idle` is an event lost (R221 b). Nothing is saved, and the return is the end of the step (R213). -/
def Channel.enter (c : Channel) (h : Half) : Channel :=
  { c.setPend h false with flag := ready h, lost := c.lost || decide (c.flag ≠ .idle) }

/-- The read-and-clear of a flag (R72, R170, R171): what it leaves. -/
def Channel.clearFlag (c : Channel) : Channel := { c with flag := .idle }

/-- One DMA step on a buffer with halves of `H` elements, `busy` saying whether the half at the position is outstanding
(R130, R150): the race is recorded, the position advances and wraps, and the event of a half just completed is raised. -/
def Channel.dmaStep (c : Channel) (H : Nat) (busy : Bool) : Channel :=
  let p := (c.pos + 1) % (2 * H)
  let c1 := { c with race := c.race || busy, pos := p }
  let c2 := if p = H then c1.raise .first else c1
  if p = 0 then c2.raise .second else c2

/-! ## Counters, results, reset -/

/-- `sat_inc(c, k)` (R16, R9). -/
def satInc (c : Word32) (k : Nat) : Word32 := BitVec.ofNat 32 (min (c.toNat + k) (2 ^ 32 - 1))

/-- The operation returns `(code, val)` (R96). -/
def State.respond (s : State) (code : ResultCode) (val : Word32) : State := { s with result := ⟨code, val⟩ }

/-- `SYS.RESET` (R185, R46): every element at its reset value, but `tx_trace`, which is kept; the three memories become
unspecified anew (`93_implementation_defined.md` U13). The parameters stay (R14), and so does what is outside the block: the schedule. -/
def State.resetBlock (s : State) : State :=
  { State.powerUp s.cfg with
    txTrace := s.txTrace
    schedule := s.schedule
    drawn := s.drawn
    epoch := s.epoch + 1 }

/-! ## Issuing an operation -/

/-- Every parameter has a legal value (`00_scope.md` section 5; U1, U14, U15). -/
def configLegal (c : Config) : Bool :=
  decide (1 ≤ c.fifoCap ∧ c.fifoCap ≤ 65535)
    && decide (1 ≤ c.rawW ∧ c.rawW ≤ 16)
    && decide (1 ≤ c.capHalf)
    && decide (1 ≤ c.capBatch ∧ c.capBatch ≤ 65535)
    && decide (1 ≤ c.pbBatch ∧ c.pbBatch ≤ 65535)
    && decide (1 ≤ c.pbStride)
    && decide (c.pbOffsets ≠ [])
    && decide c.pbOffsets.Nodup
    && c.pbOffsets.all (fun o => decide (o < c.pbStride))
    && c.decimateRows.all (fun r => decide (r.input.length = c.capHalf)
        && r.input.all (fun w => decide (w.toNat < 2 ^ c.rawW)) && decide (r.output.length = c.capBatch))
    && c.hookRows.all (fun r => decide (r.input.length = c.capBatch) && decide (r.output.length = c.capBatch))

/-- The frame of every operation. An illegal operand is decided first, the enable condition second (R208): each is answered
by its code and changes nothing else (R206, R207). `inRange` says that the element indices the effect uses are inside their
memories (R63), and `t` is the state after the effect. -/
def issue (s : State) (legal enabled inRange : Bool) (t : State) : Host.Outcome State Fault Refusal :=
  if configLegal s.cfg = false then .refused .notAConfiguration
  else if legal = false then .next (s.respond .illegalCommand 0#32)
  else if enabled = false then .next (s.respond .notEnabled 0#32)
  else if inRange = false then .fault .indexOutOfMemory
  else .next t

/-! ## The next command -/

/-- The next command of the schedule: the head of the list, or a draw when the list is empty (R69, U11; log 7). -/
def State.nextCommand (s : State) : Command :=
  match s.schedule with
  | c :: _ => c
  | [] => ⟨Config.freeWord s.drawn, Config.freeData s.drawn⟩

/-- The state in which that command runs: it is taken off the schedule, and its samples are on `din` (R38; log 7). -/
def State.takeCommand (s : State) : State :=
  match s.schedule with
  | c :: rest => { s with schedule := rest, din := s.din ++ c.data }
  | [] => { s with drawn := s.drawn + 1, din := s.din ++ Config.freeData s.drawn }

end Sys2Proof.Machine
end

