-- ==== Sys2Proof/Machine/Operands.lean ====
section
/-!
DEFINITION. The operand forms of the operations (R93, R38), and the calls of the two collaborators (R11, R12).
-/
namespace Sys2Proof.Machine

/-- `CAP.DMA w`: `imm[15:RAW_W]` is 0 (R93, R94). -/
def rawFits (c : Config) (w : Raw) : Bool := decide (w.toNat < 2 ^ c.rawW)

/-- `SYS.RDSTAT r`: there are sixteen registers (R93, R94). -/
def registerExists (r : Imm) : Bool := decide (r.toNat < 16)

/-- `FIFO.WRBLK n`: the samples are on `din` (R95, R113). -/
def dinHolds (s : State) (n : Imm) : Bool := decide (n.toNat ≤ s.din.length)

/-- The answer of a collaborator: the row that knows the call, else free values, `len` samples of them (R11, R12; log 5). -/
def collaborate (rows : List CallRow) (len : Nat) (freeAfter : CollabState → List (BitVec 16) → CollabState)
    (freeOutput : CollabState → List (BitVec 16) → Nat → Sample) (st : CollabState) (input : List (BitVec 16)) :
    CollabState × List Sample :=
  match rows.find? (fun r => decide (r.before = st) && decide (r.input = input)) with
  | some r => (r.after, r.output)
  | none => (freeAfter st input, (List.range len).map (freeOutput st input))

/-- `Decimate` (R11): Nc samples from the Hc elements of a half. -/
def decimate (c : Config) (st : CollabState) (raw : List Raw) : CollabState × List Sample :=
  collaborate c.decimateRows c.capBatch Config.freeFiltState Config.freePcm st raw

/-- `Hook` (R12): a batch of the same length Nc. -/
def hookCall (c : Config) (st : CollabState) (batch : List Sample) : CollabState × List Sample :=
  collaborate c.hookRows c.capBatch Config.freeHookState Config.freeHooked st batch

end Sys2Proof.Machine
end

