-- ==== Sys2Proof/Machine/Capture.lean ====
section
/-!
DEFINITION. The CaptureChannel operations (`41_capture.md`).
-/
namespace Sys2Proof.Machine

/-- What `CAP.DMA w` does (R130): the race test uses the state before the step, the element is stored, the engine moves on. -/
def captureStep (w : Raw) (s : State) : State :=
  { s with
    capBuf := s.capBuf.write s.cap.pos w
    cap := s.cap.dmaStep s.cfg.capHalf (s.outstanding .cap (halfOf s.cap.pos s.cfg.capHalf)) }.respond .ok 0#32

/-- `CAP.DMA w` (R130): enabled while `Running`; an operand wider than `RAW_W` is illegal (R94). -/
def execCapDma (w : Raw) (s : State) : Host.Outcome State Fault Refusal :=
  issue s (rawFits s.cfg w) (decide (s.sys = .running)) (decide (s.cap.pos < 2 * s.cfg.capHalf)) (captureStep w s)

/-- The capture entry point of half `h` (R131, R132): the event is taken. -/
def captureEvent (h : Half) (s : State) : State := { s with cap := s.cap.enter h }.respond .ok 0#32

/-- `EV.CAP.HALF` (R131). -/
def execEvCapHalf (s : State) : Host.Outcome State Fault Refusal :=
  issue s true (decide (s.sys = .running) && s.cap.pend .first) true (captureEvent .first s)

/-- `EV.CAP.FULL` (R132). -/
def execEvCapFull (s : State) : Host.Outcome State Fault Refusal :=
  issue s true (decide (s.sys = .running) && s.cap.pend .second) true (captureEvent .second s)

/-- The Hc elements of half `h` of `cap_buf` (R135). -/
def rawHalf (h : Half) (s : State) : List Raw :=
  memRead s.capFill s.capBuf (h.index * s.cfg.capHalf) s.cfg.capHalf

/-- `CaptureService(h)` (R135): decimation, hook, block write, in this order; what does not fit is dropped and counted. -/
def captureService (h : Half) (s : State) : State :=
  let d := decimate s.cfg s.filt (rawHalf h s)
  let k := hookCall s.cfg s.hook d.2
  let wf := s.fifo.writeBlock s.cfg.fifoCap k.2
  let t := { s with filt := d.1, hook := k.1, fifo := wf.2, job := .none }
  if wf.1 < s.cfg.capBatch then
    { t with
      ovrEvents := satInc s.ovrEvents 1
      ovrSamples := satInc s.ovrSamples (s.cfg.capBatch - wf.1) }.respond .overrun
        (BitVec.ofNat 32 (s.cfg.capBatch - wf.1))
  else t.respond .ok (BitVec.ofNat 32 s.cfg.capBatch)

/-- `SVC.CAP0` (R133). -/
def execSvcCap0 (s : State) : Host.Outcome State Fault Refusal :=
  issue s true (decide (s.sys = .running) && decide (s.job = .cap0)) true (captureService .first s)

/-- `SVC.CAP1` (R134). -/
def execSvcCap1 (s : State) : Host.Outcome State Fault Refusal :=
  issue s true (decide (s.sys = .running) && decide (s.job = .cap1)) true (captureService .second s)

end Sys2Proof.Machine
end

