-- ==== Sys2Proof/Machine/Playback.lean ====
section
/-!
DEFINITION. The PlaybackChannel operations (`42_playback.md`).
-/
namespace Sys2Proof.Machine

/-- What `PB.DMA` does (R150): the slot at the position is transmitted, the engine moves on, the buffer is not changed. -/
def playbackStep (s : State) : State :=
  let v := s.pbAt s.pb.pos
  { s with
    txTrace := s.txTrace ++ [v]
    pb := s.pb.dmaStep s.cfg.pbHalf (s.outstanding .pb (halfOf s.pb.pos s.cfg.pbHalf)) }.respond .ok (v.setWidth 32)

/-- `PB.DMA` (R150): enabled while `Running`. -/
def execPbDma (s : State) : Host.Outcome State Fault Refusal :=
  issue s true (decide (s.sys = .running)) (decide (s.pb.pos < 2 * s.cfg.pbHalf)) (playbackStep s)

/-- The playback entry point of half `h` (R151, R152): the event is taken. -/
def playbackEvent (h : Half) (s : State) : State := { s with pb := s.pb.enter h }.respond .ok 0#32

/-- `EV.PB.HALF` (R151). -/
def execEvPbHalf (s : State) : Host.Outcome State Fault Refusal :=
  issue s true (decide (s.sys = .running) && s.pb.pend .first) true (playbackEvent .first s)

/-- `EV.PB.FULL` (R152). -/
def execEvPbFull (s : State) : Host.Outcome State Fault Refusal :=
  issue s true (decide (s.sys = .running) && s.pb.pend .second) true (playbackEvent .second s)

/-- One sample into the slots `group + o` of its group, for every offset `o` (R156). -/
def fanOut (group : Nat) (v : Sample) : List Nat → Memory → Memory
  | [], m => m
  | o :: os, m => fanOut group v os (m.write (group + o) v)

/-- The refill loop (R155, R156): `n` samples popped by `F_read`, the k-th of them fanned out at `base + k*S`. The FIFO is
never found empty, because its count was tested before the loop (R202). -/
def refill (c : Config) (fill : Nat → Sample) (base : Nat) : Nat → Nat → Fifo → Memory → Fifo × Memory
  | 0, _, f, m => (f, m)
  | n + 1, k, f, m =>
    match f.read c.fifoCap fill with
    | none => (f, m)
    | some (v, f') => refill c fill base n (k + 1) f' (fanOut (base + k * c.pbStride) v c.pbOffsets m)

/-- The slots `base`, …, `base + n - 1` set to zero (R155, `silence`). -/
def silenceSlots (base : Nat) : Nat → Memory → Memory
  | 0, m => m
  | n + 1, m => silenceSlots (base + 1) n (m.write base 0#16)

/-- `PlaybackService(h)` (R155): a whole batch of Np samples is popped and fanned out, or none; a starved half is left alone
or silenced by `ON_UNDERRUN` (R8), and counted. -/
def playbackService (h : Half) (s : State) : State :=
  let base := h.index * s.cfg.pbHalf
  if s.cfg.pbBatch ≤ s.fifo.count.toNat then
    let fm := refill s.cfg s.fifoFill base s.cfg.pbBatch 0 s.fifo s.pbBuf
    { s with fifo := fm.1, pbBuf := fm.2, job := .none }.respond .ok (BitVec.ofNat 32 s.cfg.pbBatch)
  else
    let m := match s.cfg.onUnderrun with
      | .repeatLast => s.pbBuf
      | .silence => silenceSlots base s.cfg.pbHalf s.pbBuf
    { s with undEvents := satInc s.undEvents 1, pbBuf := m, job := .none }.respond .underrun
      (s.fifo.count.setWidth 32)

/-- The first pop of a service uses the read cursor as it stands; every later index is modulo C. -/
def popInRange (s : State) : Bool :=
  decide (s.fifo.count.toNat < s.cfg.pbBatch ∨ s.fifo.rd.toNat < s.cfg.fifoCap)

/-- `SVC.PB0` (R153). -/
def execSvcPb0 (s : State) : Host.Outcome State Fault Refusal :=
  issue s true (decide (s.sys = .running) && decide (s.job = .pb0)) (popInRange s) (playbackService .first s)

/-- `SVC.PB1` (R154). -/
def execSvcPb1 (s : State) : Host.Outcome State Fault Refusal :=
  issue s true (decide (s.sys = .running) && decide (s.job = .pb1)) (popInRange s) (playbackService .second s)

end Sys2Proof.Machine
end

