-- ==== Sys2Proof/Machine/RingFifo.lean ====
section
/-!
DEFINITION. The RingFifo operations (`40_ringfifo.md`), which the host may issue while the block is `Stopped`.
-/
namespace Sys2Proof.Machine

/-- The enable condition the five operations share (R95): the block is `Stopped`. -/
def hostMayUseFifo (s : State) : Bool := decide (s.sys = .stopped)

/-- `FIFO.INIT` (R110). -/
def execFifoInit (s : State) : Host.Outcome State Fault Refusal :=
  issue s true (hostMayUseFifo s) true ({ s with fifo := s.fifo.init }.respond .ok 0#32)

/-- What `FIFO.WRITE v` does (R111, R201). -/
def writeSample (v : Sample) (s : State) : State :=
  match s.fifo.write s.cfg.fifoCap v with
  | none => s.respond .full 0#32
  | some f => { s with fifo := f }.respond .ok 0#32

/-- `FIFO.WRITE v` (R111). A full FIFO forms no index; otherwise the index is the write cursor. -/
def execFifoWrite (v : Sample) (s : State) : Host.Outcome State Fault Refusal :=
  issue s true (hostMayUseFifo s)
    (decide (s.fifo.count.toNat = s.cfg.fifoCap ∨ s.fifo.wr.toNat < s.cfg.fifoCap)) (writeSample v s)

/-- What `FIFO.READ` does (R112, R202). -/
def readSample (s : State) : State :=
  match s.fifo.read s.cfg.fifoCap s.fifoFill with
  | none => s.respond .empty 0#32
  | some (v, f) => { s with fifo := f }.respond .ok (v.setWidth 32)

/-- `FIFO.READ` (R112). An empty FIFO forms no index; otherwise the index is the read cursor. -/
def execFifoRead (s : State) : Host.Outcome State Fault Refusal :=
  issue s true (hostMayUseFifo s)
    (decide (s.fifo.count.toNat = 0 ∨ s.fifo.rd.toNat < s.cfg.fifoCap)) (readSample s)

/-- What `FIFO.WRBLK n` does (R113): all `n` samples leave `din`, written or not. -/
def writeSamples (n : Nat) (s : State) : State :=
  let wf := s.fifo.writeBlock s.cfg.fifoCap (s.din.take n)
  { s with fifo := wf.2, din := s.din.drop n }.respond .ok (BitVec.ofNat 32 wf.1)

/-- `FIFO.WRBLK n` (R113): enabled while `Stopped` with at least `n` samples on `din` (R95). -/
def execFifoWrblk (n : Imm) (s : State) : Host.Outcome State Fault Refusal :=
  issue s true (hostMayUseFifo s && dinHolds s n) true (writeSamples n.toNat s)

/-- What `FIFO.RDBLK n` does (R114). -/
def readSamples (n : Nat) (s : State) : State :=
  let yf := s.fifo.readBlock s.cfg.fifoCap s.fifoFill n
  { s with fifo := yf.2, dout := s.dout ++ yf.1 }.respond .ok (BitVec.ofNat 32 yf.1.length)

/-- `FIFO.RDBLK n` (R114). -/
def execFifoRdblk (n : Imm) (s : State) : Host.Outcome State Fault Refusal :=
  issue s true (hostMayUseFifo s) true (readSamples n.toNat s)

end Sys2Proof.Machine
end

