-- ==== Sys2Proof/Machine/Flags.lean ====
section
/-!
DEFINITION. The encodings of the state as software sees it: the tri-state flag (R40), the result codes (R200), the output
`fault_ind` (R36), and the sixteen status registers (R41).
-/
namespace Sys2Proof.Machine

/-- `enc` of a flag (R40). -/
def encFlag : TransferState → Nat
  | .idle => 0
  | .firstHalfReady => 1
  | .secondHalfReady => 2

/-- `sys_state` in register 0 (R36, R41). -/
def encSys : SysState → Nat
  | .stopped => 0
  | .running => 1
  | .halted => 2

/-- `sched_job` in register 12 (R41). -/
def encJob : SchedJob → Nat
  | .none => 0
  | .cap0 => 1
  | .cap1 => 2
  | .pb0 => 3
  | .pb1 => 4

/-- `sched_phase` in register 12 (R41). -/
def encPhase : SchedPhase → Nat
  | .phCap => 0
  | .phPb => 1

/-- `ON_UNDERRUN` in register 15 (R41). -/
def encUnderrun : OnUnderrun → Nat
  | .repeatLast => 0
  | .silence => 1

/-- `POLL_ORDER` in register 15 (R41). -/
def encOrder : PollOrder → Nat
  | .captureFirst => 0
  | .playbackFirst => 1

/-- The 4-bit number of a result code (R200). -/
def encCode : ResultCode → BitVec 4
  | .ok => 0#4
  | .full => 1#4
  | .empty => 2#4
  | .overrun => 3#4
  | .underrun => 4#4
  | .initializationFailure => 5#4
  | .notEnabled => 6#4
  | .illegalCommand => 7#4

/-- `fault_ind`: 1 exactly when the block is `Halted` (R36). -/
def State.faultInd (s : State) : Bool := decide (s.sys = .halted)

/-- A single bit at position `k` of a register. -/
def bitAt (k : Nat) (b : Bool) : Nat := if b then 2 ^ k else 0

/-- Registers 13 and 14: a position in 32 bits (R41). The spec gives no reading for a position 32 bits do not hold: a free
value (log 9). -/
def posReg (p : Nat) : Word32 := if p < 2 ^ 32 then BitVec.ofNat 32 p else Config.freeWidePos p

/-- `status(r)`, the value of status register `r` (R41). -/
def statusReg (s : State) (r : Nat) : Word32 :=
  match r with
  | 0 => BitVec.ofNat 32 (encSys s.sys + bitAt 2 s.faultInd)
  | 1 => BitVec.ofNat 32 (encFlag s.cap.flag)
  | 2 => BitVec.ofNat 32 (encFlag s.pb.flag)
  | 3 => BitVec.ofNat 32 (bitAt 0 s.cap.pend0 + bitAt 1 s.cap.pend1 + bitAt 2 s.pb.pend0 + bitAt 3 s.pb.pend1)
  | 4 => s.fifo.count.setWidth 32
  | 5 => s.fifo.wr.setWidth 32
  | 6 => s.fifo.rd.setWidth 32
  | 7 => BitVec.ofNat 32 s.cfg.fifoCap
  | 8 => s.ovrEvents
  | 9 => s.ovrSamples
  | 10 => s.undEvents
  | 11 => BitVec.ofNat 32 (bitAt 0 s.cap.lost + bitAt 1 s.pb.lost + bitAt 2 s.cap.race + bitAt 3 s.pb.race)
  | 12 => BitVec.ofNat 32 (encJob s.job + 8 * encPhase s.phase)
  | 13 => posReg s.cap.pos
  | 14 => posReg s.pb.pos
  | 15 => BitVec.ofNat 32 (encUnderrun s.cfg.onUnderrun + 2 * encOrder s.cfg.pollOrder)
  | _ => 0#32

end Sys2Proof.Machine
end

