-- ==== Sys2Proof/Machine/Scheduler.lean ====
section
/-!
DEFINITION. The PipelineScheduler operations (`43_scheduler.md`).
-/
namespace Sys2Proof.Machine

/-- The job a poll of channel `ch` latches when it sees the flag value `v` (R170, R171). -/
def jobSeen (ch : Chan) : TransferState → SchedJob
  | .idle => .none
  | .firstHalfReady => jobOf ch .first
  | .secondHalfReady => jobOf ch .second

/-- What `POLL.CAP` does (R170): the flag is read and cleared in one step (R72). -/
def pollCapture (s : State) : State :=
  { s with cap := s.cap.clearFlag, job := jobSeen .cap s.cap.flag, phase := .phPb }.respond .ok
    (BitVec.ofNat 32 (encFlag s.cap.flag))

/-- `POLL.CAP` (R170). -/
def execPollCap (s : State) : Host.Outcome State Fault Refusal :=
  issue s true (decide (s.sys = .running) && decide (s.job = .none) && decide (s.phase = .phCap)) true (pollCapture s)

/-- What `POLL.PB` does (R171). -/
def pollPlayback (s : State) : State :=
  { s with pb := s.pb.clearFlag, job := jobSeen .pb s.pb.flag, phase := .phCap }.respond .ok
    (BitVec.ofNat 32 (encFlag s.pb.flag))

/-- `POLL.PB` (R171). -/
def execPollPb (s : State) : Host.Outcome State Fault Refusal :=
  issue s true (decide (s.sys = .running) && decide (s.job = .none) && decide (s.phase = .phPb)) true (pollPlayback s)

end Sys2Proof.Machine
end

