-- ==== Sys2Proof/Machine/System.lean ====
section
/-!
DEFINITION. The system operations (`44_system.md`).
-/
namespace Sys2Proof.Machine

/-- `SYS.RESET` (R185): enabled always; returns `(Ok, 0)`. -/
def execSysReset (s : State) : Host.Outcome State Fault Refusal :=
  issue s true true true (s.resetBlock.respond .ok 0#32)

/-- What `SYS.START ok` does (R186, R205). -/
def startBlock (ok : Bool) (s : State) : State :=
  if ok then { s with sys := .running }.respond .ok 0#32
  else { s with sys := .halted }.respond .initializationFailure 0#32

/-- `SYS.START ok` (R186): enabled while `Stopped`. -/
def execSysStart (ok : Bool) (s : State) : Host.Outcome State Fault Refusal :=
  issue s true (decide (s.sys = .stopped)) true (startBlock ok s)

/-- `SYS.RDSTAT r` (R187): enabled always; no side effect (R42). -/
def execSysRdstat (r : Imm) (s : State) : Host.Outcome State Fault Refusal :=
  issue s (registerExists r) true true (s.respond .ok (statusReg s r.toNat))

end Sys2Proof.Machine
end

