-- ==== Sys2Proof/Machine/Dispatch.lean ====
section
/-!
DEFINITION. The meaning of every operation, one arm each.
-/
namespace Sys2Proof.Machine

def exec (i : Instr) (s : State) : Host.Outcome State Fault Refusal :=
  match i with
  | .sysReset => Sys2Proof.Machine.execSysReset s
  | .sysStart ok => Sys2Proof.Machine.execSysStart ok s
  | .sysRdstat r => Sys2Proof.Machine.execSysRdstat r s
  | .fifoInit => Sys2Proof.Machine.execFifoInit s
  | .fifoWrite v => Sys2Proof.Machine.execFifoWrite v s
  | .fifoRead => Sys2Proof.Machine.execFifoRead s
  | .fifoWrblk n => Sys2Proof.Machine.execFifoWrblk n s
  | .fifoRdblk n => Sys2Proof.Machine.execFifoRdblk n s
  | .capDma w => Sys2Proof.Machine.execCapDma w s
  | .evCapHalf => Sys2Proof.Machine.execEvCapHalf s
  | .evCapFull => Sys2Proof.Machine.execEvCapFull s
  | .svcCap0 => Sys2Proof.Machine.execSvcCap0 s
  | .svcCap1 => Sys2Proof.Machine.execSvcCap1 s
  | .pbDma => Sys2Proof.Machine.execPbDma s
  | .evPbHalf => Sys2Proof.Machine.execEvPbHalf s
  | .evPbFull => Sys2Proof.Machine.execEvPbFull s
  | .svcPb0 => Sys2Proof.Machine.execSvcPb0 s
  | .svcPb1 => Sys2Proof.Machine.execSvcPb1 s
  | .pollCap => Sys2Proof.Machine.execPollCap s
  | .pollPb => Sys2Proof.Machine.execPollPb s

end Sys2Proof.Machine
end

