-- ==== Sys2Proof/Machine/Step.lean ====
section
/-!
DEFINITION. One step of the block: the next command of the schedule is taken, decoded and executed (R69, R90).
-/
namespace Sys2Proof.Machine

/-- The execution of one command word (R94, R95): an illegal word is answered `IllegalCommand` and changes nothing (R207). -/
def execWord (w : CmdWord) (s : State) : Host.Outcome State Fault Refusal :=
  match decode s.cfg.rawW w with
  | .ok i => exec i s
  | .error _ => issue s false true true s

/-- One step: one command, by whichever agent owns it (R69). -/
def step (s : State) : Host.Outcome State Fault Refusal := execWord s.nextCommand.word s.takeCommand

/-- `s` with the command word `w` as the next command of the schedule, and no sample put on `din` with it. -/
def State.withFetchWord (s : State) (nbits w : Nat) : State :=
  { s with schedule := ⟨BitVec.ofNat 32 (w % 2 ^ nbits), []⟩ :: s.schedule }

end Sys2Proof.Machine
end

