-- ==== Sys2Proof/Machine/Agents.lean ====
section
/-!
DEFINITION. Who executes an operation and when it may: the agent column of R92, the enable conditions of R95 in one table, and
the scheduler's dispatch of R172. The meanings restate their own conditions; the statements hold them against these tables.
-/
namespace Sys2Proof.Machine

/-- The five agents (R17). -/
inductive Agent where
  | host
  | captureDma
  | playbackDma
  | interrupt
  | scheduler
deriving DecidableEq, Repr

/-- The agent that executes an operation (R17, R92). -/
def agentOf : Instr → Agent
  | .sysReset => .host
  | .sysStart _ => .host
  | .sysRdstat _ => .host
  | .fifoInit => .host
  | .fifoWrite _ => .host
  | .fifoRead => .host
  | .fifoWrblk _ => .host
  | .fifoRdblk _ => .host
  | .capDma _ => .captureDma
  | .evCapHalf => .interrupt
  | .evCapFull => .interrupt
  | .svcCap0 => .scheduler
  | .svcCap1 => .scheduler
  | .pbDma => .playbackDma
  | .evPbHalf => .interrupt
  | .evPbFull => .interrupt
  | .svcPb0 => .scheduler
  | .svcPb1 => .scheduler
  | .pollCap => .scheduler
  | .pollPb => .scheduler

/-- The table of enable conditions (R95). -/
def enabled (i : Instr) (s : State) : Bool :=
  match i with
  | .sysReset => true
  | .sysStart _ => s.sys == .stopped
  | .sysRdstat _ => true
  | .fifoInit => s.sys == .stopped
  | .fifoWrite _ => s.sys == .stopped
  | .fifoRead => s.sys == .stopped
  | .fifoWrblk n => s.sys == .stopped && decide (n.toNat ≤ s.din.length)
  | .fifoRdblk _ => s.sys == .stopped
  | .capDma _ => s.sys == .running
  | .evCapHalf => s.sys == .running && s.cap.pend0
  | .evCapFull => s.sys == .running && s.cap.pend1
  | .svcCap0 => s.sys == .running && s.job == .cap0
  | .svcCap1 => s.sys == .running && s.job == .cap1
  | .pbDma => s.sys == .running
  | .evPbHalf => s.sys == .running && s.pb.pend0
  | .evPbFull => s.sys == .running && s.pb.pend1
  | .svcPb0 => s.sys == .running && s.job == .pb0
  | .svcPb1 => s.sys == .running && s.job == .pb1
  | .pollCap => s.sys == .running && s.job == .none && s.phase == .phCap
  | .pollPb => s.sys == .running && s.job == .none && s.phase == .phPb

/-- The entry point of half `h` of a channel (R92, R209). -/
def entryInstr : Chan → Half → Instr
  | .cap, .first => .evCapHalf
  | .cap, .second => .evCapFull
  | .pb, .first => .evPbHalf
  | .pb, .second => .evPbFull

/-- The service of half `h` of a channel (R92). -/
def serviceInstr : Chan → Half → Instr
  | .cap, .first => .svcCap0
  | .cap, .second => .svcCap1
  | .pb, .first => .svcPb0
  | .pb, .second => .svcPb1

/-- The service of a job; no job, no service (R172, R98 `SVC`). -/
def serviceOf : SchedJob → Option Instr
  | .none => none
  | .cap0 => some .svcCap0
  | .cap1 => some .svcCap1
  | .pb0 => some .svcPb0
  | .pb1 => some .svcPb1

/-- The poll of a phase (R172). -/
def pollOf : SchedPhase → Instr
  | .phCap => .pollCap
  | .phPb => .pollPb

/-- The scheduler's next operation, from `sched_job` and `sched_phase` alone (R172). -/
def schedulerOp (job : SchedJob) (phase : SchedPhase) : Instr := (serviceOf job).getD (pollOf phase)

end Sys2Proof.Machine
end

