-- ==== Sys2Proof/Machine/Pseudo.lean ====
section
/-!
DEFINITION. The pseudo-operations (R98): fixed expansions into operations, with no encoding of their own.
-/
namespace Sys2Proof.Machine

/-- The six pseudo-operations (R98). -/
inductive Pseudo where
  /-- `EV.CAP h`. -/
  | evCap (h : Half)
  /-- `EV.PB h`. -/
  | evPb (h : Half)
  /-- `SVC`. -/
  | svc
  /-- `POLL.ITER`. -/
  | pollIter
  /-- `CAP.FILL h [w0, ...]`. -/
  | capFill (h : Half) (ws : List Raw)
  /-- `PB.DRAIN`. -/
  | pbDrain
deriving DecidableEq, Repr

/-- One item of an expansion: an operation, or `SVC`, which is chosen when its turn comes (R98). -/
inductive PseudoItem where
  | op (i : Instr)
  | svc
deriving DecidableEq, Repr

/-- One iteration of the polling loop: the poll of one channel and the service it selected, then those of the other, in the
order of `POLL_ORDER` (R173). -/
def iterationOf : PollOrder → List PseudoItem
  | .captureFirst => [.op .pollCap, .svc, .op .pollPb, .svc]
  | .playbackFirst => [.op .pollPb, .svc, .op .pollCap, .svc]

/-- The expansion of a pseudo-operation (R98). -/
def expand (c : Config) : Pseudo → List PseudoItem
  | .evCap h => [.op (entryInstr .cap h)]
  | .evPb h => [.op (entryInstr .pb h)]
  | .svc => [.svc]
  | .pollIter => iterationOf .captureFirst
  | .capFill _ ws => ws.map fun w => .op (.capDma w)
  | .pbDrain => List.replicate c.pbHalf (.op .pbDma)

/-- Where a pseudo-operation is meaningful (R98): `POLL.ITER` for `CaptureFirst` in `PhCap`, `CAP.FILL h` with Hc elements
and the capture engine at the start of half `h`. -/
def meaningful (s : State) : Pseudo → Bool
  | .evCap _ => true
  | .evPb _ => true
  | .svc => true
  | .pollIter => decide (s.cfg.pollOrder = .captureFirst) && decide (s.phase = .phCap)
  | .capFill h ws => decide (ws.length = s.cfg.capHalf) && decide (s.cap.pos = h.index * s.cfg.capHalf)
  | .pbDrain => true

/-- The operation an item stands for in state `s`; `SVC` with no job in hand stands for none (R98). -/
def PseudoItem.instr (s : State) : PseudoItem → Option Instr
  | .op i => some i
  | .svc => serviceOf s.job

/-- The items of an expansion executed in order. -/
def runItems : List PseudoItem → State → Host.Outcome State Fault Refusal
  | [], s => .next s
  | item :: rest, s =>
    match item.instr s with
    | none => runItems rest s
    | some i =>
      match exec i s with
      | .next t => runItems rest t
      | .fault r => .fault r
      | .refused r => .refused r

/-- A pseudo-operation executed. -/
def execPseudo (p : Pseudo) (s : State) : Host.Outcome State Fault Refusal := runItems (expand s.cfg p) s

end Sys2Proof.Machine
end

