-- ==== Sys2Proof/Safety.lean ====
section
/-!
DEFINITION. What counts as a safe run, in the terms the statements use: the invariants of every reachable state, the
premise that no obligation of `70_reset_and_hazards.md` was broken, and executions with weak fairness.
-/
namespace Sys2Proof.Machine

/-- What holds in every reachable state (R23, R24, R40, R45, R63): the parameters are legal, the memories are in canonical
form with every listed element inside its memory, the cursors and positions are indices, the write cursor is where the count
says, and a block that is not running has its channels, buffers, scheduler and counters as reset left them. -/
structure BlockInv (s : State) : Prop where
  legal : configLegal s.cfg = true
  fifoMemWf : s.fifo.mem.wf
  capBufWf : s.capBuf.wf
  pbBufWf : s.pbBuf.wf
  fifoMemInside : ∀ i, s.fifo.mem.lookup i ≠ none → i < s.cfg.fifoCap
  capBufInside : ∀ i v, s.capBuf.lookup i = some v → i < 2 * s.cfg.capHalf ∧ v.toNat < 2 ^ s.cfg.rawW
  pbBufInside : ∀ i, s.pbBuf.lookup i ≠ none → i < 2 * s.cfg.pbHalf
  wrInside : s.fifo.wr.toNat < s.cfg.fifoCap
  rdInside : s.fifo.rd.toNat < s.cfg.fifoCap
  countInside : s.fifo.count.toNat ≤ s.cfg.fifoCap
  cursorsAgree : s.fifo.wr.toNat = (s.fifo.rd.toNat + s.fifo.count.toNat) % s.cfg.fifoCap
  capPosInside : s.cap.pos < 2 * s.cfg.capHalf
  pbPosInside : s.pb.pos < 2 * s.cfg.pbHalf
  atRestUnlessRunning : s.sys ≠ .running →
    s.cap = .atReset ∧ s.pb = .atReset ∧ s.capBuf = .unwritten ∧ s.pbBuf = .unwritten ∧ s.job = .none
      ∧ s.phase = firstPhase s.cfg.pollOrder ∧ s.filt = s.cfg.filtInit ∧ s.hook = s.cfg.hookInit
      ∧ s.ovrEvents = 0#32 ∧ s.ovrSamples = 0#32 ∧ s.undEvents = 0#32

/-- Every element of the FIFO's logical content has been written since reset (R66 a): it is listed. (That it was written since the
cursors were last zeroed, R20, is the order of the logical content, R115: `F_init` empties it and only a write adds to it.) -/
def FifoContentWritten (s : State) : Prop :=
  ∀ i < s.fifo.count.toNat, s.fifo.mem.lookup ((s.fifo.rd.toNat + i) % s.cfg.fifoCap) ≠ none

/-- Every element of an outstanding capture half has been written by the engine since reset (R66 b, R70), and so has every
element below the engine's position. -/
def OutstandingHalvesFilled (s : State) : Prop :=
  (∀ i < s.cap.pos, s.capBuf.lookup i ≠ none) ∧
  ∀ h, s.outstanding .cap h = true → ∀ i < s.cfg.capHalf, s.capBuf.lookup (h.index * s.cfg.capHalf + i) ≠ none

/-- While no race was recorded on a channel, its engine is never inside a half that belongs to the scheduler (R68, R246), and
each event of a half is in one place only: its latch, the flag or the job (R47). -/
def HalvesOwnedApart (s : State) (ch : Chan) (H : Nat) : Prop :=
  (s.chan ch).race = false → ∀ h,
    (s.outstanding ch h = true → ¬ (h.index * H < (s.chan ch).pos ∧ (s.chan ch).pos < (h.index + 1) * H)) ∧
    ¬ ((s.chan ch).pend h = true ∧ (s.chan ch).flag = ready h) ∧
    ¬ ((s.chan ch).pend h = true ∧ s.job = jobOf ch h) ∧
    ¬ ((s.chan ch).flag = ready h ∧ s.job = jobOf ch h)

/-- Before the first `SYS.RESET` after power-up, the first Hp slots of the output are `PB_BUF_INIT` (R186, R243): until Hp
slots have been sent, no playback event was raised and no slot was refilled. -/
def StartupTransient (s : State) : Prop :=
  s.epoch = 0 →
    (∀ i < min s.txTrace.length s.cfg.pbHalf, s.txTrace[i]? = some (Config.freePbBuf 0 i)) ∧
    (s.txTrace.length < s.cfg.pbHalf →
      s.pb.pos = s.txTrace.length ∧ s.pbBuf = .unwritten ∧ ∀ h, s.outstanding .pb h = false)

/-- `F_write` applied to the samples in turn, stopping at the first `Full`: how many were `Ok`, and the FIFO after (R117). -/
def writeEach (cap : Nat) : List Sample → Fifo → Nat × Fifo
  | [], f => (0, f)
  | x :: xs, f =>
    match f.write cap x with
    | none => (0, f)
    | some f' => ((writeEach cap xs f').1 + 1, (writeEach cap xs f').2)

/-- `F_read` applied until the first `Empty` or until `n` results: the samples in order, and the FIFO after (R117). -/
def readEach (cap : Nat) (fill : Nat → Sample) : Nat → Fifo → List Sample × Fifo
  | 0, f => ([], f)
  | n + 1, f =>
    match f.read cap fill with
    | none => ([], f)
    | some (v, f') => (v :: (readEach cap fill n f').1, (readEach cap fill n f').2)

/-- `hz_* = 0`: no obligation of `70_reset_and_hazards.md` was broken (R35, R256). -/
def hazardFree (s : State) : Bool := !s.cap.lost && !s.pb.lost && !s.cap.race && !s.pb.race

/-- An execution: the commands `c 0`, `c 1`, … issued in this order from `r 0`, one each step (R69). -/
def IsExecution (c : Nat → Command) (r : Nat → State) : Prop :=
  ∀ n, step { r n with schedule := [c n] } = .next (r (n + 1))

/-- The agent that executes an enabled operation when the command `c` is issued in state `s`, if `c` is one. -/
def steppingAgent (c : Command) (s : State) : Option Agent :=
  match decode s.cfg.rawW c.word with
  | .ok i => if enabled i { s with din := s.din ++ c.data } then some (agentOf i) else none
  | .error _ => none

/-- Some operation of agent `a` is enabled. -/
def hasEnabledOp (a : Agent) (s : State) : Prop := ∃ i, agentOf i = a ∧ i.wellFormed s.cfg.rawW = true ∧ enabled i s = true

/-- Weak fairness (R254), the only assumption about progress a statement may make: an agent with an operation enabled from
some step on steps again and again. -/
def WeaklyFair (c : Nat → Command) (r : Nat → State) : Prop :=
  ∀ a n, (∀ m, n ≤ m → hasEnabledOp a (r m)) → ∃ m, n ≤ m ∧ steppingAgent (c m) (r m) = some a

end Sys2Proof.Machine
end

