-- ==== Sys2Proof/Certificates/Slice0/Obligations.lean ====
section
/-!
DEFINITION. The statements for the provers. Each says which rules it formalises.
-/

open Sys2Proof Sys2Proof.Machine

/-! ## The command word (30_encoding.md) -/

/-- A few command words of R92, one or more of each unit, decode to the operations they stand for. -/
def Obligations.TableWordsDecodeToTheirOperations : Prop :=
  decode 16 0x01000000#32 = .ok .sysReset ∧ decode 16 0x02000001#32 = .ok (.sysStart true) ∧
  decode 16 0x0300000F#32 = .ok (.sysRdstat 15#16) ∧ decode 16 0x1100FFFF#32 = .ok (.fifoWrite 0xFFFF#16) ∧
  decode 16 0x14000005#32 = .ok (.fifoRdblk 5#16) ∧ decode 16 0x2000FFFF#32 = .ok (.capDma 0xFFFF#16) ∧
  decode 8 0x200000FF#32 = .ok (.capDma 0xFF#16) ∧ decode 8 0x20000100#32 = .error .rawTooWide ∧
  decode 16 0x34000000#32 = .ok .svcPb1 ∧ decode 16 0x41000000#32 = .ok .pollPb

/-- Decode and encode agree: every well-formed operation's word decodes to it, at every element width (R90 to R93). -/
def Obligations.EncodedOperationsDecodeBack : Prop :=
  ∀ (rawW : Nat) (i : Instr), i.wellFormed rawW = true → decode rawW (encode i) = .ok i

/-- Every legal word is the word of the operation it decodes to, which is well formed: no bit of a word is dropped. -/
def Obligations.LegalWordsEncodeBack : Prop :=
  ∀ (rawW : Nat) (w : CmdWord) (i : Instr), decode rawW w = .ok i → encode i = w ∧ i.wellFormed rawW = true

/-- The illegal words are exactly those R94 lists, and an illegal word changes no state and returns `(IllegalCommand, 0)`. -/
def Obligations.IllegalWordsAreThoseListed : Prop :=
  ∀ (s : State) (w : CmdWord), configLegal s.cfg = true →
    let unit := w.toNat / 2 ^ 28
    let fn := w.toNat / 2 ^ 24 % 16
    let rsv := w.toNat / 2 ^ 16 % 256
    let imm := w.toNat % 2 ^ 16
    let formatN := (unit = 0 ∧ fn = 1) ∨ (unit = 1 ∧ (fn = 0 ∨ fn = 2)) ∨ (unit = 2 ∧ 1 ≤ fn ∧ fn ≤ 4) ∨
      (unit = 3 ∧ fn ≤ 4) ∨ (unit = 4 ∧ fn ≤ 1)
    let illegal := 5 ≤ unit ∨ (unit = 0 ∧ (fn = 0 ∨ 4 ≤ fn)) ∨ (unit = 1 ∧ 5 ≤ fn) ∨ (unit = 2 ∧ 5 ≤ fn) ∨
      (unit = 3 ∧ 5 ≤ fn) ∨ (unit = 4 ∧ 2 ≤ fn) ∨ rsv ≠ 0 ∨ (formatN ∧ imm ≠ 0) ∨ (unit = 0 ∧ fn = 2 ∧ imm / 2 ≠ 0) ∨
      (unit = 2 ∧ fn = 0 ∧ imm / 2 ^ s.cfg.rawW ≠ 0) ∨ (unit = 0 ∧ fn = 3 ∧ 16 ≤ imm)
    ((∃ e, decode s.cfg.rawW w = .error e) ↔ illegal) ∧
    (illegal → execWord w s = .next { s with result := ⟨.illegalCommand, 0#32⟩ })

/-! ## The step (R69, R95, R206 to R208) -/

/-- A step runs the decoded operation: the next command is taken off the schedule, its samples go to the tail of `din`, and the
operation its word decodes to is executed (log 7); a word placed by `withFetchWord` is the next command. With an empty schedule
the drawn command is issued like a scheduled one (log 7). -/
def Obligations.StepRunsTheDecodedOperation : Prop :=
  (∀ (s : State) (c : Command) (rest : List Command) (i : Instr), s.schedule = c :: rest → decode s.cfg.rawW c.word = .ok i →
    step s = exec i { s with schedule := rest, din := s.din ++ c.data }) ∧
  (∀ (s : State) (nbits w : Nat) (i : Instr), decode s.cfg.rawW (BitVec.ofNat 32 (w % 2 ^ nbits)) = .ok i →
    step (s.withFetchWord nbits w) = exec i s) ∧
  (∀ s : State, s.schedule = [] →
    step s = step { s with drawn := s.drawn + 1, schedule := [⟨Config.freeWord s.drawn, Config.freeData s.drawn⟩] })

/-- A step whose command word is illegal changes no state of the block: it returns `(IllegalCommand, 0)` (R207). The command leaves
the schedule and its samples go to `din` all the same (log 7). -/
def Obligations.StepAnswersAnIllegalWord : Prop :=
  ∀ (s : State) (c : Command) (rest : List Command) (e : DecodeError), configLegal s.cfg = true → s.schedule = c :: rest →
    decode s.cfg.rawW c.word = .error e →
    step s = .next { s with schedule := rest, din := s.din ++ c.data, result := ⟨.illegalCommand, 0#32⟩ }

/-- An operation whose enable condition in the table of R95 does not hold changes no state and returns `(NotEnabled, 0)` (R206);
an operand with no legal encoding is decided before that (the model's choice, log 14). -/
def Obligations.NotEnabledChangesNothing : Prop :=
  ∀ (s : State) (i : Instr), configLegal s.cfg = true →
    (i.wellFormed s.cfg.rawW = true → enabled i s = false → exec i s = .next { s with result := ⟨.notEnabled, 0#32⟩ }) ∧
    (i.wellFormed s.cfg.rawW = false → exec i s = .next { s with result := ⟨.illegalCommand, 0#32⟩ })

/-- Each enabled operation completes, with `Ok` or with the one other code R200 lists for it, and that code's value. -/
def Obligations.ResultCodesAreThoseListed : Prop :=
  ∀ (s : State) (i : Instr), BlockInv s → i.wellFormed s.cfg.rawW = true → enabled i s = true →
    ∃ t, exec i s = .next t ∧
      (t.result.code = .ok ∨
       (t.result.code = .full ∧ (∃ v, i = .fifoWrite v) ∧ t.result.val = 0#32) ∨
       (t.result.code = .empty ∧ i = .fifoRead ∧ t.result.val = 0#32) ∨
       (t.result.code = .overrun ∧ (i = .svcCap0 ∨ i = .svcCap1) ∧ 1 ≤ t.result.val.toNat ∧ t.result.val.toNat ≤ s.cfg.capBatch) ∨
       (t.result.code = .underrun ∧ (i = .svcPb0 ∨ i = .svcPb1) ∧ t.result.val.toNat < s.cfg.pbBatch) ∨
       (t.result.code = .initializationFailure ∧ i = .sysStart false ∧ t.result.val = 0#32))

/-! ## System operations (44_system.md) -/

/-- `SYS.RESET` completes in every state and leaves the table of R46, `tx_trace` kept (R185). The memories read as free values of
a new reset (log 3); the parameters (R14) and, the model's choice, the schedule stay (log 6). -/
def Obligations.ResetRestoresTheResetTable : Prop :=
  encode .sysReset = 0x01000000#32 ∧
  ∀ s : State, configLegal s.cfg = true → ∃ t, exec .sysReset s = .next t ∧
    t.fifo.wr = 0#16 ∧ t.fifo.rd = 0#16 ∧ t.fifo.count = 0#16 ∧
    (∀ i, t.fifoAt i = Config.freeFifoMem (s.epoch + 1) i) ∧ (∀ i, t.pbAt i = Config.freePbBuf (s.epoch + 1) i) ∧
    (∀ i, t.capAt i = BitVec.ofNat 16 ((Config.freeCapBuf (s.epoch + 1) i).toNat % 2 ^ s.cfg.rawW)) ∧
    t.cap.flag = .idle ∧ t.pb.flag = .idle ∧ t.cap.pos = 0 ∧ t.pb.pos = 0 ∧
    t.filt = s.cfg.filtInit ∧ t.hook = s.cfg.hookInit ∧
    t.cap.pend0 = false ∧ t.cap.pend1 = false ∧ t.pb.pend0 = false ∧ t.pb.pend1 = false ∧
    t.job = .none ∧ t.phase = (if s.cfg.pollOrder = .captureFirst then .phCap else .phPb) ∧
    t.ovrEvents = 0#32 ∧ t.ovrSamples = 0#32 ∧ t.undEvents = 0#32 ∧
    t.cap.lost = false ∧ t.pb.lost = false ∧ t.cap.race = false ∧ t.pb.race = false ∧
    t.sys = .stopped ∧ t.faultInd = false ∧ t.txTrace = s.txTrace ∧ t.din = [] ∧ t.dout = [] ∧ t.result = ⟨.ok, 0#32⟩ ∧
    t.cfg = s.cfg ∧ t.schedule = s.schedule ∧ t.drawn = s.drawn

/-- Power-up leaves the table of R46 too, with `tx_trace` empty (R240) and the memories reading as the free values of reset number 0
(the model's numbering, log 3); `State.reset` is the power-up of the document's example
(log 1), which is a legal configuration. -/
def Obligations.PowerUpLeavesTheResetTable : Prop :=
  (∀ c : Config, let t := State.powerUp c
    t.cfg = c ∧ t.fifo.wr = 0#16 ∧ t.fifo.rd = 0#16 ∧ t.fifo.count = 0#16 ∧
    (∀ i, t.fifoAt i = Config.freeFifoMem 0 i) ∧ (∀ i, t.pbAt i = Config.freePbBuf 0 i) ∧
    (∀ i, t.capAt i = BitVec.ofNat 16 ((Config.freeCapBuf 0 i).toNat % 2 ^ c.rawW)) ∧
    t.cap.flag = .idle ∧ t.pb.flag = .idle ∧ t.cap.pos = 0 ∧ t.pb.pos = 0 ∧ t.filt = c.filtInit ∧ t.hook = c.hookInit ∧
    (∀ h, t.cap.pend h = false ∧ t.pb.pend h = false) ∧ t.job = .none ∧
    t.phase = (if c.pollOrder = .captureFirst then .phCap else .phPb) ∧
    t.ovrEvents = 0#32 ∧ t.ovrSamples = 0#32 ∧ t.undEvents = 0#32 ∧ hazardFree t = true ∧
    t.sys = .stopped ∧ t.faultInd = false ∧ t.txTrace = [] ∧ t.din = [] ∧ t.dout = []) ∧
  State.reset = State.powerUp Config.documentExample ∧ configLegal Config.documentExample = true

/-- `SYS.START ok` (R186): while `Stopped` it starts the block or, when bring-up failed, halts it with `fault_ind` 1 and
`(InitializationFailure, 0)`; it writes nothing else; in any other state it is not enabled. -/
def Obligations.StartRunsOrHaltsTheBlock : Prop :=
  ∀ s : State, configLegal s.cfg = true →
    encode (.sysStart false) = 0x02000000#32 ∧ encode (.sysStart true) = 0x02000001#32 ∧
    (s.sys = .stopped → exec (.sysStart true) s = .next { s with sys := .running, result := ⟨.ok, 0#32⟩ }) ∧
    (s.sys = .stopped → ∃ t, exec (.sysStart false) s = .next t ∧ t.faultInd = true ∧
      t = { s with sys := .halted, result := ⟨.initializationFailure, 0#32⟩ }) ∧
    (s.sys ≠ .stopped → ∀ ok, exec (.sysStart ok) s = .next { s with result := ⟨.notEnabled, 0#32⟩ })

/-- `SYS.RDSTAT r` (R187, R42): in every state it returns the value of register `r` and changes nothing. A term with a register
number of 16 or more, which no legal word carries, is answered `(IllegalCommand, 0)` when executed directly: the model's choice, log 14. -/
def Obligations.StatusReadReturnsTheRegister : Prop :=
  ∀ (s : State) (r : Imm), configLegal s.cfg = true →
    encode (.sysRdstat r) = 0x03000000#32 + r.setWidth 32 ∧
    (r.toNat < 16 → exec (.sysRdstat r) s = .next { s with result := ⟨.ok, statusReg s r.toNat⟩ }) ∧
    (16 ≤ r.toNat → exec (.sysRdstat r) s = .next { s with result := ⟨.illegalCommand, 0#32⟩ })

/-- The register map (R41), field by field; the bits above a register's fields read 0. -/
def Obligations.StatusRegistersShowTheMap : Prop :=
  ∀ s : State, configLegal s.cfg = true →
    (statusReg s 0).toNat = (match s.sys with | .stopped => 0 | .running => 1 | .halted => 6) ∧
    (statusReg s 1).toNat = (match s.cap.flag with | .idle => 0 | .firstHalfReady => 1 | .secondHalfReady => 2) ∧
    (statusReg s 2).toNat = (match s.pb.flag with | .idle => 0 | .firstHalfReady => 1 | .secondHalfReady => 2) ∧
    ((statusReg s 3).getLsbD 0 = s.cap.pend0 ∧ (statusReg s 3).getLsbD 1 = s.cap.pend1 ∧
      (statusReg s 3).getLsbD 2 = s.pb.pend0 ∧ (statusReg s 3).getLsbD 3 = s.pb.pend1 ∧ (statusReg s 3).toNat < 16) ∧
    (statusReg s 4).toNat = s.fifo.count.toNat ∧ (statusReg s 5).toNat = s.fifo.wr.toNat ∧
    (statusReg s 6).toNat = s.fifo.rd.toNat ∧ (statusReg s 7).toNat = s.cfg.fifoCap ∧
    statusReg s 8 = s.ovrEvents ∧ statusReg s 9 = s.ovrSamples ∧ statusReg s 10 = s.undEvents ∧
    ((statusReg s 11).getLsbD 0 = s.cap.lost ∧ (statusReg s 11).getLsbD 1 = s.pb.lost ∧
      (statusReg s 11).getLsbD 2 = s.cap.race ∧ (statusReg s 11).getLsbD 3 = s.pb.race ∧ (statusReg s 11).toNat < 16) ∧
    ((statusReg s 12).toNat % 8 = (match s.job with | .none => 0 | .cap0 => 1 | .cap1 => 2 | .pb0 => 3 | .pb1 => 4) ∧
      (statusReg s 12).toNat / 8 = (match s.phase with | .phCap => 0 | .phPb => 1)) ∧
    (s.cap.pos < 2 ^ 32 → (statusReg s 13).toNat = s.cap.pos) ∧ (s.pb.pos < 2 ^ 32 → (statusReg s 14).toNat = s.pb.pos) ∧
    ((statusReg s 15).toNat % 2 = (match s.cfg.onUnderrun with | .repeatLast => 0 | .silence => 1) ∧
      (statusReg s 15).toNat / 2 = (match s.cfg.pollOrder with | .captureFirst => 0 | .playbackFirst => 1))

/-- `Halted` is terminal but for reset (R188): every operation but `SYS.RESET` leaves the block halted with `fault_ind` 1 and
changes nothing but the result; only `SYS.RDSTAT` and `SYS.RESET` have a step. -/
def Obligations.HaltedIsLeftOnlyByReset : Prop :=
  ∀ (s t : State) (i : Instr), s.sys = .halted → exec i s = .next t → i ≠ .sysReset →
    t = { s with result := t.result } ∧ t.sys = .halted ∧ t.faultInd = true ∧ t.txTrace = s.txTrace ∧
    ((∀ r, i ≠ .sysRdstat r) → t.result.code = .notEnabled ∨ t.result.code = .illegalCommand)

/-! ## RingFifo operations (40_ringfifo.md) -/

/-- `FIFO.INIT` (R110): the cursors and the count become 0, no element is written. -/
def Obligations.FifoInitEmptiesTheFifo : Prop :=
  ∀ s : State, configLegal s.cfg = true → encode .fifoInit = 0x10000000#32 ∧
    (s.sys = .stopped → ∃ t, exec .fifoInit s = .next t ∧
      t.fifo.wr = 0#16 ∧ t.fifo.rd = 0#16 ∧ t.fifo.count = 0#16 ∧ (∀ i, t.fifoAt i = s.fifoAt i) ∧
      t = { s with fifo := t.fifo, result := ⟨.ok, 0#32⟩ }) ∧
    (s.sys ≠ .stopped → exec .fifoInit s = .next { s with result := ⟨.notEnabled, 0#32⟩ })

/-- `FIFO.WRITE v` (R111, R201): with room, the sample is stored at the write cursor, which moves on modulo C, and nothing else
is; full, `(Full, 0)` and the FIFO is left exactly as it was. -/
def Obligations.FifoWriteAppendsOrReportsFull : Prop :=
  ∀ (s : State) (v : Sample), configLegal s.cfg = true → encode (.fifoWrite v) = 0x11000000#32 + v.setWidth 32 ∧
    (s.sys = .stopped → s.fifo.count.toNat < s.cfg.fifoCap → s.fifo.wr.toNat < s.cfg.fifoCap →
      ∃ t, exec (.fifoWrite v) s = .next t ∧
        t.fifo.wr.toNat = (s.fifo.wr.toNat + 1) % s.cfg.fifoCap ∧ t.fifo.rd = s.fifo.rd ∧
        t.fifo.count.toNat = s.fifo.count.toNat + 1 ∧
        (∀ i, t.fifoAt i = if i = s.fifo.wr.toNat then v else s.fifoAt i) ∧
        t = { s with fifo := t.fifo, result := ⟨.ok, 0#32⟩ }) ∧
    (s.sys = .stopped → s.fifo.count.toNat = s.cfg.fifoCap →
      exec (.fifoWrite v) s = .next { s with result := ⟨.full, 0#32⟩ }) ∧
    (s.sys ≠ .stopped → exec (.fifoWrite v) s = .next { s with result := ⟨.notEnabled, 0#32⟩ })

/-- `FIFO.READ` (R112, R202): the sample at the read cursor is returned zero-extended, the cursor moves on modulo C, no element is
written; empty, `(Empty, 0)` and nothing changes. -/
def Obligations.FifoReadRemovesTheOldestOrReportsEmpty : Prop :=
  ∀ s : State, configLegal s.cfg = true → encode .fifoRead = 0x12000000#32 ∧
    (s.sys = .stopped → 0 < s.fifo.count.toNat → s.fifo.rd.toNat < s.cfg.fifoCap →
      ∃ t, exec .fifoRead s = .next t ∧
        t.fifo.rd.toNat = (s.fifo.rd.toNat + 1) % s.cfg.fifoCap ∧ t.fifo.wr = s.fifo.wr ∧
        t.fifo.count.toNat = s.fifo.count.toNat - 1 ∧ (∀ i, t.fifoAt i = s.fifoAt i) ∧
        t = { s with fifo := t.fifo, result := ⟨.ok, (s.fifoAt s.fifo.rd.toNat).setWidth 32⟩ }) ∧
    (s.sys = .stopped → s.fifo.count.toNat = 0 → exec .fifoRead s = .next { s with result := ⟨.empty, 0#32⟩ }) ∧
    (s.sys ≠ .stopped → exec .fifoRead s = .next { s with result := ⟨.notEnabled, 0#32⟩ })

/-- `FIFO.WRBLK n` (R113): it returns exactly `min(n, C - c)` and stores that many samples, the first of `din`, in order at the
slots from the write cursor on modulo C; all `n` leave `din`; every other element is as before. -/
def Obligations.FifoBlockWriteStoresWhatFits : Prop :=
  ∀ (s : State) (n : Imm), configLegal s.cfg = true → encode (.fifoWrblk n) = 0x13000000#32 + n.setWidth 32 ∧
    (s.sys = .stopped → n.toNat ≤ s.din.length → s.fifo.count.toNat ≤ s.cfg.fifoCap →
      ∃ t w, w = min n.toNat (s.cfg.fifoCap - s.fifo.count.toNat) ∧ exec (.fifoWrblk n) s = .next t ∧
        t.fifo.wr.toNat = (s.fifo.wr.toNat + w) % s.cfg.fifoCap ∧ t.fifo.rd = s.fifo.rd ∧
        t.fifo.count.toNat = s.fifo.count.toNat + w ∧
        (∀ i < w, s.din[i]? = some (t.fifoAt ((s.fifo.wr.toNat + i) % s.cfg.fifoCap))) ∧
        (∀ j, (∀ i < w, (s.fifo.wr.toNat + i) % s.cfg.fifoCap ≠ j) → t.fifoAt j = s.fifoAt j) ∧
        t = { s with fifo := t.fifo, din := s.din.drop n.toNat, result := ⟨.ok, BitVec.ofNat 32 w⟩ }) ∧
    (s.sys ≠ .stopped ∨ s.din.length < n.toNat → exec (.fifoWrblk n) s = .next { s with result := ⟨.notEnabled, 0#32⟩ })

/-- `FIFO.RDBLK n` (R114): it returns exactly `min(n, c)` and appends that many samples, the oldest, in order to `dout`; no
element is written. -/
def Obligations.FifoBlockReadTakesWhatIsThere : Prop :=
  ∀ (s : State) (n : Imm), configLegal s.cfg = true → encode (.fifoRdblk n) = 0x14000000#32 + n.setWidth 32 ∧
    (s.sys = .stopped →
      ∃ t r, r = min n.toNat s.fifo.count.toNat ∧ exec (.fifoRdblk n) s = .next t ∧
        t.fifo.rd.toNat = (s.fifo.rd.toNat + r) % s.cfg.fifoCap ∧ t.fifo.wr = s.fifo.wr ∧
        t.fifo.count.toNat = s.fifo.count.toNat - r ∧ (∀ i, t.fifoAt i = s.fifoAt i) ∧
        t.dout = s.dout ++ (List.range r).map (fun i => s.fifoAt ((s.fifo.rd.toNat + i) % s.cfg.fifoCap)) ∧
        t = { s with fifo := t.fifo, dout := t.dout, result := ⟨.ok, BitVec.ofNat 32 r⟩ }) ∧
    (s.sys ≠ .stopped → exec (.fifoRdblk n) s = .next { s with result := ⟨.notEnabled, 0#32⟩ })

/-- The block operations are the single ones iterated (R117): a block write is the single writes in turn up to the first `Full`, a block
read the single reads in turn up to the first `Empty`, with the same count, the same samples and the same state. -/
def Obligations.BlockOperationsAreRepeatedSingleOnes : Prop :=
  ∀ (cap : Nat) (fill : Nat → Sample) (f : Fifo), 1 ≤ cap → cap ≤ 65535 →
    (f.wr.toNat < cap → f.count.toNat ≤ cap → ∀ xs, f.writeBlock cap xs = writeEach cap xs f) ∧
    (f.rd.toNat < cap → ∀ n, f.readBlock cap fill n = readEach cap fill n f)

/-- FIFO order is strict (R115): on the logical content, oldest first, a successful write appends its sample, a successful read
removes and returns the head, a failed operation changes nothing, and `F_init` leaves it empty. -/
def Obligations.FifoOrderIsStrict : Prop :=
  ∀ (cap : Nat) (fill : Nat → Sample) (f : Fifo), 1 ≤ cap → cap ≤ 65535 → f.rd.toNat < cap → f.count.toNat ≤ cap →
    f.wr.toNat = (f.rd.toNat + f.count.toNat) % cap →
    (∀ v, (f.content cap fill).length < cap → ∃ f', f.write cap v = some f' ∧ f'.content cap fill = f.content cap fill ++ [v]) ∧
    (∀ v, (f.content cap fill).length = cap → f.write cap v = none) ∧
    (∀ v l, f.content cap fill = v :: l → ∃ f', f.read cap fill = some (v, f') ∧ f'.content cap fill = l) ∧
    (f.content cap fill = [] → f.read cap fill = none) ∧
    f.init.content cap fill = []

/-! ## CaptureChannel operations (41_capture.md) -/

/-- `CAP.DMA w` (R130): the element is stored at the position and nowhere else, the position moves on and wraps, the step that
completes a half sets its latch and records a loss if it was set, and a step into a half that belongs to the scheduler records a
race. A term with an element wider than `RAW_W`, which no legal word carries, is answered `(IllegalCommand, 0)` when executed
directly: the model's choice, log 14. -/
def Obligations.CaptureDmaStoresAndRaises : Prop :=
  ∀ (s : State) (w : Raw), configLegal s.cfg = true → encode (.capDma w) = 0x20000000#32 + w.setWidth 32 ∧
    (w.toNat < 2 ^ s.cfg.rawW → s.sys = .running → s.cap.pos < 2 * s.cfg.capHalf →
      ∃ t, exec (.capDma w) s = .next t ∧
        (∀ i, t.capAt i = if i = s.cap.pos then w else s.capAt i) ∧
        t.cap.pos = (if s.cap.pos + 1 = 2 * s.cfg.capHalf then 0 else s.cap.pos + 1) ∧ t.cap.flag = s.cap.flag ∧
        t.cap.pend0 = (s.cap.pend0 || decide (s.cap.pos + 1 = s.cfg.capHalf)) ∧
        t.cap.pend1 = (s.cap.pend1 || decide (s.cap.pos + 1 = 2 * s.cfg.capHalf)) ∧
        t.cap.lost = (s.cap.lost || (s.cap.pend0 && decide (s.cap.pos + 1 = s.cfg.capHalf)) ||
          (s.cap.pend1 && decide (s.cap.pos + 1 = 2 * s.cfg.capHalf))) ∧
        t.cap.race = (s.cap.race ||
          if s.cap.pos < s.cfg.capHalf then s.cap.pend0 || s.cap.flag == .firstHalfReady || s.job == .cap0
          else s.cap.pend1 || s.cap.flag == .secondHalfReady || s.job == .cap1) ∧
        t = { s with capBuf := t.capBuf, cap := t.cap, result := ⟨.ok, 0#32⟩ }) ∧
    (w.toNat < 2 ^ s.cfg.rawW → s.sys ≠ .running → exec (.capDma w) s = .next { s with result := ⟨.notEnabled, 0#32⟩ }) ∧
    (2 ^ s.cfg.rawW ≤ w.toNat → exec (.capDma w) s = .next { s with result := ⟨.illegalCommand, 0#32⟩ })

/-- The capture entry points (R131, R132): each clears its latch, sets the flag, records a loss if the flag was not `Idle`, and
touches nothing else. -/
def Obligations.CaptureEventsSetTheFlag : Prop :=
  ∀ s : State, configLegal s.cfg = true →
    encode .evCapHalf = 0x21000000#32 ∧ encode .evCapFull = 0x22000000#32 ∧
    (s.sys = .running → s.cap.pend0 = true → exec .evCapHalf s = .next { s with
      cap := { s.cap with pend0 := false, flag := .firstHalfReady, lost := s.cap.lost || s.cap.flag != .idle },
      result := ⟨.ok, 0#32⟩ }) ∧
    (s.sys = .running → s.cap.pend1 = true → exec .evCapFull s = .next { s with
      cap := { s.cap with pend1 := false, flag := .secondHalfReady, lost := s.cap.lost || s.cap.flag != .idle },
      result := ⟨.ok, 0#32⟩ }) ∧
    (s.sys ≠ .running ∨ s.cap.pend0 = false → exec .evCapHalf s = .next { s with result := ⟨.notEnabled, 0#32⟩ }) ∧
    (s.sys ≠ .running ∨ s.cap.pend1 = false → exec .evCapFull s = .next { s with result := ⟨.notEnabled, 0#32⟩ })

/-- The capture services `SVC.CAP0` and `SVC.CAP1` (R133, R134, R135): the Hc elements of the half go through `Decimate` and `Hook`, the first
`w = min(Nc, C - c)` samples of the batch enter the FIFO in order, the last `Nc - w` are dropped and counted, and the job is
done. -/
def Obligations.CaptureServicesPushTheBatch : Prop :=
  encode (serviceInstr .cap .first) = 0x23000000#32 ∧ encode (serviceInstr .cap .second) = 0x24000000#32 ∧
  ∀ (s : State) (h : Half), configLegal s.cfg = true → s.fifo.count.toNat ≤ s.cfg.fifoCap →
    (s.sys = .running → s.job = jobOf .cap h →
      ∃ t raw batch w,
        raw = (List.range s.cfg.capHalf).map (fun k => s.capAt (h.index * s.cfg.capHalf + k)) ∧
        t.filt = (decimate s.cfg s.filt raw).1 ∧
        t.hook = (hookCall s.cfg s.hook (decimate s.cfg s.filt raw).2).1 ∧
        batch = (hookCall s.cfg s.hook (decimate s.cfg s.filt raw).2).2 ∧ batch.length = s.cfg.capBatch ∧
        w = min s.cfg.capBatch (s.cfg.fifoCap - s.fifo.count.toNat) ∧ exec (serviceInstr .cap h) s = .next t ∧
        t.fifo.wr.toNat = (s.fifo.wr.toNat + w) % s.cfg.fifoCap ∧ t.fifo.rd = s.fifo.rd ∧
        t.fifo.count.toNat = s.fifo.count.toNat + w ∧
        (∀ k < w, batch[k]? = some (t.fifoAt ((s.fifo.wr.toNat + k) % s.cfg.fifoCap))) ∧
        (∀ j, (∀ k < w, (s.fifo.wr.toNat + k) % s.cfg.fifoCap ≠ j) → t.fifoAt j = s.fifoAt j) ∧
        (w < s.cfg.capBatch → t.ovrEvents.toNat = min (s.ovrEvents.toNat + 1) (2 ^ 32 - 1) ∧
          t.ovrSamples.toNat = min (s.ovrSamples.toNat + (s.cfg.capBatch - w)) (2 ^ 32 - 1) ∧
          t.result = ⟨.overrun, BitVec.ofNat 32 (s.cfg.capBatch - w)⟩) ∧
        (w = s.cfg.capBatch → t.ovrEvents = s.ovrEvents ∧ t.ovrSamples = s.ovrSamples ∧
          t.result = ⟨.ok, BitVec.ofNat 32 s.cfg.capBatch⟩) ∧
        t = { s with
          filt := t.filt
          hook := t.hook
          fifo := t.fifo
          job := .none
          ovrEvents := t.ovrEvents
          ovrSamples := t.ovrSamples
          result := t.result }) ∧
    (s.sys ≠ .running ∨ s.job ≠ jobOf .cap h → exec (serviceInstr .cap h) s = .next { s with result := ⟨.notEnabled, 0#32⟩ })

/-! ## PlaybackChannel operations (42_playback.md) -/

/-- `PB.DMA` (R150): the slot at the position is appended to the output and returned, the buffer is not changed, the position moves
on and wraps, the step that completes a half sets its latch and records a loss if it was set, and a step into a half that belongs to
the scheduler records a race. -/
def Obligations.PlaybackDmaTransmitsAndRaises : Prop :=
  ∀ s : State, configLegal s.cfg = true → encode .pbDma = 0x30000000#32 ∧
    (s.sys = .running → s.pb.pos < 2 * s.cfg.pbHalf →
      ∃ t, exec .pbDma s = .next t ∧
        t.txTrace = s.txTrace ++ [s.pbAt s.pb.pos] ∧
        t.pb.pos = (if s.pb.pos + 1 = 2 * s.cfg.pbHalf then 0 else s.pb.pos + 1) ∧ t.pb.flag = s.pb.flag ∧
        t.pb.pend0 = (s.pb.pend0 || decide (s.pb.pos + 1 = s.cfg.pbHalf)) ∧
        t.pb.pend1 = (s.pb.pend1 || decide (s.pb.pos + 1 = 2 * s.cfg.pbHalf)) ∧
        t.pb.lost = (s.pb.lost || (s.pb.pend0 && decide (s.pb.pos + 1 = s.cfg.pbHalf)) ||
          (s.pb.pend1 && decide (s.pb.pos + 1 = 2 * s.cfg.pbHalf))) ∧
        t.pb.race = (s.pb.race ||
          if s.pb.pos < s.cfg.pbHalf then s.pb.pend0 || s.pb.flag == .firstHalfReady || s.job == .pb0
          else s.pb.pend1 || s.pb.flag == .secondHalfReady || s.job == .pb1) ∧
        t = { s with txTrace := t.txTrace, pb := t.pb, result := ⟨.ok, (s.pbAt s.pb.pos).setWidth 32⟩ }) ∧
    (s.sys ≠ .running → exec .pbDma s = .next { s with result := ⟨.notEnabled, 0#32⟩ })

/-- The playback entry points (R151, R152): each clears its latch, sets the flag, records a loss if the flag was not `Idle`, and
touches nothing else. -/
def Obligations.PlaybackEventsSetTheFlag : Prop :=
  ∀ s : State, configLegal s.cfg = true →
    encode .evPbHalf = 0x31000000#32 ∧ encode .evPbFull = 0x32000000#32 ∧
    (s.sys = .running → s.pb.pend0 = true → exec .evPbHalf s = .next { s with
      pb := { s.pb with pend0 := false, flag := .firstHalfReady, lost := s.pb.lost || s.pb.flag != .idle },
      result := ⟨.ok, 0#32⟩ }) ∧
    (s.sys = .running → s.pb.pend1 = true → exec .evPbFull s = .next { s with
      pb := { s.pb with pend1 := false, flag := .secondHalfReady, lost := s.pb.lost || s.pb.flag != .idle },
      result := ⟨.ok, 0#32⟩ }) ∧
    (s.sys ≠ .running ∨ s.pb.pend0 = false → exec .evPbHalf s = .next { s with result := ⟨.notEnabled, 0#32⟩ }) ∧
    (s.sys ≠ .running ∨ s.pb.pend1 = false → exec .evPbFull s = .next { s with result := ⟨.notEnabled, 0#32⟩ })

/-- The playback services `SVC.PB0` and `SVC.PB1` (R153 to R155). With a whole batch in the FIFO exactly Np samples are popped, the k-th of them is in every
slot `h*Hp + k*S + o` of its group, and no other slot is written (R156). With fewer, the FIFO is not touched, the underrun is counted and
reported with the number of samples there were, and the half is left as it was, or zeroed whole under `silence`. -/
def Obligations.PlaybackServicesRefillOrReportUnderrun : Prop :=
  encode (serviceInstr .pb .first) = 0x33000000#32 ∧ encode (serviceInstr .pb .second) = 0x34000000#32 ∧
  ∀ (s : State) (h : Half), configLegal s.cfg = true →
    (s.sys = .running → s.job = jobOf .pb h → s.cfg.pbBatch ≤ s.fifo.count.toNat → s.fifo.rd.toNat < s.cfg.fifoCap →
      ∃ t, exec (serviceInstr .pb h) s = .next t ∧
        t.fifo.rd.toNat = (s.fifo.rd.toNat + s.cfg.pbBatch) % s.cfg.fifoCap ∧ t.fifo.wr = s.fifo.wr ∧
        t.fifo.count.toNat = s.fifo.count.toNat - s.cfg.pbBatch ∧ (∀ j, t.fifoAt j = s.fifoAt j) ∧
        (∀ k < s.cfg.pbBatch, ∀ o ∈ s.cfg.pbOffsets,
          t.pbAt (h.index * s.cfg.pbHalf + k * s.cfg.pbStride + o) = s.fifoAt ((s.fifo.rd.toNat + k) % s.cfg.fifoCap)) ∧
        (∀ j, (∀ k < s.cfg.pbBatch, ∀ o ∈ s.cfg.pbOffsets, j ≠ h.index * s.cfg.pbHalf + k * s.cfg.pbStride + o) → t.pbAt j = s.pbAt j) ∧
        t = { s with fifo := t.fifo, pbBuf := t.pbBuf, job := .none, result := ⟨.ok, BitVec.ofNat 32 s.cfg.pbBatch⟩ }) ∧
    (s.sys = .running → s.job = jobOf .pb h → s.fifo.count.toNat < s.cfg.pbBatch →
      ∃ t, exec (serviceInstr .pb h) s = .next t ∧ t.undEvents.toNat = min (s.undEvents.toNat + 1) (2 ^ 32 - 1) ∧
        (s.cfg.onUnderrun = .repeatLast → t.pbBuf = s.pbBuf) ∧
        (s.cfg.onUnderrun = .silence → ∀ j,
          t.pbAt j = if h.index * s.cfg.pbHalf ≤ j ∧ j < (h.index + 1) * s.cfg.pbHalf then 0#16 else s.pbAt j) ∧
        t = { s with
          undEvents := t.undEvents
          pbBuf := t.pbBuf
          job := .none
          result := ⟨.underrun, s.fifo.count.setWidth 32⟩ }) ∧
    (s.sys ≠ .running ∨ s.job ≠ jobOf .pb h → exec (serviceInstr .pb h) s = .next { s with result := ⟨.notEnabled, 0#32⟩ })

/-! ## PipelineScheduler operations (43_scheduler.md) -/

/-- `POLL.CAP` (R170): the flag is returned and cleared in one step, what it said becomes the job, and the other channel is polled
next. -/
def Obligations.CapturePollTakesTheFlag : Prop :=
  ∀ s : State, configLegal s.cfg = true → encode .pollCap = 0x40000000#32 ∧
    (s.sys = .running → s.job = .none → s.phase = .phCap → exec .pollCap s = .next { s with
      cap := { s.cap with flag := .idle },
      job := (match s.cap.flag with | .idle => .none | .firstHalfReady => .cap0 | .secondHalfReady => .cap1),
      phase := .phPb,
      result := ⟨.ok, (match s.cap.flag with | .idle => 0#32 | .firstHalfReady => 1#32 | .secondHalfReady => 2#32)⟩ }) ∧
    (s.sys ≠ .running ∨ s.job ≠ .none ∨ s.phase ≠ .phCap →
      exec .pollCap s = .next { s with result := ⟨.notEnabled, 0#32⟩ })

/-- `POLL.PB` (R171): likewise for the playback flag. -/
def Obligations.PlaybackPollTakesTheFlag : Prop :=
  ∀ s : State, configLegal s.cfg = true → encode .pollPb = 0x41000000#32 ∧
    (s.sys = .running → s.job = .none → s.phase = .phPb → exec .pollPb s = .next { s with
      pb := { s.pb with flag := .idle },
      job := (match s.pb.flag with | .idle => .none | .firstHalfReady => .pb0 | .secondHalfReady => .pb1),
      phase := .phCap,
      result := ⟨.ok, (match s.pb.flag with | .idle => 0#32 | .firstHalfReady => 1#32 | .secondHalfReady => 2#32)⟩ }) ∧
    (s.sys ≠ .running ∨ s.job ≠ .none ∨ s.phase ≠ .phPb →
      exec .pollPb s = .next { s with result := ⟨.notEnabled, 0#32⟩ })

/-- While the block runs, the scheduler has exactly one enabled operation, the one R172 gives from the job and the phase. -/
def Obligations.SchedulerHasOneOperation : Prop :=
  ∀ s : State, s.sys = .running →
    (∀ i, (agentOf i = .scheduler ∧ enabled i s = true) ↔ i = schedulerOp s.job s.phase) ∧
    schedulerOp .cap0 s.phase = .svcCap0 ∧ schedulerOp .cap1 s.phase = .svcCap1 ∧ schedulerOp .pb0 s.phase = .svcPb0 ∧
    schedulerOp .pb1 s.phase = .svcPb1 ∧ schedulerOp .none .phCap = .pollCap ∧ schedulerOp .none .phPb = .pollPb

/-- One iteration of the polling loop (R173, R98) processes every set flag once: it is the capture poll, the service of the half the
capture flag said, if any, then the same for playback; it completes, both flags are `Idle` after it, no job is left, and the next
iteration begins with the capture poll; no latch, no position and no hazard bit changes. This is the iteration that begins in `PhCap`;
`PlaybackFirstIterationServesEverySetFlag` is the other. -/
def Obligations.IterationServesEverySetFlag : Prop :=
  ∀ s : State, BlockInv s → s.sys = .running → s.job = .none → s.phase = .phCap →
    ∃ u t, execPseudo .pollIter s = .next t ∧
      (s.cap.flag = .idle → exec .pollCap s = .next u) ∧
      (∀ h, s.cap.flag = ready h → ∃ p, exec .pollCap s = .next p ∧ exec (serviceInstr .cap h) p = .next u) ∧
      (s.pb.flag = .idle → exec .pollPb u = .next t) ∧
      (∀ h, s.pb.flag = ready h → ∃ p, exec .pollPb u = .next p ∧ exec (serviceInstr .pb h) p = .next t) ∧
      t.sys = .running ∧ t.job = .none ∧ t.phase = .phCap ∧
      t.cap = { s.cap with flag := .idle } ∧ t.pb = { s.pb with flag := .idle } ∧ t.capBuf = s.capBuf ∧ t.txTrace = s.txTrace ∧
      (s.cap.flag = .idle → t.filt = s.filt ∧ t.hook = s.hook ∧ t.fifo.wr = s.fifo.wr ∧ t.ovrEvents = s.ovrEvents ∧
        t.ovrSamples = s.ovrSamples) ∧
      (s.pb.flag = .idle → t.pbBuf = s.pbBuf ∧ t.fifo.rd = s.fifo.rd ∧ t.undEvents = s.undEvents)

/-- One iteration for `POLL_ORDER = PlaybackFirst` (R173), which begins in `PhPb` with the two pairs exchanged: the playback poll, the
service of the half the playback flag said, if any, then the same for capture; what it leaves is as for the other order, and the next
iteration begins with the playback poll. -/
def Obligations.PlaybackFirstIterationServesEverySetFlag : Prop :=
  ∀ s : State, BlockInv s → s.sys = .running → s.job = .none → s.phase = .phPb →
    ∃ u t, runItems (iterationOf .playbackFirst) s = .next t ∧
      (s.pb.flag = .idle → exec .pollPb s = .next u) ∧
      (∀ h, s.pb.flag = ready h → ∃ p, exec .pollPb s = .next p ∧ exec (serviceInstr .pb h) p = .next u) ∧
      (s.cap.flag = .idle → exec .pollCap u = .next t) ∧
      (∀ h, s.cap.flag = ready h → ∃ p, exec .pollCap u = .next p ∧ exec (serviceInstr .cap h) p = .next t) ∧
      t.sys = .running ∧ t.job = .none ∧ t.phase = .phPb ∧
      t.cap = { s.cap with flag := .idle } ∧ t.pb = { s.pb with flag := .idle } ∧ t.capBuf = s.capBuf ∧ t.txTrace = s.txTrace ∧
      (s.cap.flag = .idle → t.filt = s.filt ∧ t.hook = s.hook ∧ t.fifo.wr = s.fifo.wr ∧ t.ovrEvents = s.ovrEvents ∧
        t.ovrSamples = s.ovrSamples) ∧
      (s.pb.flag = .idle → t.pbBuf = s.pbBuf ∧ t.fifo.rd = s.fifo.rd ∧ t.undEvents = s.undEvents)

/-- `CAP.FILL h` (R98, R130, R70): Hc elements fed to the engine at the start of a half fill it in order, leave the rest of the buffer
alone, and raise the half's event. -/
def Obligations.FillStoresTheHalfInOrder : Prop :=
  ∀ (s : State) (h : Half) (ws : List Raw), BlockInv s → s.sys = .running → meaningful s (.capFill h ws) = true →
    (∀ w ∈ ws, w.toNat < 2 ^ s.cfg.rawW) →
    ∃ t, execPseudo (.capFill h ws) s = .next t ∧
      (∀ i < s.cfg.capHalf, ws[i]? = some (t.capAt (h.index * s.cfg.capHalf + i))) ∧
      (∀ j, (j < h.index * s.cfg.capHalf ∨ (h.index + 1) * s.cfg.capHalf ≤ j) → t.capAt j = s.capAt j) ∧
      t.cap = { s.cap.setPend h true with
        pos := ((h.index + 1) * s.cfg.capHalf) % (2 * s.cfg.capHalf)
        lost := t.cap.lost
        race := t.cap.race } ∧
      t = { s with capBuf := t.capBuf, cap := t.cap, result := t.result }

/-- `PB.DRAIN` (R98, R150): from the start of half `h`, Hp steps of the playback engine transmit that half in slot order, raise its event
and leave the engine at the start of the other half; nothing else changes but hazard bits and the result. -/
def Obligations.DrainTransmitsTheHalfInOrder : Prop :=
  ∀ (s : State) (h : Half), BlockInv s → s.sys = .running → s.pb.pos = h.index * s.cfg.pbHalf →
    ∃ t, execPseudo .pbDrain s = .next t ∧
      t.txTrace = s.txTrace ++ (List.range s.cfg.pbHalf).map (fun i => s.pbAt (h.index * s.cfg.pbHalf + i)) ∧
      t.pb = { s.pb.setPend h true with
        pos := ((h.index + 1) * s.cfg.pbHalf) % (2 * s.cfg.pbHalf)
        lost := t.pb.lost
        race := t.pb.race } ∧
      t = { s with txTrace := t.txTrace, pb := t.pb, result := t.result }

/-! ## Rules about the whole block -/

/-- Power-up of every legal configuration meets the invariants below. -/
def Obligations.PowerUpMeetsTheInvariants : Prop :=
  ∀ c : Config, configLegal c = true →
    BlockInv (State.powerUp c) ∧ FifoContentWritten (State.powerUp c) ∧ OutstandingHalvesFilled (State.powerUp c) ∧
    HalvesOwnedApart (State.powerUp c) .cap c.capHalf ∧ HalvesOwnedApart (State.powerUp c) .pb c.pbHalf ∧
    StartupTransient (State.powerUp c)

/-- From every state that meets the invariant, one step answers a next state, and that state meets it: the block never stops (R208), no
index leaves its memory (R63), the cursors and the count stay as R23 says, and the rest of R45 holds on. -/
def Obligations.EveryStepKeepsTheInvariant : Prop :=
  ∀ s : State, BlockInv s → ∃ t, step s = .next t ∧ BlockInv t

/-- Every step keeps the FIFO's logical content made of elements written since reset, so `FIFO_MEM_INIT` is never seen (R66 a). -/
def Obligations.FifoContentIsAlwaysWritten : Prop :=
  ∀ s t : State, BlockInv s → FifoContentWritten s → step s = .next t → FifoContentWritten t

/-- A capture half is handed to the scheduler only after the engine has written all of it (R66 b, R70). -/
def Obligations.OutstandingHalvesStayFilled : Prop :=
  ∀ s t : State, BlockInv s → OutstandingHalvesFilled s → step s = .next t → OutstandingHalvesFilled t

/-- While no race is recorded, an engine is never inside a half that belongs to the scheduler (R68, R246), for both channels. -/
def Obligations.HalvesStayOwnedApart : Prop :=
  ∀ s t : State, BlockInv s → step s = .next t →
    (HalvesOwnedApart s .cap s.cfg.capHalf → HalvesOwnedApart t .cap t.cfg.capHalf) ∧
    (HalvesOwnedApart s .pb s.cfg.pbHalf → HalvesOwnedApart t .pb t.cfg.pbHalf)

/-- The start-up transient (R186, R243): the first Hp slots of the output are `PB_BUF_INIT`, whatever the schedule, until
a first `SYS.RESET` (which the model's count of resets tells, log 3). -/
def Obligations.FirstSlotsSentAreTheInitialBuffer : Prop :=
  ∀ s t : State, BlockInv s → StartupTransient s → step s = .next t → StartupTransient t

/-- Once set a hazard bit stays set until `SYS.RESET` (R35), and no operation's effect on the rest of the block depends on one:
two states that differ only in hazard bits step to states that differ only in them and in what `SYS.RDSTAT 11` returns. -/
def Obligations.HazardBitsStickAndDecideNothing : Prop :=
  (∀ (s t : State) (i : Instr), exec i s = .next t → i ≠ .sysReset →
    (s.cap.lost = true → t.cap.lost = true) ∧ (s.pb.lost = true → t.pb.lost = true) ∧
    (s.cap.race = true → t.cap.race = true) ∧ (s.pb.race = true → t.pb.race = true)) ∧
  (∀ (s t : State) (i : Instr) (a b c d : Bool), exec i s = .next t → i ≠ .sysRdstat 11#16 →
    ∃ a' b' c' d', exec i { s with cap := { s.cap with lost := a, race := b }, pb := { s.pb with lost := c, race := d } } =
      .next { t with cap := { t.cap with lost := a', race := b' }, pb := { t.pb with lost := c', race := d' } })

/-- The diagnostic counters never go down, and so a counter that has left zero never reads zero again, until `SYS.RESET` (R9); only
a capture service moves the first two and only a playback service the third (R34). -/
def Obligations.CountersNeverGoDown : Prop :=
  ∀ (s t : State) (i : Instr), exec i s = .next t → i ≠ .sysReset →
    s.ovrEvents.toNat ≤ t.ovrEvents.toNat ∧ s.ovrSamples.toNat ≤ t.ovrSamples.toNat ∧ s.undEvents.toNat ≤ t.undEvents.toNat ∧
    (i ≠ .svcCap0 → i ≠ .svcCap1 → t.ovrEvents = s.ovrEvents ∧ t.ovrSamples = s.ovrSamples) ∧
    (i ≠ .svcPb0 → i ≠ .svcPb1 → t.undEvents = s.undEvents)

/-- The output is a record that no operation, not even `SYS.RESET`, shortens (R37): a step leaves it or appends one slot. -/
def Obligations.OutputIsNeverShortened : Prop :=
  ∀ s t : State, step s = .next t →
    t.txTrace = s.txTrace ∨ (s.sys = .running ∧ t.txTrace = s.txTrace ++ [s.pbAt s.pb.pos])

/-- No parameter changes after reset (R14), whatever the command. -/
def Obligations.ParametersNeverChange : Prop :=
  ∀ s t : State, step s = .next t → t.cfg = s.cfg

/-- The entry points of the two channels commute (R211): in either order they leave the same state. -/
def Obligations.EntryPointsOfTheChannelsCommute : Prop :=
  ∀ (s : State) (i j : Instr), configLegal s.cfg = true → (i = .evCapHalf ∨ i = .evCapFull) → (j = .evPbHalf ∨ j = .evPbFull) →
    enabled i s = true → enabled j s = true →
    ∃ t u v, exec i s = .next t ∧ exec j t = .next v ∧ exec j s = .next u ∧ exec i u = .next v

/-- A DMA step into the other half commutes with a service (R69): up to the value the last operation returned, the two orders leave the
same state, for both channels and both halves. -/
def Obligations.DmaStepsCommuteWithServicesOfTheOtherHalf : Prop :=
  (∀ (s : State) (h : Half) (w : Raw), BlockInv s → s.sys = .running → s.job = jobOf .cap h → w.toNat < 2 ^ s.cfg.rawW →
    halfOf s.cap.pos s.cfg.capHalf ≠ h →
    ∃ t u t' u', exec (.capDma w) s = .next t ∧ exec (serviceInstr .cap h) t = .next u ∧
      exec (serviceInstr .cap h) s = .next t' ∧ exec (.capDma w) t' = .next u' ∧ u' = { u with result := u'.result }) ∧
  (∀ (s : State) (h : Half), BlockInv s → s.sys = .running → s.job = jobOf .pb h → halfOf s.pb.pos s.cfg.pbHalf ≠ h →
    ∃ t u t' u', exec .pbDma s = .next t ∧ exec (serviceInstr .pb h) t = .next u ∧
      exec (serviceInstr .pb h) s = .next t' ∧ exec .pbDma t' = .next u' ∧ u' = { u with result := u'.result })

/-- An event is never dropped in silence (R221, R47): a half that is outstanding stays so until its own service, unless the step
records the loss or is `SYS.RESET`. -/
def Obligations.EventsVanishOnlyAsLost : Prop :=
  ∀ (s t : State) (i : Instr) (ch : Chan) (h : Half), exec i s = .next t → s.outstanding ch h = true →
    t.outstanding ch h = true ∨ (t.chan ch).lost = true ∨ i = .sysReset ∨ i = schedulerOp (jobOf ch h) s.phase

/-- Each agent writes only what the table of R75 gives it, and leaves everything else as it was.
A DMA engine: its buffer at its position (capture only), its latches, which it only sets, its position, its hazard bits, and the output
(playback only). An entry point: its own latch, which it clears, and its own channel's flag, which it sets to `Ready(h)`, and the lost bit.
The scheduler: flags, which it only clears; with no job, nothing of the FIFO, the buffers and the counters (a poll stores nothing); with
a job, of `pb_buf` only the half the job names, and of `fifo_mem` only, for a capture job, the free elements from the write cursor on.
The host, but for `SYS.RESET`: the FIFO, its element only from the write cursor on where they are free, and only while `Stopped`. -/
def Obligations.AgentsKeepToTheirRights : Prop :=
  ∀ (s t : State) (i : Instr), exec i s = .next t →
    match agentOf i with
    | .captureDma => t = { s with capBuf := t.capBuf, cap := t.cap, result := t.result } ∧ t.cap.flag = s.cap.flag ∧
        (∀ h, s.cap.pend h = true → t.cap.pend h = true) ∧ ∀ j, j ≠ s.cap.pos → t.capAt j = s.capAt j
    | .playbackDma => t = { s with txTrace := t.txTrace, pb := t.pb, result := t.result } ∧ t.pb.flag = s.pb.flag ∧
        ∀ h, s.pb.pend h = true → t.pb.pend h = true
    | .interrupt => ∃ ch h, i = entryInstr ch h ∧ t = { s.setChan ch (t.chan ch) with result := t.result } ∧
        (t.chan ch = s.chan ch ∨
          t.chan ch = { (s.chan ch).setPend h false with flag := ready h, lost := (t.chan ch).lost })
    | .scheduler =>
        t = { s with
          fifo := t.fifo
          filt := t.filt
          hook := t.hook
          pbBuf := t.pbBuf
          cap := { s.cap with flag := t.cap.flag }
          pb := { s.pb with flag := t.pb.flag }
          job := t.job
          phase := t.phase
          ovrEvents := t.ovrEvents
          ovrSamples := t.ovrSamples
          undEvents := t.undEvents
          result := t.result } ∧
        (t.cap.flag = s.cap.flag ∨ t.cap.flag = .idle) ∧ (t.pb.flag = s.pb.flag ∨ t.pb.flag = .idle) ∧
        (s.job = .none → t.fifo = s.fifo ∧ t.pbBuf = s.pbBuf ∧ t.filt = s.filt ∧ t.hook = s.hook ∧
          t.ovrEvents = s.ovrEvents ∧ t.ovrSamples = s.ovrSamples ∧ t.undEvents = s.undEvents) ∧
        (s.job ≠ .none → t.cap.flag = s.cap.flag ∧ t.pb.flag = s.pb.flag ∧ t.phase = s.phase) ∧
        (∀ j, (∀ h, s.job = jobOf .pb h → j < h.index * s.cfg.pbHalf ∨ (h.index + 1) * s.cfg.pbHalf ≤ j) → t.pbAt j = s.pbAt j) ∧
        (∀ j, ((∃ h, s.job = jobOf .cap h) → ∀ k < min s.cfg.capBatch (s.cfg.fifoCap - s.fifo.count.toNat),
          (s.fifo.wr.toNat + k) % s.cfg.fifoCap ≠ j) → t.fifoAt j = s.fifoAt j)
    | .host => i = .sysReset ∨
        (t = { s with fifo := t.fifo, sys := t.sys, din := t.din, dout := t.dout, result := t.result } ∧
          (s.sys ≠ .stopped → t.fifo = s.fifo ∧ t.sys = s.sys ∧ t.din = s.din ∧ t.dout = s.dout) ∧
          (s.fifo.count.toNat ≤ s.cfg.fifoCap → ∀ j, (∀ k < s.cfg.fifoCap - s.fifo.count.toNat,
            (s.fifo.wr.toNat + k) % s.cfg.fifoCap ≠ j) → t.fifoAt j = s.fifoAt j))

/-- The two sides meet only in the FIFO (R175): a capture operation neither reads nor writes the playback side, and a playback
operation neither reads nor writes the capture side. -/
def Obligations.ChannelsMeetOnlyInTheFifo : Prop :=
  (∀ (s t : State) (i : Instr) (p : Channel) (m : Memory) (tr : List Slot) (u : Word32),
    ((∃ w, i = .capDma w) ∨ i = .evCapHalf ∨ i = .evCapFull ∨ i = .svcCap0 ∨ i = .svcCap1 ∨ i = .pollCap) →
    exec i s = .next t →
    exec i { s with pb := p, pbBuf := m, txTrace := tr, undEvents := u } =
      .next { t with pb := p, pbBuf := m, txTrace := tr, undEvents := u }) ∧
  (∀ (s t : State) (i : Instr) (p : Channel) (m : Memory) (f k : CollabState) (u v : Word32),
    (i = .pbDma ∨ i = .evPbHalf ∨ i = .evPbFull ∨ i = .svcPb0 ∨ i = .svcPb1 ∨ i = .pollPb) →
    exec i s = .next t →
    exec i { s with cap := p, capBuf := m, filt := f, hook := k, ovrEvents := u, ovrSamples := v } =
      .next { t with cap := p, capBuf := m, filt := f, hook := k, ovrEvents := u, ovrSamples := v })

/-- Under weak fairness (R254) a block that keeps running finishes every job: the scheduler is without one again and again,
whatever the commands issued. -/
def Obligations.FairSchedulersFinishEveryJob : Prop :=
  ∀ (c : Nat → Command) (r : Nat → State), IsExecution c r → WeaklyFair c r → (∀ n, (r n).sys = .running) →
    ∀ n, ∃ m, n ≤ m ∧ (r m).job = .none
end

