-- ==== Sys2Proof/Laws/State.lean ====
section
/-!
SUPPORT. One lemma per field of each named update of the state, so that no later proof unfolds the update.
-/
namespace Sys2Proof.Machine

variable (s : State)

/-! ## `State.respond` -/

@[simp] theorem State.respond_cfg (code : ResultCode) (val : Word32) : (s.respond code val).cfg = s.cfg := rfl
@[simp] theorem State.respond_fifo (code : ResultCode) (val : Word32) : (s.respond code val).fifo = s.fifo := rfl
@[simp] theorem State.respond_capBuf (code : ResultCode) (val : Word32) : (s.respond code val).capBuf = s.capBuf := rfl
@[simp] theorem State.respond_cap (code : ResultCode) (val : Word32) : (s.respond code val).cap = s.cap := rfl
@[simp] theorem State.respond_filt (code : ResultCode) (val : Word32) : (s.respond code val).filt = s.filt := rfl
@[simp] theorem State.respond_hook (code : ResultCode) (val : Word32) : (s.respond code val).hook = s.hook := rfl
@[simp] theorem State.respond_pbBuf (code : ResultCode) (val : Word32) : (s.respond code val).pbBuf = s.pbBuf := rfl
@[simp] theorem State.respond_pb (code : ResultCode) (val : Word32) : (s.respond code val).pb = s.pb := rfl
@[simp] theorem State.respond_job (code : ResultCode) (val : Word32) : (s.respond code val).job = s.job := rfl
@[simp] theorem State.respond_phase (code : ResultCode) (val : Word32) : (s.respond code val).phase = s.phase := rfl
@[simp] theorem State.respond_ovrEvents (code : ResultCode) (val : Word32) : (s.respond code val).ovrEvents = s.ovrEvents := rfl
@[simp] theorem State.respond_ovrSamples (code : ResultCode) (val : Word32) : (s.respond code val).ovrSamples = s.ovrSamples := rfl
@[simp] theorem State.respond_undEvents (code : ResultCode) (val : Word32) : (s.respond code val).undEvents = s.undEvents := rfl
@[simp] theorem State.respond_sys (code : ResultCode) (val : Word32) : (s.respond code val).sys = s.sys := rfl
@[simp] theorem State.respond_txTrace (code : ResultCode) (val : Word32) : (s.respond code val).txTrace = s.txTrace := rfl
@[simp] theorem State.respond_din (code : ResultCode) (val : Word32) : (s.respond code val).din = s.din := rfl
@[simp] theorem State.respond_dout (code : ResultCode) (val : Word32) : (s.respond code val).dout = s.dout := rfl
@[simp] theorem State.respond_result (code : ResultCode) (val : Word32) : (s.respond code val).result = ⟨code, val⟩ := rfl
@[simp] theorem State.respond_schedule (code : ResultCode) (val : Word32) : (s.respond code val).schedule = s.schedule := rfl
@[simp] theorem State.respond_drawn (code : ResultCode) (val : Word32) : (s.respond code val).drawn = s.drawn := rfl
@[simp] theorem State.respond_epoch (code : ResultCode) (val : Word32) : (s.respond code val).epoch = s.epoch := rfl

/-! ## `State.resetBlock` (R46, R185) -/

@[simp] theorem State.resetBlock_cfg : s.resetBlock.cfg = s.cfg := rfl
@[simp] theorem State.resetBlock_fifo : s.resetBlock.fifo = .atReset := rfl
@[simp] theorem State.resetBlock_capBuf : s.resetBlock.capBuf = .unwritten := rfl
@[simp] theorem State.resetBlock_cap : s.resetBlock.cap = .atReset := rfl
@[simp] theorem State.resetBlock_filt : s.resetBlock.filt = s.cfg.filtInit := rfl
@[simp] theorem State.resetBlock_hook : s.resetBlock.hook = s.cfg.hookInit := rfl
@[simp] theorem State.resetBlock_pbBuf : s.resetBlock.pbBuf = .unwritten := rfl
@[simp] theorem State.resetBlock_pb : s.resetBlock.pb = .atReset := rfl
@[simp] theorem State.resetBlock_job : s.resetBlock.job = .none := rfl
@[simp] theorem State.resetBlock_phase : s.resetBlock.phase = firstPhase s.cfg.pollOrder := rfl
@[simp] theorem State.resetBlock_ovrEvents : s.resetBlock.ovrEvents = 0#32 := rfl
@[simp] theorem State.resetBlock_ovrSamples : s.resetBlock.ovrSamples = 0#32 := rfl
@[simp] theorem State.resetBlock_undEvents : s.resetBlock.undEvents = 0#32 := rfl
@[simp] theorem State.resetBlock_sys : s.resetBlock.sys = .stopped := rfl
@[simp] theorem State.resetBlock_txTrace : s.resetBlock.txTrace = s.txTrace := rfl
@[simp] theorem State.resetBlock_din : s.resetBlock.din = [] := rfl
@[simp] theorem State.resetBlock_dout : s.resetBlock.dout = [] := rfl
@[simp] theorem State.resetBlock_result : s.resetBlock.result = ⟨.ok, 0#32⟩ := rfl
@[simp] theorem State.resetBlock_schedule : s.resetBlock.schedule = s.schedule := rfl
@[simp] theorem State.resetBlock_drawn : s.resetBlock.drawn = s.drawn := rfl
@[simp] theorem State.resetBlock_epoch : s.resetBlock.epoch = s.epoch + 1 := rfl

/-! ## `State.powerUp` (R46) -/

@[simp] theorem State.powerUp_cfg (c : Config) : (State.powerUp c).cfg = c := rfl
@[simp] theorem State.powerUp_fifo (c : Config) : (State.powerUp c).fifo = .atReset := rfl
@[simp] theorem State.powerUp_capBuf (c : Config) : (State.powerUp c).capBuf = .unwritten := rfl
@[simp] theorem State.powerUp_cap (c : Config) : (State.powerUp c).cap = .atReset := rfl
@[simp] theorem State.powerUp_filt (c : Config) : (State.powerUp c).filt = c.filtInit := rfl
@[simp] theorem State.powerUp_hook (c : Config) : (State.powerUp c).hook = c.hookInit := rfl
@[simp] theorem State.powerUp_pbBuf (c : Config) : (State.powerUp c).pbBuf = .unwritten := rfl
@[simp] theorem State.powerUp_pb (c : Config) : (State.powerUp c).pb = .atReset := rfl
@[simp] theorem State.powerUp_job (c : Config) : (State.powerUp c).job = .none := rfl
@[simp] theorem State.powerUp_phase (c : Config) : (State.powerUp c).phase = firstPhase c.pollOrder := rfl
@[simp] theorem State.powerUp_ovrEvents (c : Config) : (State.powerUp c).ovrEvents = 0#32 := rfl
@[simp] theorem State.powerUp_ovrSamples (c : Config) : (State.powerUp c).ovrSamples = 0#32 := rfl
@[simp] theorem State.powerUp_undEvents (c : Config) : (State.powerUp c).undEvents = 0#32 := rfl
@[simp] theorem State.powerUp_sys (c : Config) : (State.powerUp c).sys = .stopped := rfl
@[simp] theorem State.powerUp_txTrace (c : Config) : (State.powerUp c).txTrace = [] := rfl
@[simp] theorem State.powerUp_din (c : Config) : (State.powerUp c).din = [] := rfl
@[simp] theorem State.powerUp_dout (c : Config) : (State.powerUp c).dout = [] := rfl
@[simp] theorem State.powerUp_result (c : Config) : (State.powerUp c).result = ⟨.ok, 0#32⟩ := rfl
@[simp] theorem State.powerUp_schedule (c : Config) : (State.powerUp c).schedule = [] := rfl
@[simp] theorem State.powerUp_drawn (c : Config) : (State.powerUp c).drawn = 0 := rfl
@[simp] theorem State.powerUp_epoch (c : Config) : (State.powerUp c).epoch = 0 := rfl

/-! ## `State.takeCommand` changes only `din`, `schedule` and `drawn` -/

@[simp] theorem State.takeCommand_cfg : s.takeCommand.cfg = s.cfg := by
  unfold State.takeCommand; split <;> rfl
@[simp] theorem State.takeCommand_fifo : s.takeCommand.fifo = s.fifo := by
  unfold State.takeCommand; split <;> rfl
@[simp] theorem State.takeCommand_capBuf : s.takeCommand.capBuf = s.capBuf := by
  unfold State.takeCommand; split <;> rfl
@[simp] theorem State.takeCommand_cap : s.takeCommand.cap = s.cap := by
  unfold State.takeCommand; split <;> rfl
@[simp] theorem State.takeCommand_filt : s.takeCommand.filt = s.filt := by
  unfold State.takeCommand; split <;> rfl
@[simp] theorem State.takeCommand_hook : s.takeCommand.hook = s.hook := by
  unfold State.takeCommand; split <;> rfl
@[simp] theorem State.takeCommand_pbBuf : s.takeCommand.pbBuf = s.pbBuf := by
  unfold State.takeCommand; split <;> rfl
@[simp] theorem State.takeCommand_pb : s.takeCommand.pb = s.pb := by
  unfold State.takeCommand; split <;> rfl
@[simp] theorem State.takeCommand_job : s.takeCommand.job = s.job := by
  unfold State.takeCommand; split <;> rfl
@[simp] theorem State.takeCommand_phase : s.takeCommand.phase = s.phase := by
  unfold State.takeCommand; split <;> rfl
@[simp] theorem State.takeCommand_ovrEvents : s.takeCommand.ovrEvents = s.ovrEvents := by
  unfold State.takeCommand; split <;> rfl
@[simp] theorem State.takeCommand_ovrSamples : s.takeCommand.ovrSamples = s.ovrSamples := by
  unfold State.takeCommand; split <;> rfl
@[simp] theorem State.takeCommand_undEvents : s.takeCommand.undEvents = s.undEvents := by
  unfold State.takeCommand; split <;> rfl
@[simp] theorem State.takeCommand_sys : s.takeCommand.sys = s.sys := by
  unfold State.takeCommand; split <;> rfl
@[simp] theorem State.takeCommand_txTrace : s.takeCommand.txTrace = s.txTrace := by
  unfold State.takeCommand; split <;> rfl
@[simp] theorem State.takeCommand_dout : s.takeCommand.dout = s.dout := by
  unfold State.takeCommand; split <;> rfl
@[simp] theorem State.takeCommand_result : s.takeCommand.result = s.result := by
  unfold State.takeCommand; split <;> rfl
@[simp] theorem State.takeCommand_epoch : s.takeCommand.epoch = s.epoch := by
  unfold State.takeCommand; split <;> rfl

/-! ## Element reads depend on the memory, the configuration and the epoch alone -/

@[simp] theorem State.respond_fifoFill (code : ResultCode) (val : Word32) : (s.respond code val).fifoFill = s.fifoFill := rfl
@[simp] theorem State.respond_capFill (code : ResultCode) (val : Word32) : (s.respond code val).capFill = s.capFill := rfl
@[simp] theorem State.respond_pbFill (code : ResultCode) (val : Word32) : (s.respond code val).pbFill = s.pbFill := rfl
@[simp] theorem State.respond_fifoAt (code : ResultCode) (val : Word32) (i : Nat) :
    (s.respond code val).fifoAt i = s.fifoAt i := rfl
@[simp] theorem State.respond_capAt (code : ResultCode) (val : Word32) (i : Nat) :
    (s.respond code val).capAt i = s.capAt i := rfl
@[simp] theorem State.respond_pbAt (code : ResultCode) (val : Word32) (i : Nat) :
    (s.respond code val).pbAt i = s.pbAt i := rfl
@[simp] theorem State.respond_outstanding (code : ResultCode) (val : Word32) (ch : Chan) (h : Half) :
    (s.respond code val).outstanding ch h = s.outstanding ch h := by cases ch <;> rfl
@[simp] theorem State.chan_cap : s.chan .cap = s.cap := rfl
@[simp] theorem State.chan_pb : s.chan .pb = s.pb := rfl

end Sys2Proof.Machine
end

