-- ==== Sys2Proof/Laws/Channel.lean ====
section
/-!
SUPPORT. What raising and entering an event, clearing a flag and one DMA step do to a channel, field by field.
-/
namespace Sys2Proof.Machine

variable (c : Channel) (h : Half)

@[simp] theorem halfOf_of_lt {p H : Nat} (hp : p < H) : halfOf p H = .first := if_pos hp

@[simp] theorem halfOf_of_le {p H : Nat} (hp : H ≤ p) : halfOf p H = .second := if_neg (Nat.not_lt.2 hp)

@[simp] theorem ready_ne_idle : ready h ≠ .idle := by cases h <;> decide

theorem ready_injective {h h' : Half} (e : ready h = ready h') : h = h' := by
  cases h <;> cases h' <;> first | rfl | exact absurd e (by decide)

theorem jobOf_injective {ch ch' : Chan} {h h' : Half} (e : jobOf ch h = jobOf ch' h') : ch = ch' ∧ h = h' := by
  cases ch <;> cases ch' <;> cases h <;> cases h' <;> first | exact ⟨rfl, rfl⟩ | exact absurd e (by decide)

@[simp] theorem jobOf_ne_none (ch : Chan) : jobOf ch h ≠ .none := by cases ch <;> cases h <;> decide

@[simp] theorem none_ne_jobOf (ch : Chan) : SchedJob.none ≠ jobOf ch h := fun e => jobOf_ne_none h ch e.symm

/-- Where the event of an outstanding half is: its latch, the flag or the job (R47). -/
theorem outstanding_iff (s : State) (ch : Chan) :
    s.outstanding ch h = true ↔ (s.chan ch).pend h = true ∨ (s.chan ch).flag = ready h ∨ s.job = jobOf ch h := by
  rw [State.outstanding, Bool.or_eq_true, Bool.or_eq_true, decide_eq_true_iff, decide_eq_true_iff, or_assoc]

/-! ## Latches -/

@[simp] theorem Channel.pend_setPend (h' : Half) (b : Bool) :
    (c.setPend h b).pend h' = if h' = h then b else c.pend h' := by cases h <;> cases h' <;> rfl

@[simp] theorem Channel.setPend_flag (b : Bool) : (c.setPend h b).flag = c.flag := by cases h <;> rfl
@[simp] theorem Channel.setPend_pos (b : Bool) : (c.setPend h b).pos = c.pos := by cases h <;> rfl
@[simp] theorem Channel.setPend_lost (b : Bool) : (c.setPend h b).lost = c.lost := by cases h <;> rfl
@[simp] theorem Channel.setPend_race (b : Bool) : (c.setPend h b).race = c.race := by cases h <;> rfl

/-! ## Raising an event (R209, R221 a) -/

@[simp] theorem Channel.raise_pend (h' : Half) : (c.raise h).pend h' = (decide (h' = h) || c.pend h') := by
  cases h <;> cases h' <;> simp [Channel.raise, Channel.setPend, Channel.pend]

@[simp] theorem Channel.raise_flag : (c.raise h).flag = c.flag := by cases h <;> rfl
@[simp] theorem Channel.raise_pos : (c.raise h).pos = c.pos := by cases h <;> rfl
@[simp] theorem Channel.raise_lost : (c.raise h).lost = (c.lost || c.pend h) := rfl
@[simp] theorem Channel.raise_race : (c.raise h).race = c.race := by cases h <;> rfl

/-! ## Entering an event (R212, R221 b) -/

@[simp] theorem Channel.enter_pend (h' : Half) : (c.enter h).pend h' = (decide (h' ≠ h) && c.pend h') := by
  cases h <;> cases h' <;> simp [Channel.enter, Channel.setPend, Channel.pend]

@[simp] theorem Channel.enter_flag : (c.enter h).flag = ready h := rfl
@[simp] theorem Channel.enter_pos : (c.enter h).pos = c.pos := by cases h <;> rfl
@[simp] theorem Channel.enter_lost : (c.enter h).lost = (c.lost || decide (c.flag ≠ .idle)) := rfl
@[simp] theorem Channel.enter_race : (c.enter h).race = c.race := by cases h <;> rfl

/-! ## The read-and-clear of a flag (R72) -/

@[simp] theorem Channel.clearFlag_flag : c.clearFlag.flag = .idle := rfl
@[simp] theorem Channel.clearFlag_pos : c.clearFlag.pos = c.pos := rfl
@[simp] theorem Channel.clearFlag_pend : c.clearFlag.pend h = c.pend h := by cases h <;> rfl
@[simp] theorem Channel.clearFlag_lost : c.clearFlag.lost = c.lost := rfl
@[simp] theorem Channel.clearFlag_race : c.clearFlag.race = c.race := rfl

/-! ## Reset -/

@[simp] theorem Channel.atReset_flag : Channel.atReset.flag = .idle := rfl
@[simp] theorem Channel.atReset_pos : Channel.atReset.pos = 0 := rfl
@[simp] theorem Channel.atReset_pend : Channel.atReset.pend h = false := by cases h <;> rfl
@[simp] theorem Channel.atReset_lost : Channel.atReset.lost = false := rfl
@[simp] theorem Channel.atReset_race : Channel.atReset.race = false := rfl

/-! ## One DMA step (R130, R150) -/

variable (H : Nat) (busy : Bool)

/-- The position after a DMA step. -/
theorem Channel.dmaStep_pos : (c.dmaStep H busy).pos = (c.pos + 1) % (2 * H) := by
  unfold Channel.dmaStep; dsimp only; split_ifs <;> simp

@[simp] theorem Channel.dmaStep_flag : (c.dmaStep H busy).flag = c.flag := by
  unfold Channel.dmaStep; dsimp only; split_ifs <;> simp

@[simp] theorem Channel.dmaStep_race : (c.dmaStep H busy).race = (c.race || busy) := by
  unfold Channel.dmaStep; dsimp only; split_ifs <;> simp

/-- Everything a DMA step does from an index inside the buffer: the engine moves on, wrapping at the end; the step that
completes a half sets that half's latch, and records a loss if it was set already. -/
theorem Channel.dmaStep_cases {c : Channel} {H : Nat} (busy : Bool) (hH : 1 ≤ H) (hp : c.pos < 2 * H) :
    (c.pos + 1 = H ∧ c.dmaStep H busy = { c with race := c.race || busy, pos := H, pend0 := true, lost := c.lost || c.pend0 }) ∨
    (c.pos + 1 = 2 * H ∧ c.dmaStep H busy = { c with race := c.race || busy, pos := 0, pend1 := true, lost := c.lost || c.pend1 }) ∨
    (c.pos + 1 ≠ H ∧ c.pos + 1 < 2 * H ∧ c.dmaStep H busy = { c with race := c.race || busy, pos := c.pos + 1 }) := by
  rcases Nat.lt_or_ge (c.pos + 1) (2 * H) with hlt | hge
  · have hmod : (c.pos + 1) % (2 * H) = c.pos + 1 := Nat.mod_eq_of_lt hlt
    by_cases he : c.pos + 1 = H
    · refine .inl ⟨he, ?_⟩
      rw [he] at hmod
      simp only [Channel.dmaStep, he, hmod, if_true, if_neg (show ¬ H = 0 by omega)]
      rfl
    · refine .inr (.inr ⟨he, hlt, ?_⟩)
      simp [Channel.dmaStep, hmod, he]
  · have he : c.pos + 1 = 2 * H := by omega
    refine .inr (.inl ⟨he, ?_⟩)
    simp only [Channel.dmaStep, he, Nat.mod_self, if_neg (show ¬ 0 = H by omega), if_true]
    rfl

end Sys2Proof.Machine
end

