-- ==== Sys2Proof/Laws/Config.lean ====
section
/-!
SUPPORT. What a legal configuration gives, and the length of what the collaborators answer.
-/
namespace Sys2Proof.Machine

/-- The legal values of `00_scope.md` section 5, one by one. -/
theorem configLegal_iff (c : Config) : configLegal c = true ↔
    (1 ≤ c.fifoCap ∧ c.fifoCap ≤ 65535) ∧ (1 ≤ c.rawW ∧ c.rawW ≤ 16) ∧ 1 ≤ c.capHalf ∧ (1 ≤ c.capBatch ∧ c.capBatch ≤ 65535)
    ∧ (1 ≤ c.pbBatch ∧ c.pbBatch ≤ 65535) ∧ 1 ≤ c.pbStride ∧ c.pbOffsets ≠ [] ∧ c.pbOffsets.Nodup
    ∧ (∀ o ∈ c.pbOffsets, o < c.pbStride)
    ∧ (∀ r ∈ c.decimateRows, r.input.length = c.capHalf ∧ (∀ w ∈ r.input, w.toNat < 2 ^ c.rawW) ∧ r.output.length = c.capBatch)
    ∧ (∀ r ∈ c.hookRows, r.input.length = c.capBatch ∧ r.output.length = c.capBatch) := by
  simp only [configLegal, Bool.and_eq_true, decide_eq_true_eq, List.all_eq_true, and_assoc]

theorem legal_fifoCap {c : Config} (h : configLegal c = true) : 1 ≤ c.fifoCap ∧ c.fifoCap ≤ 65535 := ((configLegal_iff c).1 h).1

theorem legal_rawW {c : Config} (h : configLegal c = true) : 1 ≤ c.rawW ∧ c.rawW ≤ 16 := ((configLegal_iff c).1 h).2.1

theorem legal_capHalf {c : Config} (h : configLegal c = true) : 1 ≤ c.capHalf := ((configLegal_iff c).1 h).2.2.1

theorem legal_capBatch {c : Config} (h : configLegal c = true) : 1 ≤ c.capBatch ∧ c.capBatch ≤ 65535 :=
  ((configLegal_iff c).1 h).2.2.2.1

theorem legal_pbBatch {c : Config} (h : configLegal c = true) : 1 ≤ c.pbBatch ∧ c.pbBatch ≤ 65535 :=
  ((configLegal_iff c).1 h).2.2.2.2.1

theorem legal_pbStride {c : Config} (h : configLegal c = true) : 1 ≤ c.pbStride := ((configLegal_iff c).1 h).2.2.2.2.2.1

theorem legal_offset_lt {c : Config} (h : configLegal c = true) : ∀ o ∈ c.pbOffsets, o < c.pbStride :=
  ((configLegal_iff c).1 h).2.2.2.2.2.2.2.2.1

theorem legal_pbHalf {c : Config} (h : configLegal c = true) : 1 ≤ c.pbHalf :=
  Nat.mul_pos (legal_pbBatch h).1 (legal_pbStride h)

/-- A group's slot is inside the half it belongs to (R156). -/
theorem group_slot_lt {c : Config} (h : configLegal c = true) {k o : Nat} (hk : k < c.pbBatch) (ho : o ∈ c.pbOffsets) :
    k * c.pbStride + o < c.pbHalf := by
  have h1 := legal_offset_lt h o ho
  have h2 : (k + 1) * c.pbStride ≤ c.pbBatch * c.pbStride := Nat.mul_le_mul_right _ hk
  have h3 : (k + 1) * c.pbStride = k * c.pbStride + c.pbStride := by ring
  unfold Config.pbHalf
  omega

/-- A collaborator answers a batch of the length its rows and its free function both have. -/
theorem collaborate_length {rows : List CallRow} {len : Nat} (hrows : ∀ r ∈ rows, r.output.length = len)
    (fa : CollabState → List (BitVec 16) → CollabState) (fo : CollabState → List (BitVec 16) → Nat → Sample)
    (st : CollabState) (input : List (BitVec 16)) : (collaborate rows len fa fo st input).2.length = len := by
  unfold collaborate
  split
  · rename_i r hr
    exact hrows r (List.mem_of_find?_eq_some hr)
  · simp

/-- `Decimate` yields exactly Nc samples (R11). -/
theorem decimate_length {c : Config} (h : configLegal c = true) (st : CollabState) (raw : List Raw) :
    (decimate c st raw).2.length = c.capBatch :=
  collaborate_length (fun r hr => (((configLegal_iff c).1 h).2.2.2.2.2.2.2.2.2.1 r hr).2.2) _ _ _ _

/-- `Hook` returns a batch of the same length (R12). -/
theorem hookCall_length {c : Config} (h : configLegal c = true) (st : CollabState) (batch : List Sample) :
    (hookCall c st batch).2.length = c.capBatch :=
  collaborate_length (fun r hr => (((configLegal_iff c).1 h).2.2.2.2.2.2.2.2.2.2 r hr).2) _ _ _ _

end Sys2Proof.Machine
end

