-- ==== Sys2Proof/Laws/Encoding.lean ====
section
/-!
SUPPORT. The fields of a command word (R90), one lemma each way.
-/
namespace Sys2Proof

/-- The value of a command word, from its fields. -/
theorem mkWord_toNat (u f : BitVec 4) (imm : Imm) :
    (mkWord u f imm).toNat = u.toNat * 2 ^ 28 + f.toNat * 2 ^ 24 + imm.toNat := by
  have hu := u.isLt
  have hf := f.isLt
  have hi := imm.isLt
  simp only [mkWord, BitVec.toNat_append]
  rw [← Nat.shiftLeft_add_eq_or_of_lt hi, ← Nat.shiftLeft_add_eq_or_of_lt (0#8).isLt, ← Nat.shiftLeft_add_eq_or_of_lt hf]
  simp only [Nat.shiftLeft_eq, BitVec.toNat_ofNat]
  omega

theorem unitOf_toNat (w : CmdWord) : (unitOf w).toNat = w.toNat / 2 ^ 28 % 2 ^ 4 := by
  simp [unitOf, Nat.shiftRight_eq_div_pow]

theorem fnOf_toNat (w : CmdWord) : (fnOf w).toNat = w.toNat / 2 ^ 24 % 2 ^ 4 := by
  simp [fnOf, Nat.shiftRight_eq_div_pow]

theorem rsvOf_toNat (w : CmdWord) : (rsvOf w).toNat = w.toNat / 2 ^ 16 % 2 ^ 8 := by
  simp [rsvOf, Nat.shiftRight_eq_div_pow]

theorem immOf_toNat (w : CmdWord) : (immOf w).toNat = w.toNat % 2 ^ 16 := by
  simp [immOf]

@[simp] theorem unitOf_mkWord (u f : BitVec 4) (imm : Imm) : unitOf (mkWord u f imm) = u := by
  have hu := u.isLt
  have hf := f.isLt
  have hi := imm.isLt
  apply BitVec.eq_of_toNat_eq
  rw [unitOf_toNat, mkWord_toNat]
  omega

@[simp] theorem fnOf_mkWord (u f : BitVec 4) (imm : Imm) : fnOf (mkWord u f imm) = f := by
  have hu := u.isLt
  have hf := f.isLt
  have hi := imm.isLt
  apply BitVec.eq_of_toNat_eq
  rw [fnOf_toNat, mkWord_toNat]
  omega

@[simp] theorem rsvOf_mkWord (u f : BitVec 4) (imm : Imm) : rsvOf (mkWord u f imm) = 0#8 := by
  have hi := imm.isLt
  apply BitVec.eq_of_toNat_eq
  rw [rsvOf_toNat, mkWord_toNat]
  simp only [BitVec.toNat_ofNat]
  omega

@[simp] theorem immOf_mkWord (u f : BitVec 4) (imm : Imm) : immOf (mkWord u f imm) = imm := by
  have hi := imm.isLt
  apply BitVec.eq_of_toNat_eq
  rw [immOf_toNat, mkWord_toNat]
  omega

/-- A word whose reserved field is 0 is the word of its other three fields. -/
theorem mkWord_fields {w : CmdWord} (h : rsvOf w = 0#8) : mkWord (unitOf w) (fnOf w) (immOf w) = w := by
  have hw := w.isLt
  have hr : w.toNat / 2 ^ 16 % 2 ^ 8 = 0 := by rw [← rsvOf_toNat, h]; rfl
  apply BitVec.eq_of_toNat_eq
  rw [mkWord_toNat, unitOf_toNat, fnOf_toNat, immOf_toNat]
  omega

/-! ## The formats (R91) -/

theorem formatN_eq_ok {imm : Imm} {i j : Instr} : formatN imm i = .ok j ↔ imm = 0#16 ∧ i = j := by
  unfold formatN; split_ifs with h <;> simp [h]

theorem formatK_eq_ok {imm : Imm} {i : Bool → Instr} {j : Instr} :
    formatK imm i = .ok j ↔ (imm = 0#16 ∧ i false = j) ∨ (imm = 1#16 ∧ i true = j) := by
  unfold formatK
  split_ifs with h h'
  · simp [h]
  · simp [h']
  · simp [h, h']

theorem imm_eq_zero (imm : Imm) : imm = 0#16 ↔ imm.toNat = 0 :=
  ⟨fun h => by rw [h]; rfl, fun h => BitVec.eq_of_toNat_eq (by simpa using h)⟩

theorem imm_eq_one (imm : Imm) : imm = 1#16 ↔ imm.toNat = 1 :=
  ⟨fun h => by rw [h]; rfl, fun h => BitVec.eq_of_toNat_eq (by simpa using h)⟩

theorem formatN_error_iff {imm : Imm} {i : Instr} : (∃ e, formatN imm i = .error e) ↔ imm.toNat ≠ 0 := by
  simp only [formatN, imm_eq_zero]; split_ifs with h <;> simp [h]

theorem formatK_error_iff {imm : Imm} {i : Bool → Instr} : (∃ e, formatK imm i = .error e) ↔ imm.toNat / 2 ≠ 0 := by
  simp only [formatK, imm_eq_zero, imm_eq_one]; split_ifs with h h' <;> simp <;> omega

/-! ## The illegal words of each unit (R94) -/

theorem decodeSys_error_iff (fn : Nat) (imm : Imm) : (∃ e, decodeSys fn imm = .error e) ↔
    (fn = 0 ∨ 4 ≤ fn) ∨ (fn = 1 ∧ imm.toNat ≠ 0) ∨ (fn = 2 ∧ imm.toNat / 2 ≠ 0) ∨ (fn = 3 ∧ 16 ≤ imm.toNat) := by
  rcases fn with _ | _ | _ | _ | fn
  · simp [decodeSys]
  · simp [decodeSys, formatN_error_iff]
  · simp [decodeSys, formatK_error_iff]
  · simp only [decodeSys]; split_ifs with h <;> simp <;> omega
  · simp [decodeSys]

theorem decodeFifo_error_iff (fn : Nat) (imm : Imm) : (∃ e, decodeFifo fn imm = .error e) ↔
    5 ≤ fn ∨ ((fn = 0 ∨ fn = 2) ∧ imm.toNat ≠ 0) := by
  rcases fn with _ | _ | _ | _ | _ | fn <;> simp [decodeFifo, formatN_error_iff]

theorem decodeCap_error_iff (rawW fn : Nat) (imm : Imm) : (∃ e, decodeCap rawW fn imm = .error e) ↔
    5 ≤ fn ∨ ((1 ≤ fn ∧ fn ≤ 4) ∧ imm.toNat ≠ 0) ∨ (fn = 0 ∧ imm.toNat / 2 ^ rawW ≠ 0) := by
  rcases fn with _ | _ | _ | _ | _ | fn
  · simp only [decodeCap]; split_ifs with h <;> simp [Nat.div_eq_zero_iff] <;> omega
  all_goals simp [decodeCap, formatN_error_iff]

theorem decodePb_error_iff (fn : Nat) (imm : Imm) : (∃ e, decodePb fn imm = .error e) ↔
    5 ≤ fn ∨ (fn ≤ 4 ∧ imm.toNat ≠ 0) := by
  rcases fn with _ | _ | _ | _ | _ | fn <;> simp [decodePb, formatN_error_iff]

theorem decodeSched_error_iff (fn : Nat) (imm : Imm) : (∃ e, decodeSched fn imm = .error e) ↔
    2 ≤ fn ∨ (fn ≤ 1 ∧ imm.toNat ≠ 0) := by
  rcases fn with _ | _ | fn <;> simp [decodeSched, formatN_error_iff]

/-- A word is illegal when its reserved field is not 0, its unit is unknown, or its unit refuses it. -/
theorem decode_error_iff (rawW : Nat) (w : CmdWord) : (∃ e, decode rawW w = .error e) ↔
    (rsvOf w).toNat ≠ 0 ∨ 5 ≤ (unitOf w).toNat ∨
    ((unitOf w).toNat = 0 ∧ ∃ e, decodeSys (fnOf w).toNat (immOf w) = .error e) ∨
    ((unitOf w).toNat = 1 ∧ ∃ e, decodeFifo (fnOf w).toNat (immOf w) = .error e) ∨
    ((unitOf w).toNat = 2 ∧ ∃ e, decodeCap rawW (fnOf w).toNat (immOf w) = .error e) ∨
    ((unitOf w).toNat = 3 ∧ ∃ e, decodePb (fnOf w).toNat (immOf w) = .error e) ∨
    ((unitOf w).toNat = 4 ∧ ∃ e, decodeSched (fnOf w).toNat (immOf w) = .error e) := by
  have er : rsvOf w = 0#8 ↔ (rsvOf w).toNat = 0 :=
    ⟨fun h => by rw [h]; rfl, fun h => BitVec.eq_of_toNat_eq (by simpa using h)⟩
  unfold decode
  by_cases h : rsvOf w = 0#8
  · simp only [h]
    generalize (unitOf w).toNat = u
    rcases u with _ | _ | _ | _ | _ | u <;> simp
  · simp [h, ← er]

end Sys2Proof
end

