-- ==== Sys2Proof/Laws/Memory.lean ====
section
/-!
SUPPORT. The laws of a memory: a read after a write, the canonical form, and what a list of writes does.
-/
namespace Sys2Proof.Machine

/-! ## Cells -/

theorem lookupCell_insertCell (i j : Nat) (v : BitVec 16) (l : List (Nat × BitVec 16)) :
    lookupCell j (insertCell i v l) = if j = i then some v else lookupCell j l := by
  induction l with
  | nil => simp [insertCell, lookupCell]
  | cons p rest ih =>
    obtain ⟨k, u⟩ := p
    simp only [insertCell]
    split_ifs with h1 h2 <;> simp only [lookupCell, ih] <;> split_ifs <;> first | rfl | omega

theorem fst_mem_insertCell {i : Nat} {v : BitVec 16} {l : List (Nat × BitVec 16)} {p : Nat × BitVec 16}
    (h : p ∈ insertCell i v l) : p.1 = i ∨ p ∈ l := by
  induction l with
  | nil => simp_all [insertCell]
  | cons q rest ih =>
    simp only [insertCell] at h
    split_ifs at h
    · rcases List.mem_cons.1 h with rfl | h
      · exact .inl rfl
      · exact .inr h
    · rcases List.mem_cons.1 h with rfl | h
      · exact .inl rfl
      · exact .inr (List.mem_cons_of_mem _ h)
    · rcases List.mem_cons.1 h with rfl | h
      · exact .inr List.mem_cons_self
      · exact (ih h).imp id (List.mem_cons_of_mem _)

theorem insertCell_rising {i : Nat} {v : BitVec 16} {l : List (Nat × BitVec 16)}
    (h : l.Pairwise (fun a b => a.1 < b.1)) : (insertCell i v l).Pairwise (fun a b => a.1 < b.1) := by
  induction l with
  | nil => simp [insertCell]
  | cons q rest ih =>
    obtain ⟨hq, hr⟩ := List.pairwise_cons.1 h
    simp only [insertCell]
    split_ifs with h1 h2
    · refine List.pairwise_cons.2 ⟨fun p hp => ?_, h⟩
      rcases List.mem_cons.1 hp with rfl | hp
      · exact h1
      · exact Nat.lt_trans h1 (hq p hp)
    · exact List.pairwise_cons.2 ⟨fun p hp => h2 ▸ hq p hp, hr⟩
    · refine List.pairwise_cons.2 ⟨fun p hp => ?_, ih hr⟩
      rcases fst_mem_insertCell hp with rfl | hp
      · omega
      · exact hq p hp

/-! ## One element -/

@[simp] theorem Memory.lookup_unwritten (i : Nat) : Memory.unwritten.lookup i = none := rfl

@[simp] theorem Memory.read_unwritten (fill : Nat → BitVec 16) (i : Nat) : Memory.unwritten.read fill i = fill i := rfl

theorem Memory.unwritten_wf : Memory.unwritten.wf := List.Pairwise.nil

/-- The three memories of `State.reset` have the canonical form. -/
theorem State.reset_memories_wf : State.reset.fifo.mem.wf ∧ State.reset.capBuf.wf ∧ State.reset.pbBuf.wf :=
  ⟨Memory.unwritten_wf, Memory.unwritten_wf, Memory.unwritten_wf⟩

/-- What an element reads as right after a write: only the element written changes (R16). -/
@[simp] theorem Memory.lookup_write (m : Memory) (i j : Nat) (v : BitVec 16) :
    (m.write i v).lookup j = if j = i then some v else m.lookup j := lookupCell_insertCell i j v m.cells

@[simp] theorem Memory.read_write (fill : Nat → BitVec 16) (m : Memory) (i j : Nat) (v : BitVec 16) :
    (m.write i v).read fill j = if j = i then v else m.read fill j := by
  simp only [Memory.read, Memory.lookup_write]; split_ifs <;> rfl

/-- A write keeps the canonical form. -/
theorem Memory.write_wf {m : Memory} (h : m.wf) (i : Nat) (v : BitVec 16) : (m.write i v).wf := insertCell_rising h

theorem lookupCell_of_forall_ne {i : Nat} {l : List (Nat × BitVec 16)} (h : ∀ p ∈ l, p.1 ≠ i) : lookupCell i l = none := by
  induction l with
  | nil => rfl
  | cons q rest ih =>
    simp only [lookupCell]
    rw [if_neg (fun e => h q List.mem_cons_self e.symm)]
    exact ih fun p hp => h p (List.mem_cons_of_mem _ hp)

/-- In canonical form the elements say what the list is: equal memories are equal data. -/
theorem Memory.ext_of_wf {m n : Memory} (hm : m.wf) (hn : n.wf) (h : ∀ i, m.lookup i = n.lookup i) : m = n := by
  obtain ⟨a⟩ := m
  obtain ⟨b⟩ := n
  simp only [Memory.wf, Memory.lookup, Memory.mk.injEq] at *
  induction a generalizing b with
  | nil =>
    cases b with
    | nil => rfl
    | cons q r => exact absurd (h q.1) (by simp [lookupCell])
  | cons p a ih =>
    cases b with
    | nil => exact absurd (h p.1) (by simp [lookupCell])
    | cons q b =>
      obtain ⟨hp, ha⟩ := List.pairwise_cons.1 hm
      obtain ⟨hq, hb⟩ := List.pairwise_cons.1 hn
      have key : p.1 = q.1 := by
        by_contra hne
        rcases Nat.lt_or_gt_of_ne hne with hlt | hgt
        · have := h p.1
          simp only [lookupCell, if_neg hne, if_true] at this
          rw [lookupCell_of_forall_ne fun x hx => by have := hq x hx; omega] at this
          simp at this
        · have := h q.1
          simp only [lookupCell, if_neg (Ne.symm hne), if_true] at this
          rw [lookupCell_of_forall_ne fun x hx => by have := hp x hx; omega] at this
          simp at this
      have hv : p.2 = q.2 := by
        have := h p.1
        simpa [lookupCell, key] using this
      have hpq : p = q := Prod.ext key hv
      subst hpq
      congr 1
      refine ih ha b hb fun i => ?_
      by_cases hi : i = p.1
      · rw [lookupCell_of_forall_ne fun x hx => by have := hp x hx; omega,
          lookupCell_of_forall_ne fun x hx => by have := hq x hx; omega]
      · have := h i
        simpa [lookupCell, hi] using this

/-- Two writes to different elements commute, in canonical form. -/
theorem Memory.write_comm {m : Memory} (hm : m.wf) {i j : Nat} (h : i ≠ j) (u v : BitVec 16) :
    (m.write i u).write j v = (m.write j v).write i u := by
  refine Memory.ext_of_wf (write_wf (write_wf hm _ _) _ _) (write_wf (write_wf hm _ _) _ _) fun k => ?_
  simp only [Memory.lookup_write]
  split_ifs <;> first | rfl | omega

/-! ## Several elements -/

/-- `memRead` depends only on the elements it reads. -/
theorem memRead_congr {fill : Nat → BitVec 16} {m m' : Memory} {i n : Nat}
    (h : ∀ k < n, m.read fill (i + k) = m'.read fill (i + k)) : memRead fill m i n = memRead fill m' i n := by
  refine List.map_congr_left fun k hk => h k (List.mem_range.1 hk)

@[simp] theorem memRead_length (fill : Nat → BitVec 16) (m : Memory) (i n : Nat) : (memRead fill m i n).length = n := by
  simp [memRead]

end Sys2Proof.Machine
end

