-- ==== Sys2Proof/Laws/Fifo.lean ====
section
/-!
SUPPORT. What the FIFO functions do (`40_ringfifo.md`), one lemma for each.
-/
namespace Sys2Proof.Machine

/-- Indices less than a whole turn apart are different slots of the ring. -/
theorem ring_injective {cap start i j : Nat} (hi : i < cap) (hj : j < cap) (h : (start + i) % cap = (start + j) % cap) : i = j := by
  have h' : i ≡ j [MOD cap] := Nat.ModEq.add_left_cancel' start h
  rwa [Nat.ModEq, Nat.mod_eq_of_lt hi, Nat.mod_eq_of_lt hj] at h'

/-! ## The ring write -/

theorem lookup_ringWrite_of_ne {cap start : Nat} (xs : List Sample) :
    ∀ (k : Nat) (m : Memory) (j : Nat), (∀ i < xs.length, (start + (k + i)) % cap ≠ j) →
      (ringWrite cap start k xs m).lookup j = m.lookup j := by
  induction xs with
  | nil => intro k m j _; rfl
  | cons x xs ih =>
    intro k m j h
    simp only [ringWrite]
    rw [ih (k + 1) _ j fun i hi => by have := h (i + 1) (by simp [hi]); rwa [show k + 1 + i = k + (i + 1) by omega]]
    rw [Memory.lookup_write, if_neg]
    have := h 0 (by simp)
    simpa [eq_comm] using this

theorem lookup_ringWrite_of_lt {cap start : Nat} (xs : List Sample) :
    ∀ (k : Nat) (m : Memory) (i : Nat), k + xs.length ≤ cap → (hi : i < xs.length) →
      (ringWrite cap start k xs m).lookup ((start + (k + i)) % cap) = some xs[i] := by
  induction xs with
  | nil => intro k m i _ hi; simp at hi
  | cons x xs ih =>
    intro k m i hk hi
    simp only [List.length_cons] at hk hi
    simp only [ringWrite]
    cases i with
    | zero =>
      rw [lookup_ringWrite_of_ne xs (k + 1) _ _ fun i hi' h => by
        have := ring_injective (cap := cap) (start := start) (by omega) (by omega) h
        omega]
      simp
    | succ i =>
      have := ih (k + 1) (m.write ((start + k) % cap) x) i (by omega) (by omega)
      rw [show k + (i + 1) = k + 1 + i by omega]
      simpa using this

theorem ringWrite_wf {cap start : Nat} (xs : List Sample) :
    ∀ (k : Nat) (m : Memory), m.wf → (ringWrite cap start k xs m).wf := by
  induction xs with
  | nil => intro k m h; exact h
  | cons x xs ih => intro k m h; exact ih _ _ (Memory.write_wf h _ _)

/-- Every index a ring write lists was listed before or is below the capacity. -/
theorem lookup_ringWrite_ne_none {cap start : Nat} (hc : 0 < cap) (xs : List Sample) :
    ∀ (k : Nat) (m : Memory) (j : Nat), (ringWrite cap start k xs m).lookup j ≠ none → m.lookup j ≠ none ∨ j < cap := by
  induction xs with
  | nil => intro k m j h; exact .inl h
  | cons x xs ih =>
    intro k m j h
    rcases ih _ _ j h with h | h
    · rw [Memory.lookup_write] at h
      split_ifs at h with e
      · exact .inr (e ▸ Nat.mod_lt _ hc)
      · exact .inl h
    · exact .inr h

/-- A ring write only adds to what is listed. -/
theorem lookup_ringWrite_of_listed {cap start : Nat} (xs : List Sample) :
    ∀ (k : Nat) (m : Memory) (j : Nat), m.lookup j ≠ none → (ringWrite cap start k xs m).lookup j ≠ none := by
  induction xs with
  | nil => intro k m j h; exact h
  | cons x xs ih =>
    intro k m j h
    refine ih _ _ j ?_
    rw [Memory.lookup_write]
    split_ifs <;> simp_all

/-! ## `F_write` and `F_read` -/

/-- `F_write` (R111): full, it answers `Full`; otherwise the sample is stored at the write cursor and the cursor and the count move. -/
theorem Fifo.write_cases {cap : Nat} {f : Fifo} (v : Sample) (hc : 1 ≤ cap ∧ cap ≤ 65535) (hcount : f.count.toNat ≤ cap) :
    (f.count.toNat = cap ∧ f.write cap v = none) ∨
    ∃ f', f.count.toNat < cap ∧ f.write cap v = some f' ∧ f'.mem = f.mem.write f.wr.toNat v ∧ f'.rd = f.rd ∧
      f'.wr.toNat = (f.wr.toNat + 1) % cap ∧ f'.count.toNat = f.count.toNat + 1 := by
  by_cases h : f.count.toNat = cap
  · exact .inl ⟨h, by simp [Fifo.write, h]⟩
  · refine .inr ⟨_, by omega, if_neg h, rfl, rfl, ?_, ?_⟩
    · have := Nat.mod_lt (f.wr.toNat + 1) (show 0 < cap by omega)
      simp only [BitVec.toNat_ofNat]
      omega
    · simp only [BitVec.toNat_ofNat]
      omega

/-- `F_read` (R112): empty, it answers `Empty`; otherwise it answers the sample at the read cursor, and the cursor and the count move. -/
theorem Fifo.read_cases {cap : Nat} (fill : Nat → Sample) {f : Fifo} (hc : 1 ≤ cap ∧ cap ≤ 65535) :
    (f.count.toNat = 0 ∧ f.read cap fill = none) ∨
    ∃ f', 0 < f.count.toNat ∧ f.read cap fill = some (f.mem.read fill f.rd.toNat, f') ∧ f'.mem = f.mem ∧ f'.wr = f.wr ∧
      f'.rd.toNat = (f.rd.toNat + 1) % cap ∧ f'.count.toNat = f.count.toNat - 1 := by
  by_cases h : f.count.toNat = 0
  · exact .inl ⟨h, by simp [Fifo.read, h]⟩
  · refine .inr ⟨_, by omega, if_neg h, rfl, rfl, ?_, ?_⟩
    · have := Nat.mod_lt (f.rd.toNat + 1) (show 0 < cap by omega)
      simp only [BitVec.toNat_ofNat]
      omega
    · have := f.count.isLt
      simp only [BitVec.toNat_ofNat]
      omega

/-! ## `F_write_block` and `F_read_block` -/

@[simp] theorem Fifo.writeBlock_fst (cap : Nat) (f : Fifo) (xs : List Sample) :
    (f.writeBlock cap xs).1 = min xs.length (cap - f.count.toNat) := rfl

@[simp] theorem Fifo.writeBlock_rd (cap : Nat) (f : Fifo) (xs : List Sample) : (f.writeBlock cap xs).2.rd = f.rd := rfl

theorem Fifo.writeBlock_wr {cap : Nat} (f : Fifo) (xs : List Sample) (hc : 1 ≤ cap ∧ cap ≤ 65535) :
    (f.writeBlock cap xs).2.wr.toNat = (f.wr.toNat + min xs.length (cap - f.count.toNat)) % cap := by
  have := Nat.mod_lt (f.wr.toNat + min xs.length (cap - f.count.toNat)) (show 0 < cap by omega)
  simp only [Fifo.writeBlock, BitVec.toNat_ofNat]
  omega

theorem Fifo.writeBlock_count {cap : Nat} {f : Fifo} (xs : List Sample) (hc : 1 ≤ cap ∧ cap ≤ 65535)
    (hcount : f.count.toNat ≤ cap) :
    (f.writeBlock cap xs).2.count.toNat = f.count.toNat + min xs.length (cap - f.count.toNat) := by
  simp only [Fifo.writeBlock, BitVec.toNat_ofNat]
  omega

/-- The elements a block write stores (R113): the first samples, at consecutive slots of the ring. -/
theorem Fifo.writeBlock_lookup_of_lt {cap : Nat} {f : Fifo} (xs : List Sample) (i : Nat)
    (hi : i < min xs.length (cap - f.count.toNat)) :
    (f.writeBlock cap xs).2.mem.lookup ((f.wr.toNat + i) % cap) = some (xs[i]'(by omega)) := by
  have := lookup_ringWrite_of_lt (cap := cap) (start := f.wr.toNat) (xs.take (min xs.length (cap - f.count.toNat))) 0 f.mem i
    (by simp only [List.length_take]; omega) (by simp only [List.length_take]; omega)
  simpa [Fifo.writeBlock] using this

/-- Every other element keeps what it was. -/
theorem Fifo.writeBlock_lookup_of_ne {cap : Nat} {f : Fifo} (xs : List Sample) (j : Nat)
    (hj : ∀ i < min xs.length (cap - f.count.toNat), (f.wr.toNat + i) % cap ≠ j) :
    (f.writeBlock cap xs).2.mem.lookup j = f.mem.lookup j := by
  refine lookup_ringWrite_of_ne (cap := cap) (start := f.wr.toNat) _ 0 f.mem j fun i hi => ?_
  rw [Nat.zero_add]
  exact hj i (by simp at hi; omega)

theorem Fifo.writeBlock_wf {cap : Nat} {f : Fifo} (xs : List Sample) (h : f.mem.wf) : (f.writeBlock cap xs).2.mem.wf :=
  ringWrite_wf _ _ _ h

@[simp] theorem Fifo.readBlock_mem (cap : Nat) (fill : Nat → Sample) (f : Fifo) (n : Nat) :
    (f.readBlock cap fill n).2.mem = f.mem := rfl

@[simp] theorem Fifo.readBlock_wr (cap : Nat) (fill : Nat → Sample) (f : Fifo) (n : Nat) :
    (f.readBlock cap fill n).2.wr = f.wr := rfl

@[simp] theorem Fifo.readBlock_length (cap : Nat) (fill : Nat → Sample) (f : Fifo) (n : Nat) :
    (f.readBlock cap fill n).1.length = min n f.count.toNat := by simp [Fifo.readBlock]

/-- The samples a block read answers are the oldest of the logical content (R114). -/
theorem Fifo.readBlock_fst (cap : Nat) (fill : Nat → Sample) (f : Fifo) (n : Nat) :
    (f.readBlock cap fill n).1 = (f.content cap fill).take n := by
  simp only [Fifo.readBlock, Fifo.content, ← List.map_take, List.take_range]

theorem Fifo.readBlock_rd {cap : Nat} (fill : Nat → Sample) (f : Fifo) (n : Nat) (hc : 1 ≤ cap ∧ cap ≤ 65535) :
    (f.readBlock cap fill n).2.rd.toNat = (f.rd.toNat + min n f.count.toNat) % cap := by
  have := Nat.mod_lt (f.rd.toNat + min n f.count.toNat) (show 0 < cap by omega)
  simp only [Fifo.readBlock, BitVec.toNat_ofNat]
  omega

theorem Fifo.readBlock_count (cap : Nat) (fill : Nat → Sample) (f : Fifo) (n : Nat) :
    (f.readBlock cap fill n).2.count.toNat = f.count.toNat - min n f.count.toNat := by
  have := f.count.isLt
  simp only [Fifo.readBlock, BitVec.toNat_ofNat]
  omega

@[simp] theorem Fifo.content_length (cap : Nat) (fill : Nat → Sample) (f : Fifo) :
    (f.content cap fill).length = f.count.toNat := by simp [Fifo.content]

end Sys2Proof.Machine
end

