-- ==== Sys2Proof/Laws/PerInstr.lean ====
section
/-!
SUPPORT. Laws stated for each operation of the opcode table, one lemma per constructor.
-/
namespace Sys2Proof.Laws.EncodeInRow

/-- The lowest of the fixed bits, and their value, in the operation's row of `opcode_table.json` (R92). -/
def row : Instr → Nat × Nat
  | .sysReset => (0, 16777216)
  | .sysStart _ => (1, 16777216)
  | .sysRdstat _ => (16, 768)
  | .fifoInit => (0, 268435456)
  | .fifoWrite _ => (16, 4352)
  | .fifoRead => (0, 301989888)
  | .fifoWrblk _ => (16, 4864)
  | .fifoRdblk _ => (16, 5120)
  | .capDma _ => (16, 8192)
  | .evCapHalf => (0, 553648128)
  | .evCapFull => (0, 570425344)
  | .svcCap0 => (0, 587202560)
  | .svcCap1 => (0, 603979776)
  | .pbDma => (0, 805306368)
  | .evPbHalf => (0, 822083584)
  | .evPbFull => (0, 838860800)
  | .svcPb0 => (0, 855638016)
  | .svcPb1 => (0, 872415232)
  | .pollCap => (0, 1073741824)
  | .pollPb => (0, 1090519040)

/-- The word of an operation carries the fixed bits of its row. -/
def Statement (i : Instr) : Prop := (encode i).toNat / 2 ^ (row i).1 = (row i).2

/-- The words of format I: the sixteen high bits are fixed. -/
theorem of_mkWord (u f : BitVec 4) (imm : Imm) (n : Nat) (h : u.toNat * 2 ^ 12 + f.toNat * 2 ^ 8 = n) :
    (mkWord u f imm).toNat / 2 ^ 16 = n := by
  have hi := imm.isLt
  rw [mkWord_toNat]
  omega

theorem sysReset : Statement .sysReset := rfl
theorem sysStart (ok : Bool) : Statement (.sysStart ok) := by cases ok <;> rfl
theorem sysRdstat (r : Imm) : Statement (.sysRdstat r) := of_mkWord _ _ _ _ rfl
theorem fifoInit : Statement .fifoInit := rfl
theorem fifoWrite (v : Sample) : Statement (.fifoWrite v) := of_mkWord _ _ _ _ rfl
theorem fifoRead : Statement .fifoRead := rfl
theorem fifoWrblk (n : Imm) : Statement (.fifoWrblk n) := of_mkWord _ _ _ _ rfl
theorem fifoRdblk (n : Imm) : Statement (.fifoRdblk n) := of_mkWord _ _ _ _ rfl
theorem capDma (w : Raw) : Statement (.capDma w) := of_mkWord _ _ _ _ rfl
theorem evCapHalf : Statement .evCapHalf := rfl
theorem evCapFull : Statement .evCapFull := rfl
theorem svcCap0 : Statement .svcCap0 := rfl
theorem svcCap1 : Statement .svcCap1 := rfl
theorem pbDma : Statement .pbDma := rfl
theorem evPbHalf : Statement .evPbHalf := rfl
theorem evPbFull : Statement .evPbFull := rfl
theorem svcPb0 : Statement .svcPb0 := rfl
theorem svcPb1 : Statement .svcPb1 := rfl
theorem pollCap : Statement .pollCap := rfl
theorem pollPb : Statement .pollPb := rfl

end Sys2Proof.Laws.EncodeInRow
end

