-- ==== Sys2Proof/Laws/Playback.lean ====
section
/-!
SUPPORT. What the loops of a playback service do to the buffer and to the FIFO (R155, R156).
-/
namespace Sys2Proof.Machine

/-! ## Fanning out one sample -/

/-- One sample's fan-out writes it to the slots of the offsets and to no other slot. -/
theorem lookup_fanOut (group : Nat) (v : Sample) (os : List Nat) (j : Nat) :
    ∀ m : Memory, (fanOut group v os m).lookup j = if ∃ o ∈ os, j = group + o then some v else m.lookup j := by
  induction os with
  | nil => intro m; simp [fanOut]
  | cons o os ih =>
    intro m
    rw [fanOut, ih, Memory.lookup_write]
    by_cases h : ∃ o' ∈ os, j = group + o'
    · have h' : ∃ o' ∈ o :: os, j = group + o' := by obtain ⟨o', ho, e⟩ := h; exact ⟨o', List.mem_cons_of_mem _ ho, e⟩
      rw [if_pos h, if_pos h']
    · rw [if_neg h]
      by_cases e : j = group + o
      · rw [if_pos e, if_pos ⟨o, List.mem_cons_self, e⟩]
      · rw [if_neg e, if_neg]
        rintro ⟨o', ho, e'⟩
        rcases List.mem_cons.1 ho with rfl | ho
        · exact e e'
        · exact h ⟨o', ho, e'⟩

theorem fanOut_wf (group : Nat) (v : Sample) (os : List Nat) : ∀ m : Memory, m.wf → (fanOut group v os m).wf := by
  induction os with
  | nil => intro m h; exact h
  | cons o os ih => intro m h; exact ih _ (Memory.write_wf h _ _)

/-! ## The refill loop -/

/-- The FIFO after popping `n` samples one at a time: `n` samples fewer, the storage and the write cursor as they were. -/
theorem refill_fifo {c : Config} (fill : Nat → Sample) (base : Nat) (hc : 1 ≤ c.fifoCap ∧ c.fifoCap ≤ 65535) :
    ∀ (n k : Nat) (f : Fifo) (m : Memory), n ≤ f.count.toNat → (0 < n → f.rd.toNat < c.fifoCap) →
      (refill c fill base n k f m).1.mem = f.mem ∧ (refill c fill base n k f m).1.wr = f.wr ∧
      (refill c fill base n k f m).1.count.toNat = f.count.toNat - n ∧
      (0 < n → (refill c fill base n k f m).1.rd.toNat = (f.rd.toNat + n) % c.fifoCap) := by
  intro n
  induction n with
  | zero => intro k f m _ _; simp [refill]
  | succ n ih =>
    intro k f m hn hrd
    rcases Fifo.read_cases fill (f := f) hc with ⟨h0, _⟩ | ⟨f', _, hread, hmem, hwr, hrd', hcount⟩
    · omega
    · simp only [refill, hread]
      have hlt : f'.rd.toNat < c.fifoCap := by rw [hrd']; exact Nat.mod_lt _ (by omega)
      obtain ⟨h1, h2, h3, h4⟩ := ih (k + 1) f' (fanOut (base + k * c.pbStride) (f.mem.read fill f.rd.toNat) c.pbOffsets m)
        (by omega) (fun _ => hlt)
      refine ⟨h1.trans hmem, h2.trans hwr, by omega, fun _ => ?_⟩
      rcases Nat.eq_zero_or_pos n with rfl | hpos
      · simpa [refill] using hrd'
      · rw [h4 hpos, hrd', Nat.mod_add_mod]
        congr 1
        omega

/-- A slot no group reaches keeps its content. -/
theorem lookup_refill_of_ne {c : Config} (fill : Nat → Sample) (base j : Nat) :
    ∀ (n k : Nat) (f : Fifo) (m : Memory), (∀ i < n, ∀ o ∈ c.pbOffsets, j ≠ base + (k + i) * c.pbStride + o) →
      (refill c fill base n k f m).2.lookup j = m.lookup j := by
  intro n
  induction n with
  | zero => intro k f m _; rfl
  | succ n ih =>
    intro k f m h
    simp only [refill]
    split
    · rfl
    · rename_i v f' _
      rw [ih (k + 1) f' _ fun i hi o ho => by
        have := h (i + 1) (by omega) o ho
        rwa [show k + 1 + i = k + (i + 1) by omega]]
      rw [lookup_fanOut, if_neg]
      rintro ⟨o, ho, e⟩
      exact h 0 (by omega) o ho (by simpa using e)

/-- The k-th sample popped is in every slot of its group (R156). -/
theorem lookup_refill_of_group {c : Config} (fill : Nat → Sample) (base : Nat) (hc : 1 ≤ c.fifoCap ∧ c.fifoCap ≤ 65535)
    (hS : ∀ o ∈ c.pbOffsets, o < c.pbStride) :
    ∀ (n k : Nat) (f : Fifo) (m : Memory), n ≤ f.count.toNat → f.rd.toNat < c.fifoCap → ∀ i < n, ∀ o ∈ c.pbOffsets,
      (refill c fill base n k f m).2.lookup (base + (k + i) * c.pbStride + o) =
        some (f.mem.read fill ((f.rd.toNat + i) % c.fifoCap)) := by
  intro n
  induction n with
  | zero => intro k f m _ _ i hi; omega
  | succ n ih =>
    intro k f m hn hrd i hi o ho
    rcases Fifo.read_cases fill (f := f) hc with ⟨h0, _⟩ | ⟨f', _, hread, hmem, hwr, hrd', hcount⟩
    · omega
    · simp only [refill, hread]
      have hlt : f'.rd.toNat < c.fifoCap := by rw [hrd']; exact Nat.mod_lt _ (by omega)
      cases i with
      | zero =>
        rw [lookup_refill_of_ne fill base _ n (k + 1) f' _ fun i hi o' ho' e => by
          have h1 := hS o ho
          have h2 := hS o' ho'
          have : (k + 1 + i) * c.pbStride = k * c.pbStride + c.pbStride + i * c.pbStride := by ring
          simp only [Nat.add_zero] at e
          omega]
        rw [lookup_fanOut, if_pos ⟨o, ho, rfl⟩]
        simp [Nat.mod_eq_of_lt hrd]
      | succ i =>
        have := ih (k + 1) f' (fanOut (base + k * c.pbStride) (f.mem.read fill f.rd.toNat) c.pbOffsets m) (by omega) hlt i
          (by omega) o ho
        rw [show k + (i + 1) = k + 1 + i by omega, this, hmem, hrd', Nat.mod_add_mod]
        congr 3
        omega

theorem refill_wf {c : Config} (fill : Nat → Sample) (base : Nat) :
    ∀ (n k : Nat) (f : Fifo) (m : Memory), m.wf → (refill c fill base n k f m).2.wf := by
  intro n
  induction n with
  | zero => intro k f m h; exact h
  | succ n ih =>
    intro k f m h
    simp only [refill]
    split
    · exact h
    · exact ih _ _ _ (fanOut_wf _ _ _ _ h)

/-! ## Silence -/

/-- Silencing writes zero to its slots and to no other slot (R155). -/
theorem lookup_silenceSlots (j : Nat) :
    ∀ (n base : Nat) (m : Memory),
      (silenceSlots base n m).lookup j = if base ≤ j ∧ j < base + n then some 0#16 else m.lookup j := by
  intro n
  induction n with
  | zero => intro base m; rw [if_neg (by omega)]; rfl
  | succ n ih =>
    intro base m
    rw [silenceSlots, ih, Memory.lookup_write]
    split_ifs <;> first | rfl | omega

theorem silenceSlots_wf : ∀ (n base : Nat) (m : Memory), m.wf → (silenceSlots base n m).wf := by
  intro n
  induction n with
  | zero => intro base m h; exact h
  | succ n ih => intro base m h; exact ih _ _ (Memory.write_wf h _ _)

end Sys2Proof.Machine
end

