-- ==== Sys2Proof/Laws/Step.lean ====
section
/-!
SUPPORT. What issuing an operation, executing one and one step can do, said once: every later proof takes its cases from here.
-/
namespace Sys2Proof.Machine

/-! ## Issuing (R206, R207, R208) -/

section Issue

variable {s t u : State} {legal en inR : Bool}

/-- An issued operation answers a next state in three ways: refused by code as illegal, refused by code as not enabled, or
executed. -/
theorem issue_next (h : issue s legal en inR t = .next u) :
    configLegal s.cfg = true ∧
      ((legal = false ∧ u = s.respond .illegalCommand 0#32) ∨
       (legal = true ∧ en = false ∧ u = s.respond .notEnabled 0#32) ∨
       (legal = true ∧ en = true ∧ inR = true ∧ u = t)) := by
  unfold issue at h
  split_ifs at h <;> simp_all

theorem issue_of_illegal (hc : configLegal s.cfg = true) (hl : legal = false) :
    issue s legal en inR t = .next (s.respond .illegalCommand 0#32) := by simp [issue, hc, hl]

theorem issue_of_not_enabled (hc : configLegal s.cfg = true) (hl : legal = true) (he : en = false) :
    issue s legal en inR t = .next (s.respond .notEnabled 0#32) := by simp [issue, hc, hl, he]

theorem issue_of_enabled (hc : configLegal s.cfg = true) (hl : legal = true) (he : en = true) (hr : inR = true) :
    issue s legal en inR t = .next t := by simp [issue, hc, hl, he, hr]

end Issue

/-! ## The state after an executed operation -/

/-- The effect of each operation, without its conditions. -/
def effectOf (i : Instr) (s : State) : State :=
  match i with
  | .sysReset => s.resetBlock.respond .ok 0#32
  | .sysStart ok => startBlock ok s
  | .sysRdstat r => s.respond .ok (statusReg s r.toNat)
  | .fifoInit => { s with fifo := s.fifo.init }.respond .ok 0#32
  | .fifoWrite v => writeSample v s
  | .fifoRead => readSample s
  | .fifoWrblk n => writeSamples n.toNat s
  | .fifoRdblk n => readSamples n.toNat s
  | .capDma w => captureStep w s
  | .evCapHalf => captureEvent .first s
  | .evCapFull => captureEvent .second s
  | .svcCap0 => captureService .first s
  | .svcCap1 => captureService .second s
  | .pbDma => playbackStep s
  | .evPbHalf => playbackEvent .first s
  | .evPbFull => playbackEvent .second s
  | .svcPb0 => playbackService .first s
  | .svcPb1 => playbackService .second s
  | .pollCap => pollCapture s
  | .pollPb => pollPlayback s

/-- The element indices an operation uses as they stand are inside their memories (R63). -/
def indicesInside (i : Instr) (s : State) : Bool :=
  match i with
  | .fifoWrite _ => decide (s.fifo.count.toNat = s.cfg.fifoCap ∨ s.fifo.wr.toNat < s.cfg.fifoCap)
  | .fifoRead => decide (s.fifo.count.toNat = 0 ∨ s.fifo.rd.toNat < s.cfg.fifoCap)
  | .capDma _ => decide (s.cap.pos < 2 * s.cfg.capHalf)
  | .pbDma => decide (s.pb.pos < 2 * s.cfg.pbHalf)
  | .svcPb0 => popInRange s
  | .svcPb1 => popInRange s
  | .sysReset => true
  | .sysStart _ => true
  | .sysRdstat _ => true
  | .fifoInit => true
  | .fifoWrblk _ => true
  | .fifoRdblk _ => true
  | .evCapHalf => true
  | .evCapFull => true
  | .svcCap0 => true
  | .svcCap1 => true
  | .evPbHalf => true
  | .evPbFull => true
  | .pollCap => true
  | .pollPb => true

theorem decide_eq_beq_sys (a b : SysState) : decide (a = b) = (a == b) := by cases a <;> cases b <;> rfl

theorem decide_eq_beq_job (a b : SchedJob) : decide (a = b) = (a == b) := by cases a <;> cases b <;> rfl

theorem decide_eq_beq_phase (a b : SchedPhase) : decide (a = b) = (a == b) := by cases a <;> cases b <;> rfl

/-- Every operation is issued with the enable condition of the table of R95. -/
theorem exec_eq_issue (i : Instr) (s : State) :
    exec i s = issue s (i.wellFormed s.cfg.rawW) (enabled i s) (indicesInside i s) (effectOf i s) := by
  cases i <;>
    simp only [exec, execSysReset, execSysStart, execSysRdstat, execFifoInit, execFifoWrite, execFifoRead, execFifoWrblk,
      execFifoRdblk, execCapDma, execEvCapHalf, execEvCapFull, execSvcCap0, execSvcCap1, execPbDma, execEvPbHalf, execEvPbFull,
      execSvcPb0, execSvcPb1, execPollCap, execPollPb, enabled, indicesInside, effectOf, Instr.wellFormed, registerExists,
      rawFits, dinHolds, hostMayUseFifo, Channel.pend, decide_eq_beq_sys, decide_eq_beq_job, decide_eq_beq_phase]

/-- What executing an operation can do: it is refused by code and nothing but the result changes, or it has its effect. -/
theorem exec_cases {i : Instr} {s t : State} (h : exec i s = .next t) :
    configLegal s.cfg = true ∧
      ((i.wellFormed s.cfg.rawW = false ∧ t = s.respond .illegalCommand 0#32) ∨
       (i.wellFormed s.cfg.rawW = true ∧ enabled i s = false ∧ t = s.respond .notEnabled 0#32) ∨
       (i.wellFormed s.cfg.rawW = true ∧ enabled i s = true ∧ indicesInside i s = true ∧ t = effectOf i s)) :=
  issue_next ((exec_eq_issue i s).symm.trans h)

/-- An operation whose conditions hold has its effect. -/
theorem exec_of_enabled {i : Instr} {s : State} (hc : configLegal s.cfg = true) (hl : i.wellFormed s.cfg.rawW = true)
    (he : enabled i s = true) (hr : indicesInside i s = true) : exec i s = .next (effectOf i s) :=
  (exec_eq_issue i s).trans (issue_of_enabled hc hl he hr)

/-! ## One step -/

/-- What one step can do: the next command is taken off the schedule, and it is an operation, executed, or an illegal word,
answered by its code. -/
theorem step_cases {s t : State} (h : step s = .next t) :
    (∃ i, decode s.cfg.rawW s.nextCommand.word = .ok i ∧ exec i s.takeCommand = .next t) ∨
    (configLegal s.cfg = true ∧ (∃ e, decode s.cfg.rawW s.nextCommand.word = .error e) ∧
      t = s.takeCommand.respond .illegalCommand 0#32) := by
  simp only [step, execWord, State.takeCommand_cfg] at h
  split at h
  · exact .inl ⟨_, ‹_›, h⟩
  · obtain ⟨hc, h | h | h⟩ := issue_next h
    · exact .inr ⟨by simpa using hc, ⟨_, ‹_›⟩, h.2⟩
    · exact absurd h.1 (by simp)
    · exact absurd h.1 (by simp)

/-- An invariant of the issued effects is an invariant of every step: it is enough that it survives a response by code alone
(with the schedule and `din` in any state) and the effect of every well-formed enabled operation. -/
theorem step_induction {P : State → Prop}
    (htake : ∀ s, P s → P s.takeCommand)
    (hrefuse : ∀ s code val, configLegal s.cfg = true → P s → P (s.respond code val))
    (heffect : ∀ i s, configLegal s.cfg = true → i.wellFormed s.cfg.rawW = true → enabled i s = true →
      indicesInside i s = true → P s → P (effectOf i s))
    {s t : State} (hs : P s) (h : step s = .next t) : P t := by
  rcases step_cases h with ⟨i, _, hi⟩ | ⟨hc, _, rfl⟩
  · obtain ⟨hc, ⟨_, rfl⟩ | ⟨_, _, rfl⟩ | ⟨hl, he, hr, rfl⟩⟩ := exec_cases hi
    · exact hrefuse _ _ _ hc (htake s hs)
    · exact hrefuse _ _ _ hc (htake s hs)
    · exact heffect i _ hc hl he hr (htake s hs)
  · exact hrefuse _ _ _ (by simpa using hc) (htake s hs)

end Sys2Proof.Machine
end

