-- ==== Sys2Proof/Laws/Services.lean ====
section
/-!
SUPPORT. What the effects built over the shared operations do, each said once: the single FIFO operations, the services of
the two channels, and the DMA steps.
-/
namespace Sys2Proof.Machine

/-! ## The single FIFO operations (R111, R112) -/

/-- `FIFO.WRITE` is `Full` and only answers, or replaces the FIFO by what `F_write` gives. -/
theorem writeSample_cases (v : Sample) (s : State) :
    (s.fifo.write s.cfg.fifoCap v = none ∧ writeSample v s = s.respond .full 0#32) ∨
    ∃ f, s.fifo.write s.cfg.fifoCap v = some f ∧ writeSample v s = { s with fifo := f }.respond .ok 0#32 := by
  unfold writeSample
  cases h : s.fifo.write s.cfg.fifoCap v with
  | none => exact .inl ⟨rfl, rfl⟩
  | some f => exact .inr ⟨f, rfl, rfl⟩

/-- `FIFO.READ` is `Empty` and only answers, or answers the sample `F_read` gives and replaces the FIFO. -/
theorem readSample_cases (s : State) :
    (s.fifo.read s.cfg.fifoCap s.fifoFill = none ∧ readSample s = s.respond .empty 0#32) ∨
    ∃ v f, s.fifo.read s.cfg.fifoCap s.fifoFill = some (v, f) ∧
      readSample s = { s with fifo := f }.respond .ok (v.setWidth 32) := by
  unfold readSample
  cases h : s.fifo.read s.cfg.fifoCap s.fifoFill with
  | none => exact .inl ⟨rfl, rfl⟩
  | some p => exact .inr ⟨p.1, p.2, rfl, rfl⟩

/-! ## The capture service (R135) -/

/-- The batch a capture service pushes: the half through `Decimate` and `Hook`. -/
def serviceBatch (h : Half) (s : State) : List Sample :=
  (hookCall s.cfg s.hook (decimate s.cfg s.filt (rawHalf h s)).2).2

theorem serviceBatch_length {s : State} (hc : configLegal s.cfg = true) (h : Half) :
    (serviceBatch h s).length = s.cfg.capBatch := hookCall_length hc _ _

/-- Everything a capture service does, as one update. -/
theorem captureService_eq (h : Half) (s : State) (hc : configLegal s.cfg = true) :
    captureService h s =
      let w := min s.cfg.capBatch (s.cfg.fifoCap - s.fifo.count.toNat)
      { s with
        filt := (decimate s.cfg s.filt (rawHalf h s)).1
        hook := (hookCall s.cfg s.hook (decimate s.cfg s.filt (rawHalf h s)).2).1
        fifo := (s.fifo.writeBlock s.cfg.fifoCap (serviceBatch h s)).2
        job := .none
        ovrEvents := if w < s.cfg.capBatch then satInc s.ovrEvents 1 else s.ovrEvents
        ovrSamples := if w < s.cfg.capBatch then satInc s.ovrSamples (s.cfg.capBatch - w) else s.ovrSamples
        result := if w < s.cfg.capBatch then ⟨.overrun, BitVec.ofNat 32 (s.cfg.capBatch - w)⟩
          else ⟨.ok, BitVec.ofNat 32 s.cfg.capBatch⟩ } := by
  have hl := serviceBatch_length hc h
  simp only [captureService, Fifo.writeBlock_fst, State.respond]
  simp only [serviceBatch] at *
  simp only [hl]
  split_ifs <;> rfl

/-- A capture service stores only in the free elements from the write cursor on, as many as it has samples. -/
theorem captureService_lookup_of_ne {s : State} (hc : configLegal s.cfg = true) (h : Half) (j : Nat)
    (hj : ∀ k < min s.cfg.capBatch (s.cfg.fifoCap - s.fifo.count.toNat), (s.fifo.wr.toNat + k) % s.cfg.fifoCap ≠ j) :
    (captureService h s).fifo.mem.lookup j = s.fifo.mem.lookup j := by
  rw [captureService_eq h s hc]
  exact Fifo.writeBlock_lookup_of_ne _ j (by rwa [serviceBatch_length hc])

/-! ## The playback service (R155) -/

/-- With a whole batch in the FIFO, a playback service refills its half. -/
theorem playbackService_of_enough (h : Half) {s : State} (hn : s.cfg.pbBatch ≤ s.fifo.count.toNat) :
    playbackService h s = { s with
      fifo := (refill s.cfg s.fifoFill (h.index * s.cfg.pbHalf) s.cfg.pbBatch 0 s.fifo s.pbBuf).1
      pbBuf := (refill s.cfg s.fifoFill (h.index * s.cfg.pbHalf) s.cfg.pbBatch 0 s.fifo s.pbBuf).2
      job := .none
      result := ⟨.ok, BitVec.ofNat 32 s.cfg.pbBatch⟩ } := by
  simp only [playbackService, if_pos hn]; rfl

/-- Starved, it leaves the FIFO alone and counts the underrun. -/
theorem playbackService_of_starved (h : Half) {s : State} (hn : s.fifo.count.toNat < s.cfg.pbBatch) :
    playbackService h s = { s with
      pbBuf := match s.cfg.onUnderrun with
        | .repeatLast => s.pbBuf
        | .silence => silenceSlots (h.index * s.cfg.pbHalf) s.cfg.pbHalf s.pbBuf
      job := .none
      undEvents := satInc s.undEvents 1
      result := ⟨.underrun, s.fifo.count.setWidth 32⟩ } := by
  simp only [playbackService, if_neg (Nat.not_le.2 hn)]; rfl

/-- A playback service writes no slot outside its half. -/
theorem playbackService_lookup_of_outside {s : State} (hc : configLegal s.cfg = true) (h : Half) (j : Nat)
    (hj : j < h.index * s.cfg.pbHalf ∨ (h.index + 1) * s.cfg.pbHalf ≤ j) :
    (playbackService h s).pbBuf.lookup j = s.pbBuf.lookup j := by
  have hh : (h.index + 1) * s.cfg.pbHalf = h.index * s.cfg.pbHalf + s.cfg.pbHalf := by ring
  rcases Nat.lt_or_ge s.fifo.count.toNat s.cfg.pbBatch with hn | hn
  · rw [playbackService_of_starved h hn]
    dsimp only
    split
    · rfl
    · rw [lookup_silenceSlots, if_neg (by omega)]
  · rw [playbackService_of_enough h hn]
    refine lookup_refill_of_ne _ _ _ _ _ _ _ fun i hi o ho => ?_
    have := group_slot_lt hc hi ho
    rw [Nat.zero_add]
    omega

/-- A playback service writes no element of the FIFO. -/
theorem playbackService_fifo_mem {s : State} (hc : configLegal s.cfg = true) (hp : popInRange s = true) (h : Half) :
    (playbackService h s).fifo.mem = s.fifo.mem := by
  rcases Nat.lt_or_ge s.fifo.count.toNat s.cfg.pbBatch with hn | hn
  · rw [playbackService_of_starved h hn]
  · rw [playbackService_of_enough h hn]
    have hrd : s.fifo.rd.toNat < s.cfg.fifoCap := by
      rcases of_decide_eq_true hp with h' | h'
      · omega
      · exact h'
    exact (refill_fifo _ _ (legal_fifoCap hc) _ _ _ _ hn fun _ => hrd).1

/-- A service of half `h` that may run has its effect. -/
theorem exec_captureService {s : State} {h : Half} (hc : configLegal s.cfg = true) (hs : s.sys = .running)
    (hj : s.job = jobOf .cap h) : exec (serviceInstr .cap h) s = .next (captureService h s) := by
  cases h <;> exact exec_of_enabled hc rfl (by simp [enabled, serviceInstr, hs, hj, jobOf]) rfl

theorem exec_playbackService {s : State} {h : Half} (hc : configLegal s.cfg = true) (hs : s.sys = .running)
    (hj : s.job = jobOf .pb h) (hp : popInRange s = true) :
    exec (serviceInstr .pb h) s = .next (playbackService h s) := by
  cases h <;> exact exec_of_enabled hc rfl (by simp [enabled, serviceInstr, hs, hj, jobOf]) hp

/-! ## The counters (R9) -/

theorem satInc_toNat (c : Word32) (k : Nat) : (satInc c k).toNat = min (c.toNat + k) (2 ^ 32 - 1) := by
  simp only [satInc, BitVec.toNat_ofNat]; omega

/-- A counter never goes down. -/
theorem le_satInc (c : Word32) (k : Nat) : c.toNat ≤ (satInc c k).toNat := by
  have := c.isLt
  rw [satInc_toNat]; omega

end Sys2Proof.Machine
end

