-- ==== Sys2Proof/Machine/Text.lean ====
section
/-!
DEFINITION. The textual syntax (R97): the text of an operation, and the reading of one line of a program.
-/
namespace Sys2Proof.Machine

/-- The mnemonic of an operation (R92). -/
def mnemonicOf : Instr → String
  | .sysReset => "SYS.RESET"
  | .sysStart _ => "SYS.START"
  | .sysRdstat _ => "SYS.RDSTAT"
  | .fifoInit => "FIFO.INIT"
  | .fifoWrite _ => "FIFO.WRITE"
  | .fifoRead => "FIFO.READ"
  | .fifoWrblk _ => "FIFO.WRBLK"
  | .fifoRdblk _ => "FIFO.RDBLK"
  | .capDma _ => "CAP.DMA"
  | .evCapHalf => "EV.CAP.HALF"
  | .evCapFull => "EV.CAP.FULL"
  | .svcCap0 => "SVC.CAP0"
  | .svcCap1 => "SVC.CAP1"
  | .pbDma => "PB.DMA"
  | .evPbHalf => "EV.PB.HALF"
  | .evPbFull => "EV.PB.FULL"
  | .svcPb0 => "SVC.PB0"
  | .svcPb1 => "SVC.PB1"
  | .pollCap => "POLL.CAP"
  | .pollPb => "POLL.PB"

/-- The operand of an operation of format I or K (R93). -/
def operandOf : Instr → Option Nat
  | .sysStart ok => some (if ok then 1 else 0)
  | .sysRdstat r => some r.toNat
  | .fifoWrite v => some v.toNat
  | .fifoWrblk n => some n.toNat
  | .fifoRdblk n => some n.toNat
  | .capDma w => some w.toNat
  | .sysReset => none
  | .fifoInit => none
  | .fifoRead => none
  | .evCapHalf => none
  | .evCapFull => none
  | .svcCap0 => none
  | .svcCap1 => none
  | .pbDma => none
  | .evPbHalf => none
  | .evPbFull => none
  | .svcPb0 => none
  | .svcPb1 => none
  | .pollCap => none
  | .pollPb => none

/-- The text of an operation, its operand in decimal (R97). -/
def textOf (i : Instr) : String :=
  match operandOf i with
  | none => mnemonicOf i
  | some n => mnemonicOf i ++ " " ++ toString n

/-- What a line of a program holds: an operation, with the samples a block write shows after its count, or a
pseudo-operation (R97, R98). -/
inductive Line where
  | op (i : Instr) (data : List Sample)
  | pseudo (p : Pseudo)
deriving DecidableEq, Repr

/-- The value of a digit. -/
def digitOf (c : Char) : Option Nat :=
  if 48 ≤ c.toNat ∧ c.toNat ≤ 57 then some (c.toNat - 48)
  else if 97 ≤ c.toNat ∧ c.toNat ≤ 102 then some (c.toNat - 87)
  else if 65 ≤ c.toNat ∧ c.toNat ≤ 70 then some (c.toNat - 55)
  else none

/-- The number whose digits follow, `acc` being read already. -/
def readDigits (base : Nat) : Nat → List Char → Option Nat
  | acc, [] => some acc
  | acc, c :: cs =>
    match digitOf c with
    | some d => if d < base then readDigits base (acc * base + d) cs else none
    | none => none

/-- A decimal number, or a hexadecimal one after `0x`, of 16 bits (R97). -/
def readNumber (cs : List Char) : Option Imm :=
  let n := match cs with
    | [] => none
    | ['0', 'x'] => none
    | '0' :: 'x' :: ds => readDigits 16 0 ds
    | ds => readDigits 10 0 ds
  match n with
  | some n => if n < 2 ^ 16 then some (BitVec.ofNat 16 n) else none
  | none => none

/-- Every part read, or none. -/
def readAll : List (List Char) → Option (List Imm)
  | [] => some []
  | p :: ps =>
    match readNumber p, readAll ps with
    | some n, some ns => some (n :: ns)
    | _, _ => none

/-- A list of numbers in square brackets, parted by commas (R97). -/
def readList (cs : List Char) : Option (List Imm) :=
  match cs.filter (· ≠ ' ') with
  | '[' :: rest =>
    match rest.reverse with
    | [']'] => some []
    | ']' :: body => readAll (body.reverse.splitOn ',')
    | _ => none
  | _ => none

/-- The operations of format N, by mnemonic. -/
def formatNOps : List Instr :=
  [.sysReset, .fifoInit, .fifoRead, .evCapHalf, .evCapFull, .svcCap0, .svcCap1, .pbDma, .evPbHalf, .evPbFull, .svcPb0, .svcPb1,
    .pollCap, .pollPb]

/-- A half by its number. -/
def readHalf (cs : List Char) : Option Half :=
  if cs = ['0'] then some .first else if cs = ['1'] then some .second else none

/-- The line with mnemonic `name` and no operand. -/
def readBare (name : List Char) : Option Line :=
  if name = "SVC".toList then some (.pseudo .svc)
  else if name = "POLL.ITER".toList then some (.pseudo .pollIter)
  else if name = "PB.DRAIN".toList then some (.pseudo .pbDrain)
  else match formatNOps.find? (fun i => decide ((mnemonicOf i).toList = name)) with
    | some i => some (.op i [])
    | none => none

/-- The line with mnemonic `name` and operand `arg`. -/
def readWithOperand (name arg : List Char) : Option Line :=
  if name = "EV.CAP".toList then (readHalf arg).map fun h => .pseudo (.evCap h)
  else if name = "EV.PB".toList then (readHalf arg).map fun h => .pseudo (.evPb h)
  else match readNumber arg with
    | none => none
    | some n =>
      if name = "SYS.START".toList then
        if n = 0#16 then some (.op (.sysStart false) []) else if n = 1#16 then some (.op (.sysStart true) []) else none
      else if name = "SYS.RDSTAT".toList then some (.op (.sysRdstat n) [])
      else if name = "FIFO.WRITE".toList then some (.op (.fifoWrite n) [])
      else if name = "FIFO.WRBLK".toList then some (.op (.fifoWrblk n) [])
      else if name = "FIFO.RDBLK".toList then some (.op (.fifoRdblk n) [])
      else if name = "CAP.DMA".toList then some (.op (.capDma n) [])
      else none

/-- The line with mnemonic `name`, operand `arg` and a bracketed list: a block write with its samples, or `CAP.FILL`. -/
def readWithList (name arg list : List Char) : Option Line :=
  match readList list with
  | none => none
  | some xs =>
    if name = "CAP.FILL".toList then (readHalf arg).map fun h => .pseudo (.capFill h xs)
    else if name = "FIFO.WRBLK".toList then
      match readNumber arg with
      | some n => if xs.length = n.toNat then some (.op (.fifoWrblk n) xs) else none
      | none => none
    else none

/-- One line of a program (R97); its comment and the spaces before the comment are dropped. `none`: the line is no operation. -/
def readLine (cs : List Char) : Option Line :=
  let body := ((cs.takeWhile (· ≠ '#')).reverse.dropWhile (· = ' ')).reverse
  let name := body.takeWhile (· ≠ ' ')
  let rest := body.dropWhile (· ≠ ' ')
  let arg := (rest.drop 1).takeWhile (· ≠ ' ')
  let list := ((rest.drop 1).dropWhile (· ≠ ' ')).drop 1
  if rest = [] then readBare name
  else if list = [] then readWithOperand name arg
  else readWithList name arg list

/-- The commands an operation line places on the schedule: its word, with its samples put on `din` before it (R97). -/
def commandOf (i : Instr) (data : List Sample) : Command := ⟨encode i, data⟩

end Sys2Proof.Machine
end

