-- ==== Sys2Proof/Tests/Slice0.lean ====
section
/-!
SUPPORT. Small tests, their expected results taken from the rule or the vector each names, and a witness for the hypotheses of every
statement that has any.
-/
namespace Sys2Proof.Tests
open Sys2Proof Sys2Proof.Machine

/-! ## Helpers -/

/-- CFG-A of `95_test_vectors.md`, with the identity collaborators known for the batches the tests use. -/
def cfgA : Config where
  fifoCap := 8
  rawW := 16
  capHalf := 2
  capBatch := 2
  pbBatch := 2
  pbStride := 2
  pbOffsets := [0, 1]
  onUnderrun := .repeatLast
  pollOrder := .captureFirst
  filtInit := 0
  hookInit := 0
  decimateRows := [⟨0, [1, 2], 0, [1, 2]⟩, ⟨0, [0x13, 0x14], 0, [0x13, 0x14]⟩, ⟨7, [5, 6], 18, [12, 18]⟩]
  hookRows := [⟨0, [1, 2], 0, [1, 2]⟩, ⟨0, [0x13, 0x14], 0, [0x13, 0x14]⟩, ⟨1, [12, 18], 2, [0x800C, 0x8012]⟩]

/-- A memory holding the list from index 0 on. -/
def filled (l : List (BitVec 16)) : Memory := ⟨(List.range l.length).zip l⟩

/-- The FIFO of a state replaced. -/
def withFifo (s : State) (l : List Sample) (wr rd count : BitVec 16) : State := { s with fifo := ⟨filled l, wr, rd, count⟩ }

/-- Power-up of a configuration, and the same block after `SYS.START 1`. -/
def stopped (c : Config) : State := State.powerUp c

/-- See `stopped`. -/
def running (c : Config) : State := { State.powerUp c with sys := .running }

/-- One field of the state an operation leaves. -/
def after (f : State → α) (i : Instr) (s : State) : Option α :=
  match exec i s with
  | .next t => some (f t)
  | _ => none

/-- What an operation returns. -/
def result (i : Instr) (s : State) : Option Result := after State.result i s

/-! ## Well-formedness (R94): the two checks refuse an ill-formed operand -/

theorem test_wellFormed_refuses_register_16 : (Instr.sysRdstat 16#16).wellFormed 16 = false := by decide
theorem test_wellFormed_accepts_register_15 : (Instr.sysRdstat 15#16).wellFormed 16 = true := by decide
theorem test_wellFormed_refuses_wide_element : (Instr.capDma 0x100#16).wellFormed 8 = false := by decide
theorem test_wellFormed_accepts_widest_element : (Instr.capDma 0xFF#16).wellFormed 8 = true := by decide

/-! ## Decoding: each constructor's word, written out from the fields of R90 and the map of R92 -/

/-- `unit`, `fn`, `rsv`, `imm`, bit by bit. -/
def word (unit fn : BitVec 4) (rsv : BitVec 8) (imm : BitVec 16) : CmdWord := unit ++ fn ++ rsv ++ imm

theorem test_decode_sysReset : decode 16 (word 0b0000 0b0001 0 0) = .ok .sysReset := by decide
theorem test_decode_sysStart_0 : decode 16 (word 0b0000 0b0010 0 0) = .ok (.sysStart false) := by decide
theorem test_decode_sysStart_1 : decode 16 (word 0b0000 0b0010 0 1) = .ok (.sysStart true) := by decide
theorem test_decode_sysRdstat : decode 16 (word 0b0000 0b0011 0 0b1111) = .ok (.sysRdstat 15#16) := by decide
theorem test_decode_fifoInit : decode 16 (word 0b0001 0b0000 0 0) = .ok .fifoInit := by decide
theorem test_decode_fifoWrite :
    decode 16 (word 0b0001 0b0001 0 0b1000000000000101) = .ok (.fifoWrite 0x8005#16) := by decide
theorem test_decode_fifoRead : decode 16 (word 0b0001 0b0010 0 0) = .ok .fifoRead := by decide
theorem test_decode_fifoWrblk : decode 16 (word 0b0001 0b0011 0 0xFFFF) = .ok (.fifoWrblk 65535#16) := by decide
theorem test_decode_fifoRdblk : decode 16 (word 0b0001 0b0100 0 3) = .ok (.fifoRdblk 3#16) := by decide
theorem test_decode_capDma : decode 16 (word 0b0010 0b0000 0 0x1234) = .ok (.capDma 0x1234#16) := by decide
theorem test_decode_evCapHalf : decode 16 (word 0b0010 0b0001 0 0) = .ok .evCapHalf := by decide
theorem test_decode_evCapFull : decode 16 (word 0b0010 0b0010 0 0) = .ok .evCapFull := by decide
theorem test_decode_svcCap0 : decode 16 (word 0b0010 0b0011 0 0) = .ok .svcCap0 := by decide
theorem test_decode_svcCap1 : decode 16 (word 0b0010 0b0100 0 0) = .ok .svcCap1 := by decide
theorem test_decode_pbDma : decode 16 (word 0b0011 0b0000 0 0) = .ok .pbDma := by decide
theorem test_decode_evPbHalf : decode 16 (word 0b0011 0b0001 0 0) = .ok .evPbHalf := by decide
theorem test_decode_evPbFull : decode 16 (word 0b0011 0b0010 0 0) = .ok .evPbFull := by decide
theorem test_decode_svcPb0 : decode 16 (word 0b0011 0b0011 0 0) = .ok .svcPb0 := by decide
theorem test_decode_svcPb1 : decode 16 (word 0b0011 0b0100 0 0) = .ok .svcPb1 := by decide
theorem test_decode_pollCap : decode 16 (word 0b0100 0b0000 0 0) = .ok .pollCap := by decide
theorem test_decode_pollPb : decode 16 (word 0b0100 0b0001 0 0) = .ok .pollPb := by decide

/-- The illegal words of V-D1, each refused for its reason. -/
theorem test_decode_illegal :
    decode 16 0x00000000#32 = .error .unknownFn ∧ decode 16 0x01000001#32 = .error .immediateNotZero ∧
    decode 16 0x02000002#32 = .error .immediateNotZero ∧ decode 16 0x03000010#32 = .error .noSuchRegister ∧
    decode 16 0x04000000#32 = .error .unknownFn ∧ decode 16 0x10010000#32 = .error .reservedNotZero ∧
    decode 16 0x15000000#32 = .error .unknownFn ∧ decode 8 0x2000FFFF#32 = .error .rawTooWide ∧
    decode 16 0x25000000#32 = .error .unknownFn ∧ decode 16 0x30000001#32 = .error .immediateNotZero ∧
    decode 16 0x42000000#32 = .error .unknownFn ∧ decode 16 0x50000000#32 = .error .unknownUnit ∧
    decode 16 0xFFFFFFFF#32 = .error .reservedNotZero := by decide

/-! ## One step of each operation -/

/-- R185, example: from `Halted`. -/
theorem test_sysReset :
    after (fun t => (t.sys, t.faultInd, t.undEvents)) .sysReset { stopped cfgA with sys := .halted, undEvents := 7#32 } =
      some (.stopped, false, 0#32) := by decide

/-- R186, example. -/
theorem test_sysStart_0 : after (fun t => (t.sys, t.faultInd, t.result)) (.sysStart false) (stopped cfgA) =
    some (.halted, true, ⟨.initializationFailure, 0#32⟩) := by decide

theorem test_sysStart_1 : after (fun t => (t.sys, t.result)) (.sysStart true) (stopped cfgA) = some (.running, ⟨.ok, 0#32⟩) := by
  decide

/-- R187, example; V-D2, register 7. -/
theorem test_sysRdstat_0 : result (.sysRdstat 0#16) { stopped cfgA with sys := .halted } = some ⟨.ok, 6#32⟩ := by decide
theorem test_sysRdstat_7 : result (.sysRdstat 7#16) (stopped cfgA) = some ⟨.ok, 8#32⟩ := by decide

/-- R110, example. -/
theorem test_fifoInit : after (fun t => (t.fifo.wr, t.fifo.rd, t.fifo.count)) .fifoInit (withFifo (stopped cfgA) [5, 6] 2 1 1) =
    some (0#16, 0#16, 0#16) := by decide

/-- R111, example. -/
theorem test_fifoWrite_full : after (fun t => (t.fifo.count, t.result)) (.fifoWrite 5#16)
    (withFifo (stopped { cfgA with fifoCap := 4 }) [1, 2, 3, 4] 0 0 4) = some (4#16, ⟨.full, 0#32⟩) := by decide

/-- P0, step 4: the cursor wraps. -/
theorem test_fifoWrite_wraps : after State.fifo (.fifoWrite 3#16)
    (withFifo (stopped { cfgA with fifoCap := 3 }) [1, 2] 2 0 2) = some ⟨filled [1, 2, 3], 0, 0, 3⟩ := by decide

/-- V-F2, step 5: zero-extended. -/
theorem test_fifoRead_zero_extends : result .fifoRead
    (withFifo (stopped { cfgA with fifoCap := 1 }) [0xFFFF] 0 0 1) = some ⟨.ok, 0xFFFF#32⟩ := by decide

/-- P0, step 8: the cursor wraps. -/
theorem test_fifoRead_wraps : after (fun t => (t.fifo.rd, t.fifo.count, t.result)) .fifoRead
    (withFifo (stopped { cfgA with fifoCap := 3 }) [4, 2, 3] 1 2 2) = some (0#16, 1#16, ⟨.ok, 3#32⟩) := by decide

/-- V-F1, step 6: a block that wraps. -/
theorem test_fifoWrblk_wraps : after State.fifo (.fifoWrblk 3#16)
    { withFifo (stopped { cfgA with fifoCap := 4 }) [1, 2, 3] 3 3 0 with din := [4, 5, 6] } =
      some ⟨filled [5, 6, 3, 4], 2, 3, 3⟩ := by decide

/-- V-F1, step 7: a block that does not fit. -/
theorem test_fifoWrblk_stops : after (fun t => (t.fifo.count, t.din, t.result)) (.fifoWrblk 3#16)
    { withFifo (stopped { cfgA with fifoCap := 4 }) [5, 6, 3, 4] 2 3 3 with din := [7, 8, 9] } =
      some (4#16, [], ⟨.ok, 1#32⟩) := by decide

/-- V-F1, step 8. -/
theorem test_fifoRdblk : after (fun t => (t.dout, t.fifo.rd, t.fifo.count, t.result)) (.fifoRdblk 5#16)
    (withFifo (stopped { cfgA with fifoCap := 4 }) [5, 6, 7, 4] 3 3 4) = some ([4, 5, 6, 7], 3#16, 0#16, ⟨.ok, 4#32⟩) := by
  decide

/-- R130, example. -/
theorem test_capDma : after (fun t => (t.capBuf, t.cap)) (.capDma 2#16)
    { running cfgA with capBuf := filled [1], cap := { Channel.atReset with pos := 1 } } =
      some (filled [1, 2], { Channel.atReset with pos := 2, pend0 := true }) := by decide

/-- V-C3, step 6: the engine re-enters an outstanding half. -/
theorem test_capDma_race : after State.cap (.capDma 5#16)
    { running cfgA with cap := { Channel.atReset with pend0 := true, pend1 := true } } =
      some { Channel.atReset with pos := 1, pend0 := true, pend1 := true, race := true } := by decide

/-- R131, example. -/
theorem test_evCapHalf : after State.cap .evCapHalf { running cfgA with cap := { Channel.atReset with pend0 := true } } =
    some { Channel.atReset with flag := .firstHalfReady } := by decide

/-- R132, example: the unserved event is lost. -/
theorem test_evCapFull : after State.cap .evCapFull
    { running cfgA with cap := { Channel.atReset with pend1 := true, flag := .firstHalfReady } } =
      some { Channel.atReset with flag := .secondHalfReady, lost := true } := by decide

/-- R133, example. -/
theorem test_svcCap0 : after (fun t => (t.fifo, t.job, t.result)) .svcCap0
    { running cfgA with capBuf := filled [1, 2], job := .cap0 } =
      some (⟨filled [1, 2], 2, 0, 2⟩, .none, ⟨.ok, 2#32⟩) := by decide

/-- R134, example: one sample is dropped. -/
theorem test_svcCap1_overrun : after (fun t => (t.fifo, t.ovrEvents, t.ovrSamples, t.result)) .svcCap1
    { withFifo (running { cfgA with fifoCap := 3 }) [0x11, 0x12] 2 0 2 with
      capBuf := filled [0, 0, 0x13, 0x14], job := .cap1 } =
      some (⟨filled [0x11, 0x12, 0x13], 0, 0, 3⟩, 1#32, 1#32, ⟨.overrun, 1#32⟩) := by decide

/-- V-C1, step 12: both samples are dropped, the collaborators' states advance all the same. -/
theorem test_svcCap1_full : after (fun t => (t.filt, t.hook, t.fifo.count, t.ovrSamples, t.result)) .svcCap1
    { withFifo (running { cfgA with fifoCap := 2 }) [0x8003, 0x8007] 0 0 2 with
      capBuf := filled [3, 4, 5, 6], filt := 7, hook := 1, job := .cap1 } =
      some (18, 2, 2#16, 2#32, ⟨.overrun, 2#32⟩) := by decide

/-- R150, example. -/
theorem test_pbDma : after (fun t => (t.txTrace, t.pb, t.result)) .pbDma
    { running cfgA with pbBuf := filled [1, 1, 2, 2], pb := { Channel.atReset with pos := 3 } } =
      some ([2], { Channel.atReset with pos := 4, pend0 := true }, ⟨.ok, 2#32⟩) := by decide

/-- V-PB5, step 15: a stale slot is sent and the race recorded. -/
theorem test_pbDma_race : after (fun t => (t.pb.race, t.result)) .pbDma
    { running cfgA with pbBuf := filled [0xA0], job := .pb0, pb := { Channel.atReset with pend1 := true } } =
      some (true, ⟨.ok, 0xA0#32⟩) := by decide

/-- R151, example. -/
theorem test_evPbHalf : after State.pb .evPbHalf { running cfgA with pb := { Channel.atReset with pend0 := true } } =
    some { Channel.atReset with flag := .firstHalfReady } := by decide

/-- R152, example; V-PB4: the event before it is lost. -/
theorem test_evPbFull : after State.pb .evPbFull { running cfgA with pb := { Channel.atReset with pend1 := true } } =
    some { Channel.atReset with flag := .secondHalfReady } := by decide
theorem test_evPbFull_lost : after (fun t => t.pb.lost) .evPbFull
    { running cfgA with pb := { Channel.atReset with pend1 := true, flag := .firstHalfReady } } = some true := by decide

/-- R153, example. -/
theorem test_svcPb0 : after (fun t => (t.pbBuf, t.fifo.count, t.job, t.result)) .svcPb0
    { withFifo (running cfgA) [1, 2] 2 0 2 with pbBuf := filled [9, 9, 9, 9, 9, 9, 9, 9], job := .pb0 } =
      some (filled [1, 1, 2, 2, 9, 9, 9, 9], 0#16, .none, ⟨.ok, 2#32⟩) := by decide

/-- V-PB3: one lane of two. -/
theorem test_svcPb0_one_lane : after State.pbBuf .svcPb0
    { withFifo (running { cfgA with pbOffsets := [0] }) [0x31, 0x32] 2 0 2 with
      pbBuf := filled [0xA0, 0xA1, 0xA2, 0xA3], job := .pb0 } = some (filled [0x31, 0xA1, 0x32, 0xA3]) := by decide

/-- R154, example: under `repeat_last`, then under `silence`. -/
theorem test_svcPb1_underrun : after (fun t => (t.pbBuf, t.fifo.count, t.undEvents, t.result)) .svcPb1
    { withFifo (running cfgA) [9] 1 0 1 with pbBuf := filled [1, 1, 2, 2, 7, 7, 7, 7], job := .pb1 } =
      some (filled [1, 1, 2, 2, 7, 7, 7, 7], 1#16, 1#32, ⟨.underrun, 1#32⟩) := by decide
theorem test_svcPb1_silence : after State.pbBuf .svcPb1
    { withFifo (running { cfgA with onUnderrun := .silence }) [9] 1 0 1 with
      pbBuf := filled [1, 1, 2, 2, 7, 7, 7, 7], job := .pb1 } = some (filled [1, 1, 2, 2, 0, 0, 0, 0]) := by decide

/-- R170, example. -/
theorem test_pollCap : after (fun t => (t.cap.flag, t.job, t.phase, t.result)) .pollCap
    { running cfgA with cap := { Channel.atReset with flag := .secondHalfReady } } =
      some (.idle, .cap1, .phPb, ⟨.ok, 2#32⟩) := by decide

/-- R171, example; V-S2: a flag seen. -/
theorem test_pollPb : after (fun t => (t.pb.flag, t.job, t.phase, t.result)) .pollPb { running cfgA with phase := .phPb } =
    some (.idle, .none, .phCap, ⟨.ok, 0#32⟩) := by decide
theorem test_pollPb_job : after (fun t => (t.job, t.result)) .pollPb
    { running cfgA with phase := .phPb, pb := { Channel.atReset with flag := .firstHalfReady } } =
      some (.pb0, ⟨.ok, 1#32⟩) := by decide

/-- R208: an illegal word is decided before the enable condition (the last paragraph of V-D1). -/
theorem test_illegal_first : (match execWord 0x30000001#32 (stopped cfgA) with
    | .next t => some t.result
    | _ => none) = some ⟨.illegalCommand, 0#32⟩ := by decide

/-! ## The textual syntax (R97, R98) -/

theorem test_readLine_hex : readLine "FIFO.WRITE 0x0005".toList = some (.op (.fifoWrite 5#16) []) := by decide
theorem test_readLine_block : readLine "FIFO.WRBLK 3 [1, 2, 3]".toList = some (.op (.fifoWrblk 3#16) [1, 2, 3]) := by decide
theorem test_readLine_comment : readLine "POLL.CAP # the capture flag".toList = some (.op .pollCap []) := by decide
theorem test_readLine_pseudo : readLine "EV.CAP 1".toList = some (.pseudo (.evCap .second)) := by decide

/-! ## Witnesses: the hypotheses of each statement met together, at a boundary of each clause

`witness_<Name>` is about `Obligations.<Name>`. Where a hypothesis is that a step or an operation answers a next state, the witness
is that it does. -/

theorem witness_IllegalWordsAreThoseListed : configLegal cfgA = true ∧
    5 ≤ (0x50000000#32).toNat / 2 ^ 28 ∧ (0x04000000#32).toNat / 2 ^ 24 = 4 ∧ (0x15000000#32).toNat / 2 ^ 24 % 16 = 5 ∧
    (0x10010000#32).toNat / 2 ^ 16 % 256 ≠ 0 ∧ (0x42000000#32).toNat / 2 ^ 24 % 16 = 2 ∧
    (0x02000002#32).toNat % 2 ^ 16 / 2 ≠ 0 ∧ (0x20000100#32).toNat % 2 ^ 16 / 2 ^ 8 ≠ 0 ∧
    16 ≤ (0x03000010#32).toNat % 2 ^ 16 := by decide

theorem witness_EncodedOperationsDecodeBack :
    (Instr.sysRdstat 15#16).wellFormed 1 = true ∧ (Instr.capDma 0xFFFF#16).wellFormed 16 = true ∧
    (Instr.capDma 1#16).wellFormed 1 = true := by decide

theorem witness_LegalWordsEncodeBack : decode 8 0x200000FF#32 = .ok (.capDma 0xFF#16) := by decide

/-- A state with `FIFO.WRITE 5` next on the schedule, and its samples. -/
def scheduled : State := { stopped cfgA with schedule := [⟨0x11000005#32, [7]⟩, ⟨0x50000000#32, []⟩] }

theorem witness_StepRunsTheDecodedOperation :
    (scheduled.schedule = ⟨0x11000005#32, [7]⟩ :: [⟨0x50000000#32, []⟩] ∧
      decode scheduled.cfg.rawW 0x11000005#32 = .ok (.fifoWrite 5#16)) ∧
    decode scheduled.cfg.rawW (BitVec.ofNat 32 (0x11000005 % 2 ^ 32)) = .ok (.fifoWrite 5#16) ∧
    (stopped cfgA).schedule = [] := by decide

theorem witness_StepAnswersAnIllegalWord : configLegal cfgA = true ∧
    ({ stopped cfgA with schedule := [⟨0x50000000#32, [1]⟩] } : State).schedule = ⟨0x50000000#32, [1]⟩ :: [] ∧
    decode cfgA.rawW 0x50000000#32 = .error .unknownUnit := by decide

theorem witness_NotEnabledChangesNothing : configLegal { cfgA with rawW := 8 } = true ∧
    (Instr.capDma 0xFF#16).wellFormed 8 = true ∧ enabled (.capDma 0xFF#16) (stopped { cfgA with rawW := 8 }) = false ∧
    (Instr.capDma 0x100#16).wellFormed 8 = false := by decide

/-- What makes a running state one that meets `BlockInv`, in a form that evaluates. -/
theorem blockInv_of_running {s : State} (run : s.sys = .running)
    (h : configLegal s.cfg = true ∧ (s.fifo.mem.wf ∧ s.capBuf.wf ∧ s.pbBuf.wf) ∧
      (∀ p ∈ s.fifo.mem.cells, p.1 < s.cfg.fifoCap) ∧
      (∀ p ∈ s.capBuf.cells, p.1 < 2 * s.cfg.capHalf ∧ p.2.toNat < 2 ^ s.cfg.rawW) ∧
      (∀ p ∈ s.pbBuf.cells, p.1 < 2 * s.cfg.pbHalf) ∧
      (s.fifo.wr.toNat < s.cfg.fifoCap ∧ s.fifo.rd.toNat < s.cfg.fifoCap ∧ s.fifo.count.toNat ≤ s.cfg.fifoCap ∧
        s.fifo.wr.toNat = (s.fifo.rd.toNat + s.fifo.count.toNat) % s.cfg.fifoCap) ∧
      s.cap.pos < 2 * s.cfg.capHalf ∧ s.pb.pos < 2 * s.cfg.pbHalf) : BlockInv s := by
  have listed : ∀ {l : List (Nat × BitVec 16)} {i v}, lookupCell i l = some v → (i, v) ∈ l := by
    intro l i v
    induction l with
    | nil => simp [lookupCell]
    | cons q rest ih =>
      obtain ⟨j, u⟩ := q
      simp only [lookupCell, List.mem_cons]
      split
      · rintro ⟨⟩
        exact .inl (by subst_vars; rfl)
      · exact fun e => .inr (ih e)
  obtain ⟨legal, ⟨wf1, wf2, wf3⟩, f, c, p, ⟨w, r, n, a⟩, cp, pp⟩ := h
  refine ⟨legal, wf1, wf2, wf3, fun i hi => ?_, fun i v hi => c _ (listed hi), fun i hi => ?_, w, r, n, a, cp, pp,
    fun hs => absurd run hs⟩
  · obtain ⟨v, hv⟩ := Option.ne_none_iff_exists'.1 hi
    exact f _ (listed hv)
  · obtain ⟨v, hv⟩ := Option.ne_none_iff_exists'.1 hi
    exact p _ (listed hv)

/-- CFG-A running, the FIFO one short of full with its cursors about to wrap, the first capture half filled and in hand, the engine
at the end of the second. -/
def busy : State := { withFifo (running cfgA) [1, 2, 3, 4, 5, 6, 7] 7 0 7 with
  capBuf := filled [1, 2, 9]
  cap := { Channel.atReset with pos := 3 }
  job := .cap0 }

theorem busy_blockInv : BlockInv busy := blockInv_of_running rfl (by decide)

/-- The same block with the first playback half in hand, and the engine at the end of the second. -/
def busyPb : State := { busy with job := .pb0, pb := { Channel.atReset with pos := 7 } }

theorem busyPb_blockInv : BlockInv busyPb := blockInv_of_running rfl (by decide)

theorem running_blockInv : BlockInv (running cfgA) := blockInv_of_running rfl (by decide)

/-- A block that was never started: the FIFO is full, so that one more sample is refused. -/
def stoppedFull : State := withFifo (stopped { cfgA with fifoCap := 1 }) [5] 0 0 1

/-- The stopped state of the invariant, with one sample in the FIFO of capacity 1. -/
theorem stoppedFull_blockInv : BlockInv stoppedFull where
  legal := by decide
  fifoMemWf := by decide
  capBufWf := by decide
  pbBufWf := by decide
  fifoMemInside i hi := by
    by_contra hc
    have h0 : i ≠ 0 := fun e => hc (e ▸ (by decide))
    exact hi (by simp [stoppedFull, withFifo, filled, Memory.lookup, lookupCell, h0])
  capBufInside i v hi := by simp [stoppedFull, withFifo, stopped, State.powerUp, Memory.lookup, Memory.unwritten, lookupCell] at hi
  pbBufInside i hi := absurd rfl hi
  wrInside := by decide
  rdInside := by decide
  countInside := by decide
  cursorsAgree := by decide
  capPosInside := by decide
  pbPosInside := by decide
  atRestUnlessRunning := by decide

theorem witness_ResultCodesAreThoseListed :
    (BlockInv busy ∧ Instr.svcCap0.wellFormed busy.cfg.rawW = true ∧ enabled .svcCap0 busy = true) ∧
    (BlockInv busyPb ∧ Instr.svcPb0.wellFormed busyPb.cfg.rawW = true ∧ enabled .svcPb0 busyPb = true) ∧
    (BlockInv stoppedFull ∧ (Instr.fifoWrite 0#16).wellFormed stoppedFull.cfg.rawW = true ∧
      enabled (.fifoWrite 0#16) stoppedFull = true ∧ enabled (.sysStart false) stoppedFull = true) :=
  ⟨⟨busy_blockInv, by decide, by decide⟩, ⟨busyPb_blockInv, by decide, by decide⟩, stoppedFull_blockInv, by decide, by decide,
    by decide⟩

/-- `ResetRestoresTheResetTable` and the clauses of the other statements that ask only for a legal configuration. -/
theorem witness_ResetRestoresTheResetTable : configLegal cfgA = true ∧ configLegal Config.documentExample = true := by decide

theorem witness_StartRunsOrHaltsTheBlock : configLegal cfgA = true ∧ (stopped cfgA).sys = .stopped ∧
    (running cfgA).sys ≠ .stopped ∧ ({ stopped cfgA with sys := .halted } : State).sys ≠ .stopped := by decide

theorem witness_StatusReadReturnsTheRegister : configLegal cfgA = true ∧ (15#16).toNat < 16 ∧ 16 ≤ (16#16).toNat := by decide

theorem witness_StatusRegistersShowTheMap : configLegal cfgA = true ∧
    ({ running cfgA with cap := { Channel.atReset with pos := 2 ^ 32 - 1 } } : State).cap.pos < 2 ^ 32 ∧
    ({ running cfgA with pb := { Channel.atReset with pos := 2 ^ 32 - 1 } } : State).pb.pos < 2 ^ 32 := by decide

theorem witness_HaltedIsLeftOnlyByReset :
    let s : State := { stopped cfgA with sys := .halted }
    s.sys = .halted ∧ exec .pollCap s = .next (s.respond .notEnabled 0#32) ∧ Instr.pollCap ≠ .sysReset ∧
    (∀ r, Instr.pollCap ≠ .sysRdstat r) := ⟨rfl, rfl, by decide, fun _ => nofun⟩

theorem witness_FifoInitEmptiesTheFifo : configLegal cfgA = true ∧ (stopped cfgA).sys = .stopped ∧
    (running cfgA).sys ≠ .stopped := by decide

/-- The write cursor at C - 1 with C - 1 samples; a full FIFO; a running block. -/
theorem witness_FifoWriteAppendsOrReportsFull :
    let s := withFifo (stopped cfgA) [1, 2, 3, 4, 5, 6, 7] 7 0 7
    let u := withFifo (stopped cfgA) [1, 2, 3, 4, 5, 6, 7, 8] 0 0 8
    configLegal cfgA = true ∧ (s.sys = .stopped ∧ s.fifo.count.toNat < s.cfg.fifoCap ∧ s.fifo.wr.toNat < s.cfg.fifoCap) ∧
    (u.sys = .stopped ∧ u.fifo.count.toNat = u.cfg.fifoCap) ∧ (running cfgA).sys ≠ .stopped := by decide

/-- The read cursor at C - 1 with one sample; an empty FIFO; a running block. -/
theorem witness_FifoReadRemovesTheOldestOrReportsEmpty :
    let s := withFifo (stopped cfgA) [0, 0, 0, 0, 0, 0, 0, 8] 0 7 1
    configLegal cfgA = true ∧ (s.sys = .stopped ∧ 0 < s.fifo.count.toNat ∧ s.fifo.rd.toNat < s.cfg.fifoCap) ∧
    ((stopped cfgA).sys = .stopped ∧ (stopped cfgA).fifo.count.toNat = 0) ∧ (running cfgA).sys ≠ .stopped := by decide

/-- Exactly n samples in `din` and a full FIFO; one sample too few. -/
theorem witness_FifoBlockWriteStoresWhatFits :
    let s : State := { withFifo (stopped cfgA) [1, 2, 3, 4, 5, 6, 7, 8] 0 0 8 with din := [9, 10] }
    configLegal cfgA = true ∧
    (s.sys = .stopped ∧ (2#16).toNat ≤ s.din.length ∧ s.fifo.count.toNat ≤ s.cfg.fifoCap) ∧
    s.din.length < (3#16).toNat ∧ (running cfgA).sys ≠ .stopped := by decide

theorem witness_FifoBlockReadTakesWhatIsThere : configLegal cfgA = true ∧ (stopped cfgA).sys = .stopped ∧
    (running cfgA).sys ≠ .stopped := by decide

/-- A FIFO of capacity 3: the cursors at 2, empty; and full. -/
def fifoEmpty3 : Fifo := ⟨filled [1, 2, 3], 2, 2, 0⟩

/-- See `fifoEmpty3`. -/
def fifoFull3 : Fifo := ⟨filled [1, 2, 3], 2, 2, 3⟩

theorem witness_BlockOperationsAreRepeatedSingleOnes :
    (fifoEmpty3.wr.toNat < 3 ∧ fifoEmpty3.count.toNat ≤ 3 ∧ fifoEmpty3.rd.toNat < 3) ∧
    (fifoFull3.wr.toNat < 3 ∧ fifoFull3.count.toNat ≤ 3 ∧ fifoFull3.rd.toNat < 3) := by decide

theorem witness_FifoOrderIsStrict :
    (fifoEmpty3.rd.toNat < 3 ∧ fifoEmpty3.count.toNat ≤ 3 ∧
      fifoEmpty3.wr.toNat = (fifoEmpty3.rd.toNat + fifoEmpty3.count.toNat) % 3 ∧
      (fifoEmpty3.content 3 (fun _ => 0)).length < 3 ∧ fifoEmpty3.content 3 (fun _ => 0) = []) ∧
    (fifoFull3.rd.toNat < 3 ∧ fifoFull3.count.toNat ≤ 3 ∧
      fifoFull3.wr.toNat = (fifoFull3.rd.toNat + fifoFull3.count.toNat) % 3 ∧
      (fifoFull3.content 3 (fun _ => 0)).length = 3 ∧ fifoFull3.content 3 (fun _ => 0) = 3 :: [1, 2]) := by decide

/-- The widest element of 8 bits, the engine at the end of each half; a stopped block; an element of 9 bits. -/
theorem witness_CaptureDmaStoresAndRaises :
    let c := { cfgA with rawW := 8 }
    let s : State := { running c with cap := { Channel.atReset with pos := 3 } }
    let u : State := { running c with cap := { Channel.atReset with pos := 1 } }
    configLegal c = true ∧ ((0xFF#16).toNat < 2 ^ s.cfg.rawW ∧ s.sys = .running ∧ s.cap.pos < 2 * s.cfg.capHalf) ∧
    (u.sys = .running ∧ u.cap.pos < 2 * u.cfg.capHalf) ∧ (stopped c).sys ≠ .running ∧ 2 ^ s.cfg.rawW ≤ (0x100#16).toNat := by
  decide

theorem witness_CaptureEventsSetTheFlag :
    let s : State := { running cfgA with cap := { Channel.atReset with pend0 := true } }
    let u : State := { running cfgA with cap := { Channel.atReset with pend1 := true } }
    configLegal cfgA = true ∧ (s.sys = .running ∧ s.cap.pend0 = true ∧ s.cap.pend1 = false) ∧
    (u.sys = .running ∧ u.cap.pend1 = true ∧ u.cap.pend0 = false) ∧ (stopped cfgA).sys ≠ .running := by decide

/-- Room for one sample of two; room for exactly two; a service without its job. -/
theorem witness_CaptureServicesPushTheBatch :
    let s := busy
    let u : State := { busy with fifo := ⟨filled [1, 2, 3, 4, 5, 6], 6, 0, 6⟩, job := .cap1 }
    configLegal cfgA = true ∧
    (s.fifo.count.toNat ≤ s.cfg.fifoCap ∧ s.sys = .running ∧ s.job = jobOf .cap .first ∧
      min s.cfg.capBatch (s.cfg.fifoCap - s.fifo.count.toNat) < s.cfg.capBatch) ∧
    (u.fifo.count.toNat ≤ u.cfg.fifoCap ∧ u.sys = .running ∧ u.job = jobOf .cap .second ∧
      min u.cfg.capBatch (u.cfg.fifoCap - u.fifo.count.toNat) = u.cfg.capBatch) ∧
    s.job ≠ jobOf .cap .second := by decide

theorem witness_PlaybackDmaTransmitsAndRaises :
    let s : State := { running cfgA with pb := { Channel.atReset with pos := 7 } }
    let u : State := { running cfgA with pb := { Channel.atReset with pos := 3 } }
    configLegal cfgA = true ∧ (s.sys = .running ∧ s.pb.pos < 2 * s.cfg.pbHalf ∧ s.pb.pos + 1 = 2 * s.cfg.pbHalf) ∧
    (u.sys = .running ∧ u.pb.pos < 2 * u.cfg.pbHalf ∧ u.pb.pos + 1 = u.cfg.pbHalf) ∧ (stopped cfgA).sys ≠ .running := by decide

theorem witness_PlaybackEventsSetTheFlag :
    let s : State := { running cfgA with pb := { Channel.atReset with pend0 := true } }
    let u : State := { running cfgA with pb := { Channel.atReset with pend1 := true } }
    configLegal cfgA = true ∧ (s.sys = .running ∧ s.pb.pend0 = true ∧ s.pb.pend1 = false) ∧
    (u.sys = .running ∧ u.pb.pend1 = true ∧ u.pb.pend0 = false) ∧ (stopped cfgA).sys ≠ .running := by decide

/-- Exactly Np samples, the read cursor at C - 1; Np - 1 samples, under both policies; a service without its job. -/
theorem witness_PlaybackServicesRefillOrReportUnderrun :
    let r : State := { busyPb with fifo := ⟨filled [2, 0, 0, 0, 0, 0, 0, 1], 1, 7, 2⟩, job := .pb1 }
    let s : State := { busyPb with fifo := ⟨filled [1], 1, 0, 1⟩ }
    let u : State := { s with cfg := { cfgA with onUnderrun := .silence }, job := .pb1 }
    (configLegal r.cfg = true ∧ r.sys = .running ∧ r.job = jobOf .pb .second ∧ r.cfg.pbBatch ≤ r.fifo.count.toNat ∧
      r.fifo.rd.toNat < r.cfg.fifoCap) ∧
    (configLegal s.cfg = true ∧ s.sys = .running ∧ s.job = jobOf .pb .first ∧ s.fifo.count.toNat < s.cfg.pbBatch ∧
      s.cfg.onUnderrun = .repeatLast) ∧
    (configLegal u.cfg = true ∧ u.sys = .running ∧ u.job = jobOf .pb .second ∧ u.fifo.count.toNat < u.cfg.pbBatch ∧
      u.cfg.onUnderrun = .silence) ∧ r.job ≠ jobOf .pb .first := by decide

theorem witness_CapturePollTakesTheFlag : configLegal cfgA = true ∧
    ((running cfgA).sys = .running ∧ (running cfgA).job = .none ∧ (running cfgA).phase = .phCap) ∧
    (stopped cfgA).sys ≠ .running ∧ busy.job ≠ .none ∧ ({ running cfgA with phase := .phPb } : State).phase ≠ .phCap := by decide

theorem witness_PlaybackPollTakesTheFlag :
    let s : State := { running cfgA with phase := .phPb }
    configLegal cfgA = true ∧ (s.sys = .running ∧ s.job = .none ∧ s.phase = .phPb) ∧
    (stopped cfgA).sys ≠ .running ∧ busy.job ≠ .none ∧ (running cfgA).phase ≠ .phPb := by decide

theorem witness_SchedulerHasOneOperation : (running cfgA).sys = .running := rfl

/-- Both flags idle; both set. -/
theorem witness_IterationServesEverySetFlag :
    let s := running cfgA
    let u : State := { s with
      cap := { Channel.atReset with flag := .firstHalfReady }
      pb := { Channel.atReset with flag := .secondHalfReady } }
    (BlockInv s ∧ s.sys = .running ∧ s.job = .none ∧ s.phase = .phCap ∧ s.cap.flag = .idle ∧ s.pb.flag = .idle) ∧
    (BlockInv u ∧ u.sys = .running ∧ u.job = .none ∧ u.phase = .phCap ∧ u.cap.flag ≠ .idle ∧ u.pb.flag ≠ .idle) :=
  ⟨⟨running_blockInv, by decide⟩, blockInv_of_running rfl (by decide), by decide⟩

/-- Both flags idle; both set; with the playback poll next. -/
theorem witness_PlaybackFirstIterationServesEverySetFlag :
    let s : State := { running cfgA with phase := .phPb }
    let u : State := { s with
      cap := { Channel.atReset with flag := .secondHalfReady }
      pb := { Channel.atReset with flag := .firstHalfReady } }
    (BlockInv s ∧ s.sys = .running ∧ s.job = .none ∧ s.phase = .phPb ∧ s.cap.flag = .idle ∧ s.pb.flag = .idle) ∧
    (BlockInv u ∧ u.sys = .running ∧ u.job = .none ∧ u.phase = .phPb ∧ u.cap.flag = ready .second ∧ u.pb.flag = ready .first) :=
  ⟨⟨blockInv_of_running rfl (by decide), by decide⟩, blockInv_of_running rfl (by decide), by decide⟩

/-- The widest elements, into each half from its start. -/
theorem witness_FillStoresTheHalfInOrder :
    let s := running cfgA
    let u : State := { s with cap := { Channel.atReset with pos := 2 } }
    (BlockInv s ∧ s.sys = .running ∧ meaningful s (.capFill .first [0xFFFF, 0]) = true ∧
      ∀ w ∈ [0xFFFF#16, 0#16], w.toNat < 2 ^ s.cfg.rawW) ∧
    (BlockInv u ∧ u.sys = .running ∧ meaningful u (.capFill .second [0, 0xFFFF]) = true ∧
      ∀ w ∈ [0#16, 0xFFFF#16], w.toNat < 2 ^ u.cfg.rawW) :=
  ⟨⟨running_blockInv, rfl, by decide, fun w _ => w.isLt⟩, blockInv_of_running rfl (by decide), rfl, by decide, fun w _ => w.isLt⟩

/-- From the start of each half. -/
theorem witness_DrainTransmitsTheHalfInOrder :
    let s := running cfgA
    let u : State := { s with pb := { Channel.atReset with pos := 4 } }
    (BlockInv s ∧ s.sys = .running ∧ s.pb.pos = Half.first.index * s.cfg.pbHalf) ∧
    (BlockInv u ∧ u.sys = .running ∧ u.pb.pos = Half.second.index * u.cfg.pbHalf) :=
  ⟨⟨running_blockInv, by decide⟩, blockInv_of_running rfl (by decide), by decide⟩

/-- Parameters at the ends of their ranges. -/
def cfgEnds : Config where
  fifoCap := 65535
  rawW := 1
  capHalf := 1
  capBatch := 65535
  pbBatch := 65535
  pbStride := 1
  pbOffsets := [0]
  onUnderrun := .silence
  pollOrder := .playbackFirst
  filtInit := 0
  hookInit := 0
  decimateRows := []
  hookRows := []

theorem witness_PowerUpMeetsTheInvariants : configLegal cfgA = true ∧ configLegal cfgEnds = true := by decide

theorem witness_EveryStepKeepsTheInvariant : BlockInv busy ∧ BlockInv busyPb ∧ BlockInv stoppedFull :=
  ⟨busy_blockInv, busyPb_blockInv, stoppedFull_blockInv⟩

/-- `busy`, with its service next on the schedule. -/
def busyNext : State := { busy with schedule := [⟨0x23000000#32, []⟩] }

theorem busyNext_blockInv : BlockInv busyNext := blockInv_of_running rfl (by decide)

theorem busyNext_steps : ∃ t, step busyNext = .next t := ⟨_, rfl⟩

theorem witness_FifoContentIsAlwaysWritten : BlockInv busyNext ∧ FifoContentWritten busyNext ∧ ∃ t, step busyNext = .next t := by
  refine ⟨busyNext_blockInv, ?_, busyNext_steps⟩
  unfold FifoContentWritten
  decide

theorem witness_OutstandingHalvesStayFilled :
    BlockInv busyNext ∧ OutstandingHalvesFilled busyNext ∧ busyNext.outstanding .cap .first = true ∧
      ∃ t, step busyNext = .next t := by
  refine ⟨busyNext_blockInv, ⟨by decide, fun h => ?_⟩, by decide, busyNext_steps⟩
  cases h <;> decide

theorem witness_HalvesStayOwnedApart :
    BlockInv busyNext ∧ HalvesOwnedApart busyNext .cap busyNext.cfg.capHalf ∧ HalvesOwnedApart busyNext .pb busyNext.cfg.pbHalf ∧
      (busyNext.chan .cap).race = false ∧ busyNext.outstanding .cap .first = true ∧ ∃ t, step busyNext = .next t := by
  refine ⟨busyNext_blockInv, fun _ h => ?_, fun _ h => ?_, by decide, by decide, busyNext_steps⟩ <;> cases h <;> decide

/-- A block that is about to send its first slot, and one that has sent them all and is sent a command with nothing to do. -/
theorem witness_FirstSlotsSentAreTheInitialBuffer :
    let s : State := { running cfgA with schedule := [⟨0x30000000#32, []⟩] }
    BlockInv s ∧ StartupTransient s ∧ s.epoch = 0 ∧ s.txTrace.length < s.cfg.pbHalf ∧ ∃ t, step s = .next t := by
  refine ⟨blockInv_of_running rfl (by decide), fun _ => ⟨fun i hi => ?_, fun _ => ⟨rfl, rfl, fun h => ?_⟩⟩, rfl, by decide, ⟨_, rfl⟩⟩
  · exact absurd hi (Nat.not_lt.2 ((Nat.min_le_left _ _).trans (Nat.zero_le i)))
  · cases h <;> rfl

theorem witness_HazardBitsStickAndDecideNothing :
    let s : State := { running cfgA with
      cap := { Channel.atReset with lost := true, race := true }
      pb := { Channel.atReset with lost := true, race := true } }
    (∃ t, exec .pollCap s = .next t) ∧ Instr.pollCap ≠ .sysReset ∧ Instr.pollCap ≠ .sysRdstat 11#16 ∧
    s.cap.lost = true ∧ s.pb.lost = true ∧ s.cap.race = true ∧ s.pb.race = true :=
  ⟨⟨_, rfl⟩, by decide⟩

theorem witness_CountersNeverGoDown :
    (∃ t, exec .svcCap0 { busy with ovrEvents := 0xFFFFFFFF#32, ovrSamples := 0xFFFFFFFF#32 } = .next t) ∧
    (∃ t, exec .svcPb0 { busyPb with undEvents := 0xFFFFFFFF#32, fifo := .atReset } = .next t) ∧
    Instr.svcCap0 ≠ .sysReset ∧ Instr.svcPb0 ≠ .sysReset ∧ Instr.svcPb0 ≠ .svcCap0 ∧ Instr.svcPb0 ≠ .svcCap1 ∧
    Instr.svcCap0 ≠ .svcPb0 ∧ Instr.svcCap0 ≠ .svcPb1 :=
  ⟨⟨_, exec_of_enabled (by decide) (by decide) (by decide) (by decide)⟩,
    ⟨_, exec_of_enabled (by decide) (by decide) (by decide) (by decide)⟩, by decide⟩

theorem witness_OutputIsNeverShortened :
    (∃ t, step { running cfgA with schedule := [⟨0x30000000#32, []⟩] } = .next t) ∧
    (∃ t, step { running cfgA with txTrace := [1], schedule := [⟨0x01000000#32, []⟩] } = .next t) := ⟨⟨_, rfl⟩, ⟨_, rfl⟩⟩

theorem witness_ParametersNeverChange : ∃ t, step { running cfgA with schedule := [⟨0x01000000#32, []⟩] } = .next t := ⟨_, rfl⟩

theorem witness_EntryPointsOfTheChannelsCommute :
    let s : State := { running cfgA with
      cap := { Channel.atReset with pend0 := true, flag := .secondHalfReady }
      pb := { Channel.atReset with pend1 := true } }
    configLegal s.cfg = true ∧ enabled .evCapHalf s = true ∧ enabled .evPbFull s = true := by decide

theorem witness_DmaStepsCommuteWithServicesOfTheOtherHalf :
    (BlockInv busy ∧ busy.sys = .running ∧ busy.job = jobOf .cap .first ∧ (0xFFFF#16).toNat < 2 ^ busy.cfg.rawW ∧
      halfOf busy.cap.pos busy.cfg.capHalf ≠ .first) ∧
    (BlockInv busyPb ∧ busyPb.sys = .running ∧ busyPb.job = jobOf .pb .first ∧ halfOf busyPb.pb.pos busyPb.cfg.pbHalf ≠ .first) :=
  ⟨⟨busy_blockInv, by decide⟩, busyPb_blockInv, by decide⟩

theorem witness_EventsVanishOnlyAsLost :
    (∃ t, exec .svcCap0 busy = .next t) ∧ busy.outstanding .cap .first = true ∧
    (∃ t, exec .evPbFull { running cfgA with pb := { Channel.atReset with pend1 := true, flag := .firstHalfReady } } = .next t) ∧
    ({ running cfgA with pb := { Channel.atReset with pend1 := true, flag := .firstHalfReady } } : State).outstanding .pb .first =
      true := ⟨⟨_, rfl⟩, by decide, ⟨_, rfl⟩, by decide⟩

/-- One operation of each agent, and the host on a running block; then the clauses on elements, each at the element next to those
that may change: the half of the job is slots 0 to 3, the one free FIFO element is 7. -/
theorem witness_AgentsKeepToTheirRights :
    (∃ t, exec (.capDma 1#16) busy = .next t) ∧ (∃ t, exec .pbDma busy = .next t) ∧
    (∃ t, exec .evCapHalf { running cfgA with cap := { Channel.atReset with pend0 := true } } = .next t) ∧
    (∃ t, exec .pollCap (running cfgA) = .next t) ∧ (running cfgA).job = .none ∧
    (∃ t, exec .svcPb0 busyPb = .next t) ∧ busyPb.job ≠ .none ∧
    (∀ h, busyPb.job = jobOf .pb h → 4 < h.index * busyPb.cfg.pbHalf ∨ (h.index + 1) * busyPb.cfg.pbHalf ≤ 4) ∧
    (∃ t, exec .svcCap0 busy = .next t) ∧
    (∀ k < min busy.cfg.capBatch (busy.cfg.fifoCap - busy.fifo.count.toNat), (busy.fifo.wr.toNat + k) % busy.cfg.fifoCap ≠ 6) ∧
    (∃ t, exec (.fifoWrblk 0#16) stoppedFull = .next t) ∧ stoppedFull.fifo.count.toNat ≤ stoppedFull.cfg.fifoCap ∧
    (∀ k < stoppedFull.cfg.fifoCap - stoppedFull.fifo.count.toNat,
      (stoppedFull.fifo.wr.toNat + k) % stoppedFull.cfg.fifoCap ≠ 0) ∧
    (∃ t, exec (.sysRdstat 4#16) busy = .next t) ∧ busy.sys ≠ .stopped :=
  ⟨⟨_, rfl⟩, ⟨_, rfl⟩, ⟨_, rfl⟩, ⟨_, rfl⟩, rfl, ⟨_, rfl⟩, by decide, by intro h; cases h <;> decide, ⟨_, rfl⟩, by decide, ⟨_, rfl⟩,
    by decide, by decide, ⟨_, rfl⟩, by decide⟩

theorem witness_ChannelsMeetOnlyInTheFifo :
    (∃ t, exec .svcCap0 busy = .next t) ∧ (∃ t, exec .svcPb0 busyPb = .next t) := ⟨⟨_, rfl⟩, ⟨_, rfl⟩⟩

/-! ### A fair execution -/

/-- The smallest configuration: every size 1. -/
def tiny : Config := { cfgEnds with
  fifoCap := 1
  rawW := 16
  capBatch := 1
  pbBatch := 1 }

/-- An operation of the interrupt context that may run, if there is one. -/
def pendingEntry (s : State) : Instr :=
  if s.cap.pend0 then .evCapHalf
  else if s.cap.pend1 then .evCapFull
  else if s.pb.pend0 then .evPbHalf
  else if s.pb.pend1 then .evPbFull
  else .sysRdstat 0#16

/-- The agents in turn: the host, the two engines, the scheduler, the interrupt context. -/
def turn (n : Nat) (s : State) : Instr :=
  if n % 5 = 0 then .sysRdstat 0#16
  else if n % 5 = 1 then .capDma 0#16
  else if n % 5 = 2 then .pbDma
  else if n % 5 = 3 then schedulerOp s.job s.phase
  else pendingEntry s

/-- The states of the fair execution. -/
def fairRun : Nat → State
  | 0 => running tiny
  | n + 1 => effectOf (turn n (fairRun n)) (fairRun n)

/-- Its commands. -/
def fairCommands (n : Nat) : Command := ⟨encode (turn n (fairRun n)), []⟩

/-- What every state of it has. -/
structure FairState (s : State) : Prop where
  cfg : s.cfg = tiny
  sys : s.sys = .running
  schedule : s.schedule = []
  cap : s.cap.pos < 2
  pb : s.pb.pos < 2
  rd : s.fifo.rd.toNat < 1

/-- The operations that take turns. -/
def turns : List Instr := [.sysRdstat 0#16, .capDma 0#16, .pbDma, .svcCap0, .svcCap1, .svcPb0, .svcPb1, .pollCap, .pollPb, .evCapHalf,
  .evCapFull, .evPbHalf, .evPbFull]

theorem schedulerOp_mem_turns (job : SchedJob) (phase : SchedPhase) : schedulerOp job phase ∈ turns := by
  cases job <;> cases phase <;> decide

theorem pendingEntry_mem_turns (s : State) : pendingEntry s ∈ turns := by
  unfold pendingEntry
  split_ifs <;> decide

theorem turn_mem_turns (n : Nat) (s : State) : turn n s ∈ turns := by
  unfold turn
  split_ifs
  · decide
  · decide
  · decide
  · exact schedulerOp_mem_turns _ _
  · exact pendingEntry_mem_turns s

theorem schedulerOp_enabled {s : State} (hs : s.sys = .running) : enabled (schedulerOp s.job s.phase) s = true := by
  rcases hj : s.job with _ | _ | _ | _ | _ <;> rcases hp : s.phase with _ | _ <;>
    simp [schedulerOp, serviceOf, pollOf, enabled, hs, hj, hp]

theorem pendingEntry_enabled {s : State} (hs : s.sys = .running) : enabled (pendingEntry s) s = true := by
  unfold pendingEntry
  split_ifs <;> simp_all [enabled]

theorem turn_enabled (n : Nat) {s : State} (h : FairState s) : enabled (turn n s) s = true := by
  unfold turn
  split_ifs
  · rfl
  · simp [enabled, h.sys]
  · simp [enabled, h.sys]
  · exact schedulerOp_enabled h.sys
  · exact pendingEntry_enabled h.sys

theorem dmaStep_pos_lt (c : Channel) (b : Bool) : (c.dmaStep 1 b).pos < 2 := by
  rw [Channel.dmaStep_pos]; exact Nat.mod_lt _ (by decide)

theorem fairState_effect {i : Instr} {s : State} (h : FairState s) (hi : i ∈ turns) : FairState (effectOf i s) := by
  obtain ⟨hc, hs, hq, h1, h2, h3⟩ := h
  have legal : configLegal s.cfg = true := hc ▸ by decide
  have capDone (hh : Half) : FairState (captureService hh s) := by
    rw [captureService_eq hh s legal]
    exact ⟨hc, hs, hq, h1, h2, h3⟩
  have pbDone (hh : Half) : FairState (playbackService hh s) := by
    rcases Nat.lt_or_ge s.fifo.count.toNat s.cfg.pbBatch with hn | hn
    · rw [playbackService_of_starved hh hn]
      exact ⟨hc, hs, hq, h1, h2, h3⟩
    · rw [playbackService_of_enough hh hn]
      refine ⟨hc, hs, hq, h1, h2, ?_⟩
      have hp : 0 < s.cfg.pbBatch := (legal_pbBatch legal).1
      obtain ⟨_, _, _, e⟩ := refill_fifo (c := s.cfg) s.fifoFill (hh.index * s.cfg.pbHalf) (legal_fifoCap legal) s.cfg.pbBatch 0 s.fifo
        s.pbBuf hn (fun _ => by rw [hc]; exact h3)
      exact (e hp).trans_lt (by rw [hc]; exact Nat.mod_lt _ (by decide))
  simp only [turns, List.mem_cons, List.not_mem_nil, or_false] at hi
  rcases hi with rfl | rfl | rfl | rfl | rfl | rfl | rfl | rfl | rfl | rfl | rfl | rfl | rfl
  · exact ⟨hc, hs, hq, h1, h2, h3⟩
  · exact ⟨hc, hs, hq, by simp only [effectOf, captureStep, State.respond_cap, hc]; exact dmaStep_pos_lt _ _, h2, h3⟩
  · exact ⟨hc, hs, hq, h1, by simp only [effectOf, playbackStep, State.respond_pb, hc]; exact dmaStep_pos_lt _ _, h3⟩
  · exact capDone _
  · exact capDone _
  · exact pbDone _
  · exact pbDone _
  all_goals exact ⟨hc, hs, hq, h1, h2, h3⟩

theorem fairRun_good : ∀ n, FairState (fairRun n)
  | 0 => ⟨rfl, rfl, rfl, by decide, by decide, by decide⟩
  | n + 1 => fairState_effect (fairRun_good n) (turn_mem_turns _ _)

theorem turn_decodes (n : Nat) (s : State) : decode 16 (encode (turn n s)) = .ok (turn n s) ∧ (turn n s).wellFormed 16 = true := by
  have h := turn_mem_turns n s
  generalize turn n s = i at *
  revert i
  decide

theorem turn_inside (n : Nat) {s : State} (h : FairState s) : indicesInside (turn n s) s = true := by
  obtain ⟨hc, _, _, h1, h2, h3⟩ := h
  have e1 : s.cap.pos < 2 * s.cfg.capHalf := by rw [hc]; exact h1
  have e2 : s.pb.pos < 2 * s.cfg.pbHalf := by rw [hc]; exact h2
  have e3 : s.fifo.rd.toNat < s.cfg.fifoCap := by rw [hc]; exact h3
  have hi := turn_mem_turns n s
  generalize turn n s = i at *
  cases i <;> simp_all [turns, indicesInside, popInRange]

theorem with_no_samples (s : State) : { s with din := s.din ++ [] } = s := by simp

theorem fairRun_isExecution : IsExecution fairCommands fairRun := by
  intro n
  have hg := fairRun_good n
  have hq : { fairRun n with schedule := [], din := (fairRun n).din ++ [] } = fairRun n := by
    conv => rhs; rw [← with_no_samples (fairRun n)]
    rw [← hg.schedule]
  obtain ⟨hd, hw⟩ := turn_decodes n (fairRun n)
  change execWord (encode (turn n (fairRun n))) { fairRun n with schedule := [], din := (fairRun n).din ++ [] } = _
  rw [hq]
  have hraw : (fairRun n).cfg.rawW = 16 := by rw [hg.cfg]; rfl
  simp only [execWord, hraw, hd]
  exact exec_of_enabled (by rw [hg.cfg]; decide) (by rw [hraw]; exact hw) (turn_enabled n hg) (turn_inside n hg)

theorem fairRun_steppingAgent (n : Nat) : steppingAgent (fairCommands n) (fairRun n) = some (agentOf (turn n (fairRun n))) := by
  have hg := fairRun_good n
  have hraw : (fairRun n).cfg.rawW = 16 := by rw [hg.cfg]; rfl
  simp only [steppingAgent, fairCommands, hraw, (turn_decodes n (fairRun n)).1, List.append_nil, turn_enabled n hg, if_true]

/-- The interrupt context takes its turn whenever it has an operation enabled. -/
theorem pendingEntry_agent {s : State} (h : hasEnabledOp .interrupt s) : agentOf (pendingEntry s) = .interrupt := by
  obtain ⟨i, ha, _, he⟩ := h
  unfold pendingEntry
  split_ifs <;> try rfl
  cases i <;> simp_all [agentOf, enabled]

theorem schedulerOp_agent (job : SchedJob) (phase : SchedPhase) : agentOf (schedulerOp job phase) = .scheduler := by
  cases job <;> cases phase <;> rfl

theorem witness_FairSchedulersFinishEveryJob :
    IsExecution fairCommands fairRun ∧ WeaklyFair fairCommands fairRun ∧ ∀ n, (fairRun n).sys = .running := by
  refine ⟨fairRun_isExecution, fun a n h => ?_, fun n => (fairRun_good n).sys⟩
  have at5 (k : Nat) (hk : k < 5) : n ≤ 5 * n + k ∧ (5 * n + k) % 5 = k := by omega
  cases a
  · exact ⟨5 * n + 0, (at5 0 (by decide)).1, by rw [fairRun_steppingAgent, turn, (at5 0 (by decide)).2]; rfl⟩
  · exact ⟨5 * n + 1, (at5 1 (by decide)).1, by rw [fairRun_steppingAgent, turn, (at5 1 (by decide)).2]; rfl⟩
  · exact ⟨5 * n + 2, (at5 2 (by decide)).1, by rw [fairRun_steppingAgent, turn, (at5 2 (by decide)).2]; rfl⟩
  · refine ⟨5 * n + 4, (at5 4 (by decide)).1, ?_⟩
    rw [fairRun_steppingAgent, turn, (at5 4 (by decide)).2]
    exact congrArg some (pendingEntry_agent (h _ (at5 4 (by decide)).1))
  · refine ⟨5 * n + 3, (at5 3 (by decide)).1, ?_⟩
    rw [fairRun_steppingAgent, turn, (at5 3 (by decide)).2]
    exact congrArg some (schedulerOp_agent _ _)

end Sys2Proof.Tests
end

/-!
PROOFS. The statements of `00_scope.md`: the parameters never change (R14), the diagnostic counters never go down (R9, R34).
-/
namespace Sys2Proof.Machine

/-! ## The fields each effect may write -/

/-- `FIFO.WRITE` writes nothing but the FIFO and the result. -/
theorem writeSample_frame (v : Sample) (s : State) :
    ∃ f code val, writeSample v s = { s with fifo := f }.respond code val := by
  rcases writeSample_cases v s with ⟨_, hfull⟩ | ⟨f, _, hroom⟩
  · exact ⟨s.fifo, _, _, hfull⟩
  · exact ⟨f, _, _, hroom⟩

/-- `FIFO.READ` writes nothing but the FIFO and the result. -/
theorem readSample_frame (s : State) : ∃ f code val, readSample s = { s with fifo := f }.respond code val := by
  rcases readSample_cases s with ⟨_, hempty⟩ | ⟨v, f, _, hsome⟩
  · exact ⟨s.fifo, _, _, hempty⟩
  · exact ⟨f, _, _, hsome⟩

/-- `SYS.START` writes nothing but the state of the block and the result. -/
theorem startBlock_frame (ok : Bool) (s : State) :
    ∃ y code val, startBlock ok s = { s with sys := y }.respond code val := by
  cases ok
  · exact ⟨.halted, _, _, rfl⟩
  · exact ⟨.running, _, _, rfl⟩

/-- The parameters and the underrun counter are not a capture service's to write. -/
theorem captureService_frame {s : State} (hc : configLegal s.cfg = true) (h : Half) :
    (captureService h s).cfg = s.cfg ∧ (captureService h s).undEvents = s.undEvents := by
  rw [captureService_eq h s hc]
  exact ⟨rfl, rfl⟩

/-- The parameters and the overrun counters are not a playback service's to write. -/
theorem playbackService_frame (h : Half) (s : State) :
    (playbackService h s).cfg = s.cfg ∧ (playbackService h s).ovrEvents = s.ovrEvents ∧
      (playbackService h s).ovrSamples = s.ovrSamples := by
  rcases Nat.lt_or_ge s.fifo.count.toNat s.cfg.pbBatch with hstarved | henough
  · rw [playbackService_of_starved h hstarved]
    exact ⟨rfl, rfl, rfl⟩
  · rw [playbackService_of_enough h henough]
    exact ⟨rfl, rfl, rfl⟩

/-! ## The parameters (R14) -/

/-- No operation has an effect on a parameter. -/
theorem effectOf_cfg {s : State} (hc : configLegal s.cfg = true) (i : Instr) : (effectOf i s).cfg = s.cfg := by
  cases i with
  | sysStart ok => obtain ⟨_, _, _, e⟩ := startBlock_frame ok s; simp [effectOf, e]
  | fifoWrite v => obtain ⟨_, _, _, e⟩ := writeSample_frame v s; simp [effectOf, e]
  | fifoRead => obtain ⟨_, _, _, e⟩ := readSample_frame s; simp [effectOf, e]
  | svcCap0 => exact (captureService_frame hc .first).1
  | svcCap1 => exact (captureService_frame hc .second).1
  | svcPb0 => exact (playbackService_frame .first s).1
  | svcPb1 => exact (playbackService_frame .second s).1
  | _ => rfl

/-- Settles O43: the parameters `s` starts with are an invariant of every effect and of every answer by code. -/
theorem parametersNeverChange : Obligations.ParametersNeverChange := by
  intro s t hstep
  exact step_induction (P := fun u => u.cfg = s.cfg)
    (fun u hu => (State.takeCommand_cfg u).trans hu)
    (fun _ _ _ _ hu => hu)
    (fun i _ hc _ _ _ hu => (effectOf_cfg hc i).trans hu)
    rfl hstep

/-! ## The diagnostic counters (R9, R34) -/

/-- A capture service leaves each overrun counter or adds to it, saturating. -/
theorem captureService_overruns_le {s : State} (hc : configLegal s.cfg = true) (h : Half) :
    s.ovrEvents.toNat ≤ (captureService h s).ovrEvents.toNat ∧
      s.ovrSamples.toNat ≤ (captureService h s).ovrSamples.toNat := by
  rw [captureService_eq h s hc]
  dsimp only
  split_ifs with hdropped
  · exact ⟨le_satInc _ _, le_satInc _ _⟩
  · exact ⟨le_rfl, le_rfl⟩

/-- A playback service leaves the underrun counter or adds to it, saturating. -/
theorem playbackService_underruns_le (h : Half) (s : State) :
    s.undEvents.toNat ≤ (playbackService h s).undEvents.toNat := by
  rcases Nat.lt_or_ge s.fifo.count.toNat s.cfg.pbBatch with hstarved | henough
  · rw [playbackService_of_starved h hstarved]
    exact le_satInc _ _
  · rw [playbackService_of_enough h henough]

/-- Who may move a diagnostic counter: `SYS.RESET`, a capture service or a playback service; every other effect keeps all three. -/
theorem effectOf_counters_cases (i : Instr) (s : State) :
    i = .sysReset ∨
    (∃ h, i = serviceInstr .cap h ∧ effectOf i s = captureService h s) ∨
    (∃ h, i = serviceInstr .pb h ∧ effectOf i s = playbackService h s) ∨
    ((effectOf i s).ovrEvents = s.ovrEvents ∧ (effectOf i s).ovrSamples = s.ovrSamples ∧
      (effectOf i s).undEvents = s.undEvents) := by
  cases i with
  | sysReset => exact .inl rfl
  | svcCap0 => exact .inr (.inl ⟨.first, rfl, rfl⟩)
  | svcCap1 => exact .inr (.inl ⟨.second, rfl, rfl⟩)
  | svcPb0 => exact .inr (.inr (.inl ⟨.first, rfl, rfl⟩))
  | svcPb1 => exact .inr (.inr (.inl ⟨.second, rfl, rfl⟩))
  | sysStart ok => obtain ⟨_, _, _, e⟩ := startBlock_frame ok s; simp [effectOf, e]
  | fifoWrite v => obtain ⟨_, _, _, e⟩ := writeSample_frame v s; simp [effectOf, e]
  | fifoRead => obtain ⟨_, _, _, e⟩ := readSample_frame s; simp [effectOf, e]
  | _ => exact .inr (.inr (.inr ⟨rfl, rfl, rfl⟩))

/-- Settles O41: an answer by code keeps the counters, and an effect moves them only in a service, where they only rise. -/
theorem countersNeverGoDown : Obligations.CountersNeverGoDown := by
  intro s t i hexec hreset
  obtain ⟨hc, ⟨_, rfl⟩ | ⟨_, _, rfl⟩ | ⟨_, _, _, rfl⟩⟩ := exec_cases hexec
  · simp
  · simp
  · rcases effectOf_counters_cases i s with rfl | ⟨h, rfl, e⟩ | ⟨h, rfl, e⟩ | ⟨eEvents, eSamples, eUnd⟩
    · exact absurd rfl hreset
    · obtain ⟨hEvents, hSamples⟩ := captureService_overruns_le hc h
      obtain ⟨_, hUnd⟩ := captureService_frame hc h
      rw [e]
      refine ⟨hEvents, hSamples, hUnd.symm ▸ le_rfl, fun hne0 hne1 => ?_, fun _ _ => hUnd⟩
      cases h
      · exact absurd rfl hne0
      · exact absurd rfl hne1
    · obtain ⟨_, hEvents, hSamples⟩ := playbackService_frame h s
      rw [e]
      refine ⟨hEvents.symm ▸ le_rfl, hSamples.symm ▸ le_rfl, playbackService_underruns_le h s,
        fun _ _ => ⟨hEvents, hSamples⟩, fun hne0 hne1 => ?_⟩
      cases h
      · exact absurd rfl hne0
      · exact absurd rfl hne1
    · simp [eEvents, eSamples, eUnd]

end Sys2Proof.Machine

/-!
PROOFS. The statements of `10_state.md`: every step keeps the invariant of the block (R23, R45, R63), power-up meets it (R46),
the output is never shortened (R37), hazard bits stick and decide nothing (R35), and the status registers show the map (R41).
-/
namespace Sys2Proof.Machine

/-! ## The parts of the invariant, one for each component of the block -/

/-- What `BlockInv` says of the FIFO (R23, R63), for a capacity `cap`. -/
structure FifoInv (cap : Nat) (f : Fifo) : Prop where
  memWf : f.mem.wf
  memInside : ∀ i, f.mem.lookup i ≠ none → i < cap
  wrInside : f.wr.toNat < cap
  rdInside : f.rd.toNat < cap
  countInside : f.count.toNat ≤ cap
  cursorsAgree : f.wr.toNat = (f.rd.toNat + f.count.toNat) % cap

/-- What `BlockInv` says of the capture buffer and its engine (R24, R63). -/
structure CaptureInv (c : Config) (m : Memory) (ch : Channel) : Prop where
  bufWf : m.wf
  bufInside : ∀ i v, m.lookup i = some v → i < 2 * c.capHalf ∧ v.toNat < 2 ^ c.rawW
  posInside : ch.pos < 2 * c.capHalf

/-- What `BlockInv` says of the playback buffer and its engine (R28, R63). -/
structure PlaybackInv (c : Config) (m : Memory) (ch : Channel) : Prop where
  bufWf : m.wf
  bufInside : ∀ i, m.lookup i ≠ none → i < 2 * c.pbHalf
  posInside : ch.pos < 2 * c.pbHalf

/-- The channels, the buffers, the scheduler, the collaborators and the counters are as reset leaves them (R45, R46). -/
def AtRest (s : State) : Prop :=
  s.cap = .atReset ∧ s.pb = .atReset ∧ s.capBuf = .unwritten ∧ s.pbBuf = .unwritten ∧ s.job = .none
    ∧ s.phase = firstPhase s.cfg.pollOrder ∧ s.filt = s.cfg.filtInit ∧ s.hook = s.cfg.hookInit
    ∧ s.ovrEvents = 0#32 ∧ s.ovrSamples = 0#32 ∧ s.undEvents = 0#32

/-- The invariant of the block is that of its components, and rest unless it runs. -/
theorem blockInv_iff (s : State) : BlockInv s ↔
    configLegal s.cfg = true ∧ FifoInv s.cfg.fifoCap s.fifo ∧ CaptureInv s.cfg s.capBuf s.cap ∧
      PlaybackInv s.cfg s.pbBuf s.pb ∧ (s.sys ≠ .running → AtRest s) := by
  constructor
  · intro h
    exact ⟨h.legal, ⟨h.fifoMemWf, h.fifoMemInside, h.wrInside, h.rdInside, h.countInside, h.cursorsAgree⟩,
      ⟨h.capBufWf, h.capBufInside, h.capPosInside⟩, ⟨h.pbBufWf, h.pbBufInside, h.pbPosInside⟩, h.atRestUnlessRunning⟩
  · rintro ⟨legal, fifo, cap, pb, rest⟩
    exact ⟨legal, fifo.memWf, cap.bufWf, pb.bufWf, fifo.memInside, cap.bufInside, pb.bufInside, fifo.wrInside, fifo.rdInside,
      fifo.countInside, fifo.cursorsAgree, cap.posInside, pb.posInside, rest⟩

/-! ### Reset (R46) -/

theorem fifoInv_atReset {cap : Nat} (hc : 1 ≤ cap) : FifoInv cap .atReset where
  memWf := Memory.unwritten_wf
  memInside _ hi := absurd rfl hi
  wrInside := hc
  rdInside := hc
  countInside := Nat.zero_le _
  cursorsAgree := (Nat.zero_mod cap).symm

theorem captureInv_atReset {c : Config} (hc : configLegal c = true) : CaptureInv c .unwritten .atReset where
  bufWf := Memory.unwritten_wf
  bufInside _ _ hi := absurd hi (by simp)
  posInside := Nat.mul_pos two_pos (legal_capHalf hc)

theorem playbackInv_atReset {c : Config} (hc : configLegal c = true) : PlaybackInv c .unwritten .atReset where
  bufWf := Memory.unwritten_wf
  bufInside _ hi := absurd rfl hi
  posInside := Nat.mul_pos two_pos (legal_pbHalf hc)

/-- A block at rest whose FIFO is in order meets the invariant, whatever `sys_state` says. -/
theorem blockInv_of_atRest {s : State} (hc : configLegal s.cfg = true) (hf : FifoInv s.cfg.fifoCap s.fifo) (hr : AtRest s) :
    BlockInv s := by
  have rest := hr
  obtain ⟨hcap, hpb, hcapBuf, hpbBuf, -⟩ := hr
  refine (blockInv_iff s).2 ⟨hc, hf, ?_, ?_, fun _ => rest⟩
  · rw [hcapBuf, hcap]; exact captureInv_atReset hc
  · rw [hpbBuf, hpb]; exact playbackInv_atReset hc

theorem powerUp_atRest (c : Config) : AtRest (State.powerUp c) := by simp [AtRest]

theorem resetBlock_atRest (s : State) : AtRest s.resetBlock := by simp [AtRest]

theorem powerUp_blockInv {c : Config} (hc : configLegal c = true) : BlockInv (State.powerUp c) :=
  blockInv_of_atRest hc (fifoInv_atReset (legal_fifoCap hc).1) (powerUp_atRest c)

theorem resetBlock_blockInv {s : State} (hc : configLegal s.cfg = true) : BlockInv s.resetBlock :=
  blockInv_of_atRest hc (fifoInv_atReset (legal_fifoCap hc).1) (resetBlock_atRest s)

/-- In a block at rest no half is outstanding. -/
theorem AtRest.not_outstanding {s : State} (h : AtRest s) (ch : Chan) (hf : Half) : s.outstanding ch hf = false := by
  obtain ⟨hcap, hpb, -, -, hjob, -⟩ := h
  rw [Bool.eq_false_iff, Ne, outstanding_iff]
  cases ch <;> cases hf <;> simp [hcap, hpb, hjob, ready, jobOf, Channel.atReset, Channel.pend]

/-- A block at rest has its halves owned apart: each of the four cases would need an outstanding half. -/
theorem AtRest.halvesOwnedApart {s : State} (h : AtRest s) (ch : Chan) (H : Nat) : HalvesOwnedApart s ch H := by
  intro _ hf
  have hout := h.not_outstanding ch hf
  have hnone := (Bool.eq_false_iff.1 hout) ∘ (outstanding_iff hf s ch).2
  exact ⟨fun ho => absurd (ho.symm.trans hout) (by decide), fun ho => hnone (.inl ho.1), fun ho => hnone (.inl ho.1),
    fun ho => hnone (.inr (.inl ho.1))⟩

/-- Settles O34: the power-up state is a block at rest with an empty FIFO, an empty output and both engines at 0. -/
theorem powerUpMeetsTheInvariants : Obligations.PowerUpMeetsTheInvariants := by
  intro c hc
  have hrest := powerUp_atRest c
  refine ⟨powerUp_blockInv hc, ?_, ⟨?_, ?_⟩, hrest.halvesOwnedApart .cap _, hrest.halvesOwnedApart .pb _, fun _ => ⟨?_, ?_⟩⟩
  · intro i hi
    exact absurd hi (by simp [Fifo.atReset])
  · intro i hi
    exact absurd hi (Nat.not_lt_zero i)
  · intro h hout
    exact absurd (hout.symm.trans (hrest.not_outstanding .cap h)) (by decide)
  · intro i hi
    exact absurd hi (by simp)
  · intro _
    exact ⟨rfl, rfl, hrest.not_outstanding .pb⟩

/-! ## The FIFO functions keep the FIFO in order (R23, R63) -/

section FifoInv

variable {cap : Nat} {f f' : Fifo}

theorem FifoInv.init (h : FifoInv cap f) : FifoInv cap f.init where
  memWf := h.memWf
  memInside := h.memInside
  wrInside := (Nat.zero_le _).trans_lt h.wrInside
  rdInside := (Nat.zero_le _).trans_lt h.rdInside
  countInside := Nat.zero_le _
  cursorsAgree := (Nat.zero_mod cap).symm

/-- Moving the read cursor `n` samples on, to a FIFO with `n` samples fewer, keeps the FIFO in order. -/
theorem FifoInv.of_read (h : FifoInv cap f) {n : Nat} (hn : n ≤ f.count.toNat) (hmem : f'.mem = f.mem) (hwr : f'.wr = f.wr)
    (hrd : f'.rd.toNat = (f.rd.toNat + n) % cap) (hcount : f'.count.toNat = f.count.toNat - n) : FifoInv cap f' where
  memWf := hmem ▸ h.memWf
  memInside := hmem ▸ h.memInside
  wrInside := hwr ▸ h.wrInside
  rdInside := hrd ▸ Nat.mod_lt _ ((Nat.zero_le _).trans_lt h.rdInside)
  countInside := by have := h.countInside; omega
  cursorsAgree := by
    rw [hwr, h.cursorsAgree, hrd, hcount, Nat.mod_add_mod]
    congr 1
    omega

/-- Moving the write cursor `n` samples on, to a FIFO with `n` samples more that still fit, keeps the FIFO in order. -/
theorem FifoInv.of_write (h : FifoInv cap f) {n : Nat} (hn : f.count.toNat + n ≤ cap) (hwf : f'.mem.wf)
    (hin : ∀ i, f'.mem.lookup i ≠ none → i < cap) (hrd : f'.rd = f.rd) (hwr : f'.wr.toNat = (f.wr.toNat + n) % cap)
    (hcount : f'.count.toNat = f.count.toNat + n) : FifoInv cap f' where
  memWf := hwf
  memInside := hin
  wrInside := hwr ▸ Nat.mod_lt _ ((Nat.zero_le _).trans_lt h.wrInside)
  rdInside := hrd ▸ h.rdInside
  countInside := hcount ▸ hn
  cursorsAgree := by rw [hwr, h.cursorsAgree, hrd, hcount, Nat.mod_add_mod, Nat.add_assoc]

theorem FifoInv.write (hc : 1 ≤ cap ∧ cap ≤ 65535) (h : FifoInv cap f) {v : Sample} (e : f.write cap v = some f') :
    FifoInv cap f' := by
  rcases Fifo.write_cases v hc h.countInside with ⟨_, hfull⟩ | ⟨g, hroom, hg, hmem, hrd, hwr, hcount⟩
  · exact absurd (hfull.symm.trans e) (by simp)
  · obtain rfl : g = f' := Option.some.inj (hg.symm.trans e)
    refine h.of_write hroom (hmem ▸ Memory.write_wf h.memWf _ _) (fun i hi => ?_) hrd hwr hcount
    rw [hmem, Memory.lookup_write] at hi
    split_ifs at hi with hat
    · exact hat ▸ h.wrInside
    · exact h.memInside i hi

theorem FifoInv.read (hc : 1 ≤ cap ∧ cap ≤ 65535) (h : FifoInv cap f) {fill : Nat → Sample} {v : Sample}
    (e : f.read cap fill = some (v, f')) : FifoInv cap f' := by
  rcases Fifo.read_cases fill hc (f := f) with ⟨_, hempty⟩ | ⟨g, hpos, hg, hmem, hwr, hrd, hcount⟩
  · exact absurd (hempty.symm.trans e) (by simp)
  · obtain rfl : g = f' := (Prod.ext_iff.1 (Option.some.inj (hg.symm.trans e))).2
    exact h.of_read hpos hmem hwr hrd hcount

theorem FifoInv.writeBlock (hc : 1 ≤ cap ∧ cap ≤ 65535) (h : FifoInv cap f) (xs : List Sample) :
    FifoInv cap (f.writeBlock cap xs).2 := by
  have hfit : f.count.toNat + min xs.length (cap - f.count.toNat) ≤ cap := by
    have := h.countInside
    omega
  refine h.of_write hfit (Fifo.writeBlock_wf xs h.memWf) (fun i hi => ?_) rfl (Fifo.writeBlock_wr f xs hc)
    (Fifo.writeBlock_count xs hc h.countInside)
  exact (lookup_ringWrite_ne_none hc.1 _ _ _ i hi).elim (h.memInside i) id

theorem FifoInv.readBlock (hc : 1 ≤ cap ∧ cap ≤ 65535) (h : FifoInv cap f) (fill : Nat → Sample) (n : Nat) :
    FifoInv cap (f.readBlock cap fill n).2 :=
  h.of_read (min_le_right n _) rfl rfl (Fifo.readBlock_rd fill f n hc) (Fifo.readBlock_count cap fill f n)

/-- The refill loop pops like that many single reads (R156). -/
theorem FifoInv.refill {c : Config} (hc : configLegal c = true) (h : FifoInv c.fifoCap f) (fill : Nat → Sample) (base : Nat)
    (m : Memory) (hn : c.pbBatch ≤ f.count.toNat) : FifoInv c.fifoCap (refill c fill base c.pbBatch 0 f m).1 := by
  obtain ⟨hmem, hwr, hcount, hrd⟩ :=
    refill_fifo fill base (legal_fifoCap hc) c.pbBatch 0 f m hn (fun _ => h.rdInside)
  exact h.of_read hn hmem hwr (hrd (legal_pbBatch hc).1) hcount

end FifoInv

/-! ## The two sides keep their buffers and positions inside (R24, R28, R63) -/

theorem Channel.dmaStep_pos_lt (c : Channel) {H : Nat} (busy : Bool) (hH : 1 ≤ H) : (c.dmaStep H busy).pos < 2 * H := by
  rw [Channel.dmaStep_pos]
  exact Nat.mod_lt _ (Nat.mul_pos two_pos hH)

/-- Storing an element of `RAW_W` bits at the position and moving on keeps the capture side inside (R130). -/
theorem CaptureInv.dma {c : Config} {m : Memory} {ch : Channel} (hc : configLegal c = true) (h : CaptureInv c m ch)
    {w : Raw} (hw : w.toNat < 2 ^ c.rawW) (busy : Bool) :
    CaptureInv c (m.write ch.pos w) (ch.dmaStep c.capHalf busy) where
  bufWf := Memory.write_wf h.bufWf _ _
  bufInside i v hi := by
    rw [Memory.lookup_write] at hi
    split_ifs at hi with hat
    · obtain rfl := Option.some.inj hi
      exact ⟨hat ▸ h.posInside, hw⟩
    · exact h.bufInside i v hi
  posInside := Channel.dmaStep_pos_lt _ _ (legal_capHalf hc)

/-- Only the position of the engine matters, so an event taken or a flag cleared changes nothing here. -/
theorem CaptureInv.of_pos {c : Config} {m : Memory} {ch ch' : Channel} (h : CaptureInv c m ch) (e : ch'.pos = ch.pos) :
    CaptureInv c m ch' := ⟨h.bufWf, h.bufInside, e ▸ h.posInside⟩

theorem PlaybackInv.of_pos {c : Config} {m : Memory} {ch ch' : Channel} (h : PlaybackInv c m ch) (e : ch'.pos = ch.pos) :
    PlaybackInv c m ch' := ⟨h.bufWf, h.bufInside, e ▸ h.posInside⟩

theorem PlaybackInv.dma {c : Config} {m : Memory} {ch : Channel} (hc : configLegal c = true) (h : PlaybackInv c m ch)
    (busy : Bool) : PlaybackInv c m (ch.dmaStep c.pbHalf busy) :=
  ⟨h.bufWf, h.bufInside, Channel.dmaStep_pos_lt _ _ (legal_pbHalf hc)⟩

/-- The two halves are the whole buffer: an index at or beyond its end is outside either (R61). -/
theorem half_end_le (h : Half) (H : Nat) : (h.index + 1) * H ≤ 2 * H :=
  Nat.mul_le_mul_right H (by cases h <;> decide)

/-- A playback service keeps the canonical form of its buffer. -/
theorem playbackService_wf (h : Half) {s : State} (hwf : s.pbBuf.wf) : (playbackService h s).pbBuf.wf := by
  rcases Nat.lt_or_ge s.fifo.count.toNat s.cfg.pbBatch with hstarved | henough
  · rw [playbackService_of_starved h hstarved]
    dsimp only
    split
    · exact hwf
    · exact silenceSlots_wf _ _ _ hwf
  · rw [playbackService_of_enough h henough]
    exact refill_wf _ _ _ _ _ _ hwf

/-- A playback service leaves the FIFO in order, starved or not. -/
theorem playbackService_fifoInv (h : Half) {s : State} (hc : configLegal s.cfg = true) (hf : FifoInv s.cfg.fifoCap s.fifo) :
    FifoInv s.cfg.fifoCap (playbackService h s).fifo := by
  rcases Nat.lt_or_ge s.fifo.count.toNat s.cfg.pbBatch with hstarved | henough
  · rw [playbackService_of_starved h hstarved]
    exact hf
  · rw [playbackService_of_enough h henough]
    exact hf.refill hc _ _ _ henough

/-- A playback service writes the FIFO, its buffer, the job, the underrun counter and the result, and nothing else. -/
theorem playbackService_eq_update (h : Half) (s : State) :
    playbackService h s = { s with
      fifo := (playbackService h s).fifo
      pbBuf := (playbackService h s).pbBuf
      job := .none
      undEvents := (playbackService h s).undEvents
      result := (playbackService h s).result } := by
  rcases Nat.lt_or_ge s.fifo.count.toNat s.cfg.pbBatch with hstarved | henough
  · rw [playbackService_of_starved h hstarved]
  · rw [playbackService_of_enough h henough]

/-- Every slot a playback service writes is inside the buffer, because it is inside the service's half (R63, R156). -/
theorem PlaybackInv.service {s : State} (hc : configLegal s.cfg = true) (h : PlaybackInv s.cfg s.pbBuf s.pb) (hf : Half) :
    PlaybackInv s.cfg (playbackService hf s).pbBuf s.pb where
  bufWf := playbackService_wf hf h.bufWf
  bufInside i hi := by
    rcases Nat.lt_or_ge i (2 * s.cfg.pbHalf) with hlt | hge
    · exact hlt
    · rw [playbackService_lookup_of_outside hc hf i (.inr ((half_end_le hf _).trans hge))] at hi
      exact h.bufInside i hi
  posInside := h.posInside

/-! ## One step (R45, R63, R208) -/

/-- The result, the schedule and the streams are no part of the invariant. -/
theorem BlockInv.respond {s : State} (h : BlockInv s) (code : ResultCode) (val : Word32) : BlockInv (s.respond code val) := by
  obtain ⟨legal, fifo, cap, pb, rest⟩ := (blockInv_iff s).1 h
  exact (blockInv_iff _).2 ⟨legal, fifo, cap, pb, rest⟩

theorem BlockInv.takeCommand {s : State} (h : BlockInv s) : BlockInv s.takeCommand := by
  rw [blockInv_iff] at h ⊢
  simpa [AtRest] using h

/-- A FIFO in order may be put in place of another, with any streams, whatever the block is doing. -/
theorem BlockInv.withFifo {s : State} (h : BlockInv s) {f : Fifo} (hf : FifoInv s.cfg.fifoCap f) (xs ys : List Sample) :
    BlockInv { s with fifo := f, din := xs, dout := ys } := by
  obtain ⟨legal, -, cap, pb, rest⟩ := (blockInv_iff s).1 h
  exact (blockInv_iff _).2 ⟨legal, hf, cap, pb, rest⟩

/-- A running block need not be at rest. -/
theorem BlockInv.of_running {s : State} (hc : configLegal s.cfg = true) (run : s.sys = .running)
    (fifo : FifoInv s.cfg.fifoCap s.fifo) (cap : CaptureInv s.cfg s.capBuf s.cap) (pb : PlaybackInv s.cfg s.pbBuf s.pb) :
    BlockInv s :=
  (blockInv_iff s).2 ⟨hc, fifo, cap, pb, fun hne => absurd run hne⟩

/-- `SYS.START` finds the block at rest, which it leaves as it is (R186). -/
theorem startBlock_blockInv {s : State} (h : BlockInv s) (hs : s.sys = .stopped) (ok : Bool) : BlockInv (startBlock ok s) := by
  obtain ⟨legal, fifo, -, -, rest⟩ := (blockInv_iff s).1 h
  have hrest : AtRest s := rest (by simp [hs])
  obtain ⟨y, code, val, e⟩ := startBlock_frame ok s
  rw [e]
  exact (blockInv_of_atRest (s := { s with sys := y }) legal fifo hrest).respond code val

theorem writeSample_blockInv {s : State} (h : BlockInv s) (v : Sample) : BlockInv (writeSample v s) := by
  obtain ⟨legal, fifo, -⟩ := (blockInv_iff s).1 h
  rcases writeSample_cases v s with ⟨_, e⟩ | ⟨f, hf, e⟩
  · exact e ▸ h.respond _ _
  · exact e ▸ (h.withFifo (fifo.write (legal_fifoCap legal) hf) s.din s.dout).respond _ _

theorem readSample_blockInv {s : State} (h : BlockInv s) : BlockInv (readSample s) := by
  obtain ⟨legal, fifo, -⟩ := (blockInv_iff s).1 h
  rcases readSample_cases s with ⟨_, e⟩ | ⟨v, f, hf, e⟩
  · exact e ▸ h.respond _ _
  · exact e ▸ (h.withFifo (fifo.read (legal_fifoCap legal) hf) s.din s.dout).respond _ _

section Running

variable {s : State} (h : BlockInv s) (run : s.sys = .running)
include h run

theorem captureStep_blockInv {w : Raw} (hw : w.toNat < 2 ^ s.cfg.rawW) : BlockInv (captureStep w s) := by
  obtain ⟨legal, fifo, cap, pb, -⟩ := (blockInv_iff s).1 h
  exact BlockInv.of_running legal run fifo (cap.dma legal hw _) pb

theorem captureEvent_blockInv (hf : Half) : BlockInv (captureEvent hf s) := by
  obtain ⟨legal, fifo, cap, pb, -⟩ := (blockInv_iff s).1 h
  exact BlockInv.of_running legal run fifo (cap.of_pos (Channel.enter_pos s.cap hf)) pb

theorem captureService_blockInv (hf : Half) : BlockInv (captureService hf s) := by
  obtain ⟨legal, fifo, cap, pb, -⟩ := (blockInv_iff s).1 h
  rw [captureService_eq hf s legal]
  exact BlockInv.of_running legal run (fifo.writeBlock (legal_fifoCap legal) _) cap pb

theorem playbackStep_blockInv : BlockInv (playbackStep s) := by
  obtain ⟨legal, fifo, cap, pb, -⟩ := (blockInv_iff s).1 h
  exact BlockInv.of_running legal run fifo cap (pb.dma legal _)

theorem playbackEvent_blockInv (hf : Half) : BlockInv (playbackEvent hf s) := by
  obtain ⟨legal, fifo, cap, pb, -⟩ := (blockInv_iff s).1 h
  exact BlockInv.of_running legal run fifo cap (pb.of_pos (Channel.enter_pos s.pb hf))

theorem playbackService_blockInv (hf : Half) : BlockInv (playbackService hf s) := by
  obtain ⟨legal, fifo, cap, pb, -⟩ := (blockInv_iff s).1 h
  rw [playbackService_eq_update]
  exact BlockInv.of_running legal run (playbackService_fifoInv hf legal fifo) cap (pb.service legal hf)

theorem pollCapture_blockInv : BlockInv (pollCapture s) := by
  obtain ⟨legal, fifo, cap, pb, -⟩ := (blockInv_iff s).1 h
  exact BlockInv.of_running legal run fifo (cap.of_pos (Channel.clearFlag_pos s.cap)) pb

theorem pollPlayback_blockInv : BlockInv (pollPlayback s) := by
  obtain ⟨legal, fifo, cap, pb, -⟩ := (blockInv_iff s).1 h
  exact BlockInv.of_running legal run fifo cap (pb.of_pos (Channel.clearFlag_pos s.pb))

end Running

/-- Outside the host's operations nothing is enabled but while the block runs (R95, R188). -/
theorem running_of_enabled {i : Instr} {s : State} (he : enabled i s = true) (hi : agentOf i ≠ .host) : s.sys = .running := by
  cases i <;> simp_all [enabled, agentOf]

/-- The effect of every enabled operation keeps the invariant. -/
theorem effectOf_blockInv {i : Instr} {s : State} (hl : i.wellFormed s.cfg.rawW = true) (he : enabled i s = true)
    (h : BlockInv s) : BlockInv (effectOf i s) := by
  obtain ⟨legal, fifo, -⟩ := (blockInv_iff s).1 h
  have hcap := legal_fifoCap legal
  have run := running_of_enabled he
  cases i with
  | sysReset => exact (resetBlock_blockInv legal).respond _ _
  | sysStart ok => exact startBlock_blockInv h (by simpa [enabled] using he) ok
  | sysRdstat r => exact h.respond _ _
  | fifoInit => exact (h.withFifo fifo.init s.din s.dout).respond _ _
  | fifoWrite v => exact writeSample_blockInv h v
  | fifoRead => exact readSample_blockInv h
  | fifoWrblk n => exact (h.withFifo (fifo.writeBlock hcap _) (s.din.drop n.toNat) s.dout).respond _ _
  | fifoRdblk n => exact (h.withFifo (fifo.readBlock hcap _ n.toNat) s.din _).respond _ _
  | capDma w => exact captureStep_blockInv h (run nofun) (by simpa [Instr.wellFormed] using hl)
  | evCapHalf => exact captureEvent_blockInv h (run nofun) .first
  | evCapFull => exact captureEvent_blockInv h (run nofun) .second
  | svcCap0 => exact captureService_blockInv h (run nofun) .first
  | svcCap1 => exact captureService_blockInv h (run nofun) .second
  | pbDma => exact playbackStep_blockInv h (run nofun)
  | evPbHalf => exact playbackEvent_blockInv h (run nofun) .first
  | evPbFull => exact playbackEvent_blockInv h (run nofun) .second
  | svcPb0 => exact playbackService_blockInv h (run nofun) .first
  | svcPb1 => exact playbackService_blockInv h (run nofun) .second
  | pollCap => exact pollCapture_blockInv h (run nofun)
  | pollPb => exact pollPlayback_blockInv h (run nofun)

/-- Under the invariant every index an operation uses as it stands is inside its memory (R63). -/
theorem BlockInv.indicesInside {s : State} (h : BlockInv s) (i : Instr) : indicesInside i s = true := by
  cases i with
  | fifoWrite v => exact decide_eq_true (.inr h.wrInside)
  | fifoRead => exact decide_eq_true (.inr h.rdInside)
  | capDma w => exact decide_eq_true h.capPosInside
  | pbDma => exact decide_eq_true h.pbPosInside
  | svcPb0 => exact decide_eq_true (.inr h.rdInside)
  | svcPb1 => exact decide_eq_true (.inr h.rdInside)
  | _ => rfl

/-- With legal parameters and its indices inside their memories, an issued operation completes (R208). -/
theorem issue_completes {s : State} (hc : configLegal s.cfg = true) {inR : Bool} (hr : inR = true) (legal en : Bool)
    (u : State) : ∃ t, issue s legal en inR u = .next t := by
  cases legal with
  | false => exact ⟨_, issue_of_illegal hc rfl⟩
  | true =>
    cases en with
    | false => exact ⟨_, issue_of_not_enabled hc rfl rfl⟩
    | true => exact ⟨_, issue_of_enabled hc rfl rfl hr⟩

/-- Under the invariant every operation completes, and so does every step, whatever the command word (R208). -/
theorem BlockInv.exec_completes {s : State} (h : BlockInv s) (i : Instr) : ∃ t, exec i s = .next t :=
  exec_eq_issue i s ▸ issue_completes h.legal (h.indicesInside i) _ _ _

theorem BlockInv.step_completes {s : State} (h : BlockInv s) : ∃ t, step s = .next t := by
  unfold step execWord
  split
  · exact h.takeCommand.exec_completes _
  · exact issue_completes h.takeCommand.legal rfl _ _ _

/-- Settles O35: the step completes, and `BlockInv` is an invariant of every effect and of every answer by code. -/
theorem everyStepKeepsTheInvariant : Obligations.EveryStepKeepsTheInvariant := by
  intro s h
  obtain ⟨t, ht⟩ := h.step_completes
  exact ⟨t, ht, step_induction (P := BlockInv) (fun _ hu => hu.takeCommand) (fun _ code val _ hu => hu.respond code val)
    (fun _ _ _ hl he _ hu => effectOf_blockInv hl he hu) h ht⟩

/-! ## The output (R37, R45) -/

@[simp] theorem State.takeCommand_pbAt (s : State) (j : Nat) : s.takeCommand.pbAt j = s.pbAt j := by
  unfold State.takeCommand; split <;> rfl

/-- `PB.DMA` alone adds to the output, one slot; every other effect, reset among them, keeps it. -/
theorem effectOf_txTrace {s : State} (hc : configLegal s.cfg = true) (i : Instr) :
    (effectOf i s).txTrace = if i = .pbDma then s.txTrace ++ [s.pbAt s.pb.pos] else s.txTrace := by
  have hservice (h : Half) : (playbackService h s).txTrace = s.txTrace := by rw [playbackService_eq_update]
  cases i with
  | sysStart ok => obtain ⟨_, _, _, e⟩ := startBlock_frame ok s; simp [effectOf, e]
  | fifoWrite v => obtain ⟨_, _, _, e⟩ := writeSample_frame v s; simp [effectOf, e]
  | fifoRead => obtain ⟨_, _, _, e⟩ := readSample_frame s; simp [effectOf, e]
  | svcCap0 => simp [effectOf, captureService_eq .first s hc]
  | svcCap1 => simp [effectOf, captureService_eq .second s hc]
  | svcPb0 => exact hservice .first
  | svcPb1 => exact hservice .second
  | _ => rfl

/-- Settles O42: an answer by code keeps the output, and only an enabled `PB.DMA`, so only a running block, adds to it. -/
theorem outputIsNeverShortened : Obligations.OutputIsNeverShortened := by
  intro s t hstep
  rcases step_cases hstep with ⟨i, _, hexec⟩ | ⟨_, _, rfl⟩
  · obtain ⟨hc, ⟨_, rfl⟩ | ⟨_, _, rfl⟩ | ⟨_, he, _, rfl⟩⟩ := exec_cases hexec
    · exact .inl (by simp)
    · exact .inl (by simp)
    · rw [effectOf_txTrace hc]
      split_ifs with hi
      · subst hi
        have run := running_of_enabled he (by decide)
        exact .inr ⟨by simpa using run, by simp⟩
      · exact .inl (by simp)
  · exact .inl (by simp)

/-! ## Hazard bits (R35) -/

/-- A channel with its two hazard bits replaced. -/
def Channel.withHazards (c : Channel) (lost race : Bool) : Channel := { c with lost := lost, race := race }

/-- A state with its four hazard bits replaced. -/
def State.withHazards (s : State) (a b c d : Bool) : State :=
  { s with cap := s.cap.withHazards a b, pb := s.pb.withHazards c d }

/-- The second state is the first but for its hazard bits. -/
def SameButHazards (t u : State) : Prop := ∃ a b c d, u = t.withHazards a b c d

/-! ### They stick -/

/-- `c'` has every hazard bit that `c` has. -/
def Channel.HazardsStick (c c' : Channel) : Prop := (c.lost = true → c'.lost = true) ∧ (c.race = true → c'.race = true)

theorem Channel.HazardsStick.refl (c : Channel) : c.HazardsStick c := ⟨id, id⟩

theorem Channel.enter_hazardsStick (c : Channel) (h : Half) : c.HazardsStick (c.enter h) :=
  ⟨fun hl => by simp [hl], fun hr => by simp [hr]⟩

theorem Channel.dmaStep_hazardsStick (c : Channel) (H : Nat) (busy : Bool) : c.HazardsStick (c.dmaStep H busy) := by
  refine ⟨fun hl => ?_, fun hr => by simp [hr]⟩
  unfold Channel.dmaStep
  dsimp only
  split_ifs <;> simp [hl]

/-- No effect but that of `SYS.RESET` clears a hazard bit: only the DMA steps and the entry points write one, and they add. -/
theorem effectOf_hazardsStick {i : Instr} {s : State} (hc : configLegal s.cfg = true) (hi : i ≠ .sysReset) :
    s.cap.HazardsStick (effectOf i s).cap ∧ s.pb.HazardsStick (effectOf i s).pb := by
  have hkeep {t : State} (ecap : t.cap = s.cap) (epb : t.pb = s.pb) : s.cap.HazardsStick t.cap ∧ s.pb.HazardsStick t.pb :=
    ⟨ecap ▸ .refl _, epb ▸ .refl _⟩
  have hcapture (h : Half) : s.cap.HazardsStick (captureService h s).cap ∧ s.pb.HazardsStick (captureService h s).pb := by
    rw [captureService_eq h s hc]
    exact hkeep rfl rfl
  have hplayback (h : Half) : s.cap.HazardsStick (playbackService h s).cap ∧ s.pb.HazardsStick (playbackService h s).pb := by
    rw [playbackService_eq_update]
    exact hkeep rfl rfl
  cases i with
  | sysReset => exact absurd rfl hi
  | sysStart ok => obtain ⟨_, _, _, e⟩ := startBlock_frame ok s; simp only [effectOf, e]; exact hkeep rfl rfl
  | fifoWrite v => obtain ⟨_, _, _, e⟩ := writeSample_frame v s; simp only [effectOf, e]; exact hkeep rfl rfl
  | fifoRead => obtain ⟨_, _, _, e⟩ := readSample_frame s; simp only [effectOf, e]; exact hkeep rfl rfl
  | capDma w => exact ⟨Channel.dmaStep_hazardsStick _ _ _, .refl _⟩
  | evCapHalf => exact ⟨Channel.enter_hazardsStick _ _, .refl _⟩
  | evCapFull => exact ⟨Channel.enter_hazardsStick _ _, .refl _⟩
  | svcCap0 => exact hcapture .first
  | svcCap1 => exact hcapture .second
  | pbDma => exact ⟨.refl _, Channel.dmaStep_hazardsStick _ _ _⟩
  | evPbHalf => exact ⟨.refl _, Channel.enter_hazardsStick _ _⟩
  | evPbFull => exact ⟨.refl _, Channel.enter_hazardsStick _ _⟩
  | svcPb0 => exact hplayback .first
  | svcPb1 => exact hplayback .second
  | pollCap => exact ⟨⟨id, id⟩, .refl _⟩
  | pollPb => exact ⟨.refl _, ⟨id, id⟩⟩
  | _ => exact hkeep rfl rfl

/-! ### They decide nothing -/

section WithHazards

variable (s : State) (a b c d : Bool)

@[simp] theorem State.withHazards_cfg : (s.withHazards a b c d).cfg = s.cfg := rfl
@[simp] theorem State.withHazards_cap : (s.withHazards a b c d).cap = s.cap.withHazards a b := rfl
@[simp] theorem State.withHazards_pb : (s.withHazards a b c d).pb = s.pb.withHazards c d := rfl
@[simp] theorem Channel.withHazards_pos (ch : Channel) : (ch.withHazards a b).pos = ch.pos := rfl

/-- Entering an event reads no hazard bit and writes `lost` alone of them. -/
theorem Channel.enter_withHazards (ch : Channel) (h : Half) :
    ∃ l r, (ch.withHazards a b).enter h = (ch.enter h).withHazards l r := by
  cases h <;> exact ⟨_, _, rfl⟩

/-- A DMA step reads no hazard bit to decide where the engine goes or what it raises. -/
theorem Channel.dmaStep_withHazards (ch : Channel) (H : Nat) (busy : Bool) :
    ∃ l r, (ch.withHazards a b).dmaStep H busy = (ch.dmaStep H busy).withHazards l r := by
  unfold Channel.dmaStep
  dsimp only [Channel.withHazards]
  split_ifs <;> exact ⟨_, _, rfl⟩

theorem State.outstanding_withHazards (ch : Chan) (h : Half) :
    (s.withHazards a b c d).outstanding ch h = s.outstanding ch h := by cases ch <;> cases h <;> rfl

theorem enabled_withHazards (i : Instr) : enabled i (s.withHazards a b c d) = enabled i s := by cases i <;> rfl

theorem indicesInside_withHazards (i : Instr) : indicesInside i (s.withHazards a b c d) = indicesInside i s := by cases i <;> rfl

/-- Register 11 alone shows the hazard bits (R41). -/
theorem statusReg_withHazards {r : Nat} (hr : r ≠ 11) : statusReg (s.withHazards a b c d) r = statusReg s r := by
  unfold statusReg
  split
  case h_12 => exact absurd rfl hr
  all_goals rfl

theorem playbackService_withHazards (h : Half) :
    playbackService h (s.withHazards a b c d) = (playbackService h s).withHazards a b c d := by
  rcases Nat.lt_or_ge s.fifo.count.toNat s.cfg.pbBatch with hstarved | henough
  · rw [playbackService_of_starved h hstarved, playbackService_of_starved (s := s.withHazards a b c d) h hstarved]
    rfl
  · rw [playbackService_of_enough h henough, playbackService_of_enough (s := s.withHazards a b c d) h henough]
    rfl

theorem writeSample_withHazards (v : Sample) :
    writeSample v (s.withHazards a b c d) = (writeSample v s).withHazards a b c d := by
  have same : (s.withHazards a b c d).fifo.write (s.withHazards a b c d).cfg.fifoCap v = s.fifo.write s.cfg.fifoCap v := rfl
  unfold writeSample
  rw [same]
  cases s.fifo.write s.cfg.fifoCap v <;> rfl

theorem readSample_withHazards : readSample (s.withHazards a b c d) = (readSample s).withHazards a b c d := by
  have same : (s.withHazards a b c d).fifo.read (s.withHazards a b c d).cfg.fifoCap (s.withHazards a b c d).fifoFill =
      s.fifo.read s.cfg.fifoCap s.fifoFill := rfl
  unfold readSample
  rw [same]
  cases s.fifo.read s.cfg.fifoCap s.fifoFill <;> rfl

theorem startBlock_withHazards (ok : Bool) :
    startBlock ok (s.withHazards a b c d) = (startBlock ok s).withHazards a b c d := by cases ok <;> rfl

/-- A capture DMA step tests for a race and moves its engine as it would from other hazard bits (R130). -/
theorem captureStep_withHazards (w : Raw) : SameButHazards (captureStep w s) (captureStep w (s.withHazards a b c d)) := by
  obtain ⟨l, r, e⟩ := Channel.dmaStep_withHazards a b s.cap s.cfg.capHalf (s.outstanding .cap (halfOf s.cap.pos s.cfg.capHalf))
  refine ⟨l, r, c, d, ?_⟩
  simp only [captureStep, State.outstanding_withHazards, State.withHazards_cfg, State.withHazards_cap,
    Channel.withHazards_pos, e]
  rfl

theorem playbackStep_withHazards : SameButHazards (playbackStep s) (playbackStep (s.withHazards a b c d)) := by
  obtain ⟨l, r, e⟩ := Channel.dmaStep_withHazards c d s.pb s.cfg.pbHalf (s.outstanding .pb (halfOf s.pb.pos s.cfg.pbHalf))
  refine ⟨a, b, l, r, ?_⟩
  simp only [playbackStep, State.outstanding_withHazards, State.withHazards_cfg, State.withHazards_pb,
    Channel.withHazards_pos, e]
  rfl

theorem captureEvent_withHazards (h : Half) : SameButHazards (captureEvent h s) (captureEvent h (s.withHazards a b c d)) := by
  obtain ⟨l, r, e⟩ := Channel.enter_withHazards a b s.cap h
  refine ⟨l, r, c, d, ?_⟩
  simp only [captureEvent, State.withHazards_cap, e]
  rfl

theorem playbackEvent_withHazards (h : Half) : SameButHazards (playbackEvent h s) (playbackEvent h (s.withHazards a b c d)) := by
  obtain ⟨l, r, e⟩ := Channel.enter_withHazards c d s.pb h
  refine ⟨a, b, l, r, ?_⟩
  simp only [playbackEvent, State.withHazards_pb, e]
  rfl

end WithHazards

theorem captureService_withHazards {s : State} (hc : configLegal s.cfg = true) (h : Half) (a b c d : Bool) :
    captureService h (s.withHazards a b c d) = (captureService h s).withHazards a b c d := by
  rw [captureService_eq h s hc, captureService_eq h (s.withHazards a b c d) hc]
  rfl

/-- Run from other hazard bits, every effect but that of `SYS.RDSTAT 11` leaves the same state but for the hazard bits. -/
theorem effectOf_withHazards {s : State} (hc : configLegal s.cfg = true) {i : Instr} (hi : i ≠ .sysRdstat 11#16)
    (a b c d : Bool) : SameButHazards (effectOf i s) (effectOf i (s.withHazards a b c d)) := by
  cases i with
  | sysReset => exact ⟨false, false, false, false, rfl⟩
  | sysStart ok => exact ⟨a, b, c, d, startBlock_withHazards s a b c d ok⟩
  | sysRdstat r =>
    have hr : r.toNat ≠ 11 := fun e => hi (congrArg Instr.sysRdstat (BitVec.eq_of_toNat_eq e))
    refine ⟨a, b, c, d, ?_⟩
    simp only [effectOf, statusReg_withHazards s a b c d hr]
    rfl
  | fifoWrite v => exact ⟨a, b, c, d, writeSample_withHazards s a b c d v⟩
  | fifoRead => exact ⟨a, b, c, d, readSample_withHazards s a b c d⟩
  | capDma w => exact captureStep_withHazards s a b c d w
  | evCapHalf => exact captureEvent_withHazards s a b c d .first
  | evCapFull => exact captureEvent_withHazards s a b c d .second
  | svcCap0 => exact ⟨a, b, c, d, captureService_withHazards hc .first a b c d⟩
  | svcCap1 => exact ⟨a, b, c, d, captureService_withHazards hc .second a b c d⟩
  | pbDma => exact playbackStep_withHazards s a b c d
  | evPbHalf => exact playbackEvent_withHazards s a b c d .first
  | evPbFull => exact playbackEvent_withHazards s a b c d .second
  | svcPb0 => exact ⟨a, b, c, d, playbackService_withHazards s a b c d .first⟩
  | svcPb1 => exact ⟨a, b, c, d, playbackService_withHazards s a b c d .second⟩
  | _ => exact ⟨a, b, c, d, rfl⟩

/-- An operation is issued with the same conditions whatever the hazard bits, and so it answers the same but for them. -/
theorem exec_withHazards {s t : State} {i : Instr} (h : exec i s = .next t) (hi : i ≠ .sysRdstat 11#16) (a b c d : Bool) :
    ∃ u, exec i (s.withHazards a b c d) = .next u ∧ SameButHazards t u := by
  have issued : exec i (s.withHazards a b c d) = issue (s.withHazards a b c d) (i.wellFormed s.cfg.rawW) (enabled i s)
      (indicesInside i s) (effectOf i (s.withHazards a b c d)) := by
    rw [exec_eq_issue, enabled_withHazards, indicesInside_withHazards]
    rfl
  rw [issued]
  obtain ⟨hc, ⟨hl, rfl⟩ | ⟨hl, he, rfl⟩ | ⟨hl, he, hr, rfl⟩⟩ := exec_cases h
  · exact ⟨_, issue_of_illegal hc hl, a, b, c, d, rfl⟩
  · exact ⟨_, issue_of_not_enabled hc hl he, a, b, c, d, rfl⟩
  · exact ⟨_, issue_of_enabled hc hl he hr, effectOf_withHazards hc hi a b c d⟩

/-- Settles O40: every effect but a reset keeps the bits that are set, and every effect but a read of register 11 is the same
whatever they are. -/
theorem hazardBitsStickAndDecideNothing : Obligations.HazardBitsStickAndDecideNothing := by
  refine ⟨fun s t i h hi => ?_, fun s t i a b c d h hi => ?_⟩
  · have stick : s.cap.HazardsStick t.cap ∧ s.pb.HazardsStick t.pb := by
      obtain ⟨hc, ⟨_, rfl⟩ | ⟨_, _, rfl⟩ | ⟨_, _, _, rfl⟩⟩ := exec_cases h
      · exact ⟨.refl _, .refl _⟩
      · exact ⟨.refl _, .refl _⟩
      · exact effectOf_hazardsStick hc hi
    obtain ⟨⟨capLost, capRace⟩, pbLost, pbRace⟩ := stick
    exact ⟨capLost, pbLost, capRace, pbRace⟩
  · obtain ⟨u, hu, a', b', c', d', rfl⟩ := exec_withHazards h hi a b c d
    exact ⟨a', b', c', d', hu⟩

/-! ## The status registers (R41) -/

/-- A register of four single bits shows each at its position, and no other. -/
theorem fourBits_shown : ∀ a b c d : Bool,
    let v := BitVec.ofNat 32 (bitAt 0 a + bitAt 1 b + bitAt 2 c + bitAt 3 d)
    v.getLsbD 0 = a ∧ v.getLsbD 1 = b ∧ v.getLsbD 2 = c ∧ v.getLsbD 3 = d ∧ v.toNat < 16 := by decide

/-- A 16-bit field is zero-extended. -/
theorem setWidth_32_toNat (v : BitVec 16) : (v.setWidth 32).toNat = v.toNat := by
  rw [BitVec.toNat_setWidth]; omega

/-- A position that 32 bits hold is shown as it is. -/
theorem posReg_toNat {p : Nat} (hp : p < 2 ^ 32) : (posReg p).toNat = p := by
  rw [posReg, if_pos hp, BitVec.toNat_ofNat, Nat.mod_eq_of_lt hp]

/-- Settles O13: each register by the encoding of its fields, one register at a time. -/
theorem statusRegistersShowTheMap : Obligations.StatusRegistersShowTheMap := by
  intro s hc
  have hcap := legal_fifoCap hc
  refine ⟨?_, ?_, ?_, fourBits_shown _ _ _ _, setWidth_32_toNat _, setWidth_32_toNat _, setWidth_32_toNat _, ?_, rfl, rfl, rfl,
    fourBits_shown _ _ _ _, ⟨?_, ?_⟩, posReg_toNat, posReg_toNat, ?_, ?_⟩
  · cases hs : s.sys <;> simp [statusReg, State.faultInd, bitAt, encSys, hs]
  · cases hf : s.cap.flag <;> simp [statusReg, encFlag, hf]
  · cases hf : s.pb.flag <;> simp [statusReg, encFlag, hf]
  · simp only [statusReg, BitVec.toNat_ofNat]
    omega
  · cases hj : s.job <;> cases hp : s.phase <;> simp [statusReg, encJob, encPhase, hj, hp]
  · cases hj : s.job <;> cases hp : s.phase <;> simp [statusReg, encJob, encPhase, hj, hp]
  · cases hu : s.cfg.onUnderrun <;> cases ho : s.cfg.pollOrder <;> simp [statusReg, encUnderrun, encOrder, hu, ho]
  · cases hu : s.cfg.onUnderrun <;> cases ho : s.cfg.pollOrder <;> simp [statusReg, encUnderrun, encOrder, hu, ho]

end Sys2Proof.Machine

/-!
PROOFS. The statements of `20_memory.md`: a step takes and runs one command (R69), what the FIFO holds was written (R66 a), an
outstanding capture half was written by its engine (R66 b, R70), the two owners of the halves keep apart (R68, R246) and so
commute (R69), and each agent keeps to its access rights (R75).
-/
namespace Sys2Proof.Machine

/-! ## The step (R69, R90) -/

theorem takeCommand_of_cons {s : State} {c : Command} {rest : List Command} (h : s.schedule = c :: rest) :
    s.nextCommand = c ∧ s.takeCommand = { s with schedule := rest, din := s.din ++ c.data } := by
  simp only [State.nextCommand, State.takeCommand, h, and_self]

theorem takeCommand_of_nil {s : State} (h : s.schedule = []) :
    s.nextCommand = ⟨Config.freeWord s.drawn, Config.freeData s.drawn⟩ ∧
      s.takeCommand = { s with drawn := s.drawn + 1, din := s.din ++ Config.freeData s.drawn } := by
  simp only [State.nextCommand, State.takeCommand, h, and_self]

theorem execWord_of_decode {w : CmdWord} {s : State} {i : Instr} (h : decode s.cfg.rawW w = .ok i) :
    execWord w s = exec i s := by
  simp only [execWord, h]

theorem State.withFetchWord_schedule (s : State) (nbits w : Nat) :
    (s.withFetchWord nbits w).schedule = ⟨BitVec.ofNat 32 (w % 2 ^ nbits), []⟩ :: s.schedule := rfl

/-- A scheduled command is run on the state with it taken off and its samples on `din` (log 7). -/
theorem step_of_cons {s : State} {c : Command} {rest : List Command} (h : s.schedule = c :: rest) :
    step s = execWord c.word { s with schedule := rest, din := s.din ++ c.data } := by
  obtain ⟨hnext, htake⟩ := takeCommand_of_cons h
  rw [step, hnext, htake]

/-- Settles O5: scheduled, placed by `withFetchWord` or drawn, a command is the head of a schedule. -/
theorem stepRunsTheDecodedOperation : Obligations.StepRunsTheDecodedOperation := by
  refine ⟨fun s c rest i hs hdec => ?_, fun s nbits w i hdec => ?_, fun s hs => ?_⟩
  · rw [step_of_cons hs]
    exact execWord_of_decode hdec
  · rw [step_of_cons (State.withFetchWord_schedule s nbits w), List.append_nil]
    exact execWord_of_decode hdec
  · obtain ⟨hnext, htake⟩ := takeCommand_of_nil hs
    rw [step, hnext, htake, step_of_cons rfl, hs]

/-! ## The logical content of the FIFO (R23, R66 a) -/

/-- What an operation may do to the FIFO: take samples off at the read cursor, store samples into free elements from the write
cursor on, or empty it (R110 to R114). Of the storage it says which elements may change. -/
inductive FifoMove (cap : Nat) (f f' : Fifo) : Prop
  | pop (n : Nat) (fits : n ≤ f.count.toNat) (mem : f'.mem = f.mem) (rd : f'.rd.toNat = (f.rd.toNat + n) % cap)
      (count : f'.count.toNat = f.count.toNat - n)
  | push (n : Nat) (fits : f.count.toNat + n ≤ cap) (stored : ∀ k < n, f'.mem.lookup ((f.wr.toNat + k) % cap) ≠ none)
      (kept : ∀ j, (∀ k < n, (f.wr.toNat + k) % cap ≠ j) → f'.mem.lookup j = f.mem.lookup j) (rd : f'.rd = f.rd)
      (count : f'.count.toNat = f.count.toNat + n)
  | init (mem : f'.mem = f.mem) (count : f'.count.toNat = 0)

namespace FifoMove

variable {cap : Nat} {f f' : Fifo}

/-- Leaving the FIFO as it is stores nothing. -/
theorem refl (hcount : f.count.toNat ≤ cap) : FifoMove cap f f :=
  .push 0 hcount (fun _ hk => absurd hk (Nat.not_lt_zero _)) (fun _ _ => rfl) rfl rfl

theorem of_write (hc : 1 ≤ cap ∧ cap ≤ 65535) (hcount : f.count.toNat ≤ cap) (hwr : f.count.toNat = cap ∨ f.wr.toNat < cap)
    {v : Sample} (e : f.write cap v = some f') : FifoMove cap f f' := by
  rcases Fifo.write_cases v hc hcount with ⟨_, hfull⟩ | ⟨g, hroom, hg, hmem, hrd, -, hcount'⟩
  · exact absurd (hfull.symm.trans e) (by simp)
  · obtain rfl : g = f' := Option.some.inj (hg.symm.trans e)
    have cursor : (f.wr.toNat + 0) % cap = f.wr.toNat := Nat.mod_eq_of_lt (hwr.resolve_left hroom.ne)
    refine .push 1 hroom (fun k hk => ?_) (fun j hj => ?_) hrd hcount'
    · obtain rfl : k = 0 := by omega
      rw [cursor, hmem, Memory.lookup_write, if_pos rfl]
      exact Option.some_ne_none v
    · have hne : j ≠ f.wr.toNat := fun h => hj 0 one_pos (cursor.trans h.symm)
      rw [hmem, Memory.lookup_write, if_neg hne]

theorem of_read (hc : 1 ≤ cap ∧ cap ≤ 65535) {fill : Nat → Sample} {v : Sample} (e : f.read cap fill = some (v, f')) :
    FifoMove cap f f' := by
  rcases Fifo.read_cases fill hc (f := f) with ⟨_, hempty⟩ | ⟨g, hpos, hg, hmem, -, hrd, hcount⟩
  · exact absurd (hempty.symm.trans e) (by simp)
  · obtain rfl : g = f' := (Prod.ext_iff.1 (Option.some.inj (hg.symm.trans e))).2
    exact .pop 1 hpos hmem hrd hcount

theorem writeBlock (hc : 1 ≤ cap ∧ cap ≤ 65535) (hcount : f.count.toNat ≤ cap) (xs : List Sample) :
    FifoMove cap f (f.writeBlock cap xs).2 :=
  .push (min xs.length (cap - f.count.toNat)) (by omega)
    (fun k hk => by simp [Fifo.writeBlock_lookup_of_lt xs k hk])
    (Fifo.writeBlock_lookup_of_ne xs) rfl (Fifo.writeBlock_count xs hc hcount)

theorem readBlock (hc : 1 ≤ cap ∧ cap ≤ 65535) (fill : Nat → Sample) (n : Nat) : FifoMove cap f (f.readBlock cap fill n).2 :=
  .pop _ (min_le_right n _) rfl (Fifo.readBlock_rd fill f n hc) (Fifo.readBlock_count cap fill f n)

/-- An element that is not free, or is not in the memory, keeps what it holds. -/
theorem lookup_of_ne (h : FifoMove cap f f') {j : Nat}
    (hj : ∀ k < cap - f.count.toNat, (f.wr.toNat + k) % cap ≠ j) : f'.mem.lookup j = f.mem.lookup j := by
  cases h with
  | pop _ _ mem => rw [mem]
  | push n fits _ kept => exact kept j fun k hk => hj k (by omega)
  | init mem => rw [mem]

end FifoMove

/-- The logical content of the FIFO has been written since reset (R66 a). -/
def Fifo.ContentWritten (cap : Nat) (f : Fifo) : Prop :=
  ∀ i < f.count.toNat, f.mem.lookup ((f.rd.toNat + i) % cap) ≠ none

theorem fifoContentWritten_iff (s : State) : FifoContentWritten s ↔ s.fifo.ContentWritten s.cfg.fifoCap := Iff.rfl

/-- Samples taken off leave a shorter content; samples stored come right after it, since the write cursor is where the count
says (R23). -/
theorem FifoMove.contentWritten {cap : Nat} {f f' : Fifo} (h : FifoMove cap f f') (hf : FifoInv cap f)
    (hw : f.ContentWritten cap) : f'.ContentWritten cap := by
  intro i hi
  cases h with
  | pop n fits mem rd count =>
    have hold := hw (n + i) (by omega)
    rwa [mem, rd, Nat.mod_add_mod, Nat.add_assoc]
  | push n fits stored kept rd count =>
    rw [rd]
    by_cases hnew : ∃ k < n, (f.wr.toNat + k) % cap = (f.rd.toNat + i) % cap
    · obtain ⟨k, hk, e⟩ := hnew
      exact e ▸ stored k hk
    · have hold : i < f.count.toNat := by
        by_contra hge
        refine hnew ⟨i - f.count.toNat, by omega, ?_⟩
        rw [hf.cursorsAgree, Nat.mod_add_mod, Nat.add_assoc, Nat.add_sub_cancel' (Nat.not_lt.1 hge)]
      rw [kept _ fun k hk e => hnew ⟨k, hk, e⟩]
      exact hw i hold
  | init mem count => omega

/-- A service of the playback channel pops a whole batch or leaves the FIFO alone (R155). -/
theorem playbackService_fifoMove {s : State} (hc : configLegal s.cfg = true) (hcount : s.fifo.count.toNat ≤ s.cfg.fifoCap)
    (hp : popInRange s = true) (h : Half) : FifoMove s.cfg.fifoCap s.fifo (playbackService h s).fifo := by
  rcases Nat.lt_or_ge s.fifo.count.toNat s.cfg.pbBatch with hstarved | henough
  · rw [playbackService_of_starved h hstarved]
    exact .refl hcount
  · have hrd : s.fifo.rd.toNat < s.cfg.fifoCap := (of_decide_eq_true hp).resolve_left (Nat.not_lt.2 henough)
    rw [playbackService_of_enough h henough]
    obtain ⟨mem, -, count, rd⟩ := refill_fifo s.fifoFill (h.index * s.cfg.pbHalf) (legal_fifoCap hc) s.cfg.pbBatch 0 s.fifo
      s.pbBuf henough (fun _ => hrd)
    exact .pop _ henough mem (rd (legal_pbBatch hc).1) count

theorem captureService_fifoMove {s : State} (hc : configLegal s.cfg = true) (hcount : s.fifo.count.toNat ≤ s.cfg.fifoCap)
    (h : Half) : FifoMove s.cfg.fifoCap s.fifo (captureService h s).fifo := by
  rw [captureService_eq h s hc]
  exact .writeBlock (legal_fifoCap hc) hcount _

/-- Every effect but that of `SYS.RESET` moves the FIFO in one of those ways. -/
theorem effectOf_fifoMove {i : Instr} {s : State} (hc : configLegal s.cfg = true) (hcount : s.fifo.count.toNat ≤ s.cfg.fifoCap)
    (hr : indicesInside i s = true) (hi : i ≠ .sysReset) : FifoMove s.cfg.fifoCap s.fifo (effectOf i s).fifo := by
  have hcap := legal_fifoCap hc
  cases i with
  | sysReset => exact absurd rfl hi
  | sysStart ok =>
    obtain ⟨_, _, _, e⟩ := startBlock_frame ok s
    simp only [effectOf, e]
    exact .refl hcount
  | fifoInit => exact .init rfl rfl
  | fifoWrite v =>
    simp only [effectOf]
    rcases writeSample_cases v s with ⟨_, e⟩ | ⟨f, hf, e⟩
    · exact e ▸ .refl hcount
    · exact e ▸ .of_write hcap hcount (of_decide_eq_true hr) hf
  | fifoRead =>
    simp only [effectOf]
    rcases readSample_cases s with ⟨_, e⟩ | ⟨v, f, hf, e⟩
    · exact e ▸ .refl hcount
    · exact e ▸ .of_read hcap hf
  | fifoWrblk n => exact .writeBlock hcap hcount _
  | fifoRdblk n => exact .readBlock hcap s.fifoFill n.toNat
  | svcCap0 => exact captureService_fifoMove hc hcount .first
  | svcCap1 => exact captureService_fifoMove hc hcount .second
  | svcPb0 => exact playbackService_fifoMove hc hcount hr .first
  | svcPb1 => exact playbackService_fifoMove hc hcount hr .second
  | _ => exact .refl hcount

theorem effectOf_fifoContentWritten {i : Instr} {s : State} (hr : indicesInside i s = true) (hs : BlockInv s)
    (hw : FifoContentWritten s) : FifoContentWritten (effectOf i s) := by
  obtain ⟨hc, fifo, -⟩ := (blockInv_iff s).1 hs
  by_cases hi : i = .sysReset
  · subst hi
    exact fun _ hlt => absurd hlt (Nat.not_lt_zero _)
  · rw [fifoContentWritten_iff, effectOf_cfg hc]
    exact (effectOf_fifoMove hc fifo.countInside hr hi).contentWritten fifo hw

/-- An invariant that the effects keep in states of the block, and that reads neither the result nor the schedule and the streams,
is kept by every step: `BlockInv` is carried along. -/
theorem BlockInv.step_induction {P : State → Prop} (htake : ∀ s, P s → P s.takeCommand)
    (hrespond : ∀ s code val, P s → P (s.respond code val))
    (heffect : ∀ i s, BlockInv s → enabled i s = true → P s → P (effectOf i s))
    {s t : State} (hs : BlockInv s) (hP : P s) (h : step s = .next t) : P t := by
  have both : BlockInv t ∧ P t := Machine.step_induction (P := fun u => BlockInv u ∧ P u)
    (fun u hu => ⟨hu.1.takeCommand, htake u hu.2⟩)
    (fun u code val _ hu => ⟨hu.1.respond code val, hrespond u code val hu.2⟩)
    (fun i u _ hl he _ hu => ⟨effectOf_blockInv hl he hu.1, heffect i u hu.1 he hu.2⟩) ⟨hs, hP⟩ h
  exact both.2

/-- Settles O36: under the invariant of the block every effect keeps the content written. -/
theorem fifoContentIsAlwaysWritten : Obligations.FifoContentIsAlwaysWritten := by
  intro s t hs hw hstep
  exact hs.step_induction (fun u hu => by simpa [FifoContentWritten] using hu) (fun _ _ _ hu => hu)
    (fun i u hinv _ hu => effectOf_fifoContentWritten (hinv.indicesInside i) hinv hu) hw hstep

/-! ## How the events of a channel move (R47, R209 to R213) -/

/-- The agent that moves the position of a channel (R17). -/
def engineOf : Chan → Agent
  | .cap => .captureDma
  | .pb => .playbackDma

/-- The elements of one half of a channel's buffer (R61). -/
def State.halfSize (s : State) : Chan → Nat
  | .cap => s.cfg.capHalf
  | .pb => s.cfg.pbHalf

theorem State.halfSize_congr {s t : State} (h : t.cfg = s.cfg) (ch : Chan) : t.halfSize ch = s.halfSize ch := by
  cases ch <;> simp only [State.halfSize, h]

/-- What anything but the channel's engine and reset may do with the events of a channel: take one from its latch into the flag,
take the flag into the job, or leave the channel alone and take up no job of it. -/
inductive EventMove (s t : State) (ch : Chan) : Prop
  | enter (h : Half) (pending : (s.chan ch).pend h = true) (chan : t.chan ch = (s.chan ch).enter h) (job : t.job = s.job)
  | poll (idle : s.job = .none) (chan : t.chan ch = (s.chan ch).clearFlag) (job : t.job = jobSeen ch (s.chan ch).flag)
  | keep (chan : t.chan ch = s.chan ch) (job : ∀ h, t.job = jobOf ch h → s.job = jobOf ch h)

theorem ready_eq_iff {h h' : Half} : ready h = ready h' ↔ h = h' := ⟨ready_injective, congrArg ready⟩

/-- A poll latches the job of the half whose event the flag holds, if it holds one (R170, R171). -/
theorem jobSeen_eq_jobOf_iff (ch : Chan) (v : TransferState) (h : Half) : jobSeen ch v = jobOf ch h ↔ v = ready h := by
  cases ch <;> cases v <;> cases h <;> decide

theorem jobSeen_ne_jobOf {ch ch' : Chan} (hne : ch ≠ ch') (v : TransferState) (h : Half) : jobSeen ch v ≠ jobOf ch' h := by
  cases v with
  | idle => exact none_ne_jobOf h ch'
  | firstHalfReady => exact fun e => hne (jobOf_injective e).1
  | secondHalfReady => exact fun e => hne (jobOf_injective e).1

namespace EventMove

variable {s t : State} {ch : Chan}

theorem of_eq (hcap : t.cap = s.cap) (hpb : t.pb = s.pb) (hjob : t.job = s.job) : EventMove s t ch :=
  .keep (by cases ch <;> assumption) (fun _ e => hjob ▸ e)

theorem pos_eq (h : EventMove s t ch) : (t.chan ch).pos = (s.chan ch).pos := by
  cases h with
  | enter h _ chan => rw [chan, Channel.enter_pos]
  | poll _ chan => rw [chan, Channel.clearFlag_pos]
  | keep chan => rw [chan]

theorem race_eq (h : EventMove s t ch) : (t.chan ch).race = (s.chan ch).race := by
  cases h with
  | enter h _ chan => rw [chan, Channel.enter_race]
  | poll _ chan => rw [chan, Channel.clearFlag_race]
  | keep chan => rw [chan]

/-- Only the engine raises events, so no half becomes outstanding. -/
theorem outstanding_of (h : EventMove s t ch) {hf : Half} (ho : t.outstanding ch hf = true) :
    s.outstanding ch hf = true := by
  rw [outstanding_iff] at ho ⊢
  cases h with
  | enter h pending chan job =>
    rw [chan, job, Channel.enter_pend, Channel.enter_flag, ready_eq_iff] at ho
    rcases ho with hp | rfl | hj
    · exact .inl (Bool.and_eq_true_iff.1 hp).2
    · exact .inl pending
    · exact .inr (.inr hj)
  | poll idle chan job =>
    rw [chan, job, Channel.clearFlag_pend, Channel.clearFlag_flag, jobSeen_eq_jobOf_iff] at ho
    rcases ho with hp | hidle | hflag
    · exact .inl hp
    · exact absurd hidle.symm (ready_ne_idle hf)
    · exact .inr (.inl hflag)
  | keep chan job =>
    rw [chan] at ho
    exact ho.imp_right (Or.imp_right (job hf))

/-- An event that moves leaves the place it was in, so it is never in two. -/
theorem halvesOwnedApart (h : EventMove s t ch) {H : Nat} (hs : HalvesOwnedApart s ch H) : HalvesOwnedApart t ch H := by
  intro hrace hf
  obtain ⟨inside, pendFlag, pendJob, flagJob⟩ := hs (h.race_eq ▸ hrace) hf
  refine ⟨fun ho => h.pos_eq ▸ inside (h.outstanding_of ho), ?_⟩
  cases h with
  | enter h pending chan job =>
    rw [chan, job, Channel.enter_pend, Channel.enter_flag, ready_eq_iff]
    refine ⟨fun ⟨hp, e⟩ => ?_, fun ⟨hp, hj⟩ => pendJob ⟨(Bool.and_eq_true_iff.1 hp).2, hj⟩, fun ⟨e, hj⟩ => ?_⟩
    · exact of_decide_eq_true (Bool.and_eq_true_iff.1 hp).1 e.symm
    · exact pendJob ⟨e ▸ pending, hj⟩
  | poll idle chan job =>
    rw [chan, job, Channel.clearFlag_pend, Channel.clearFlag_flag, jobSeen_eq_jobOf_iff]
    exact ⟨fun hp => ready_ne_idle hf hp.2.symm, pendFlag, fun hj => ready_ne_idle hf hj.1.symm⟩
  | keep chan job =>
    rw [chan]
    exact ⟨pendFlag, fun hp => pendJob ⟨hp.1, job hf hp.2⟩, fun hp => flagJob ⟨hp.1, job hf hp.2⟩⟩

end EventMove

/-- A service takes no job up; it ends the one in hand. -/
theorem captureService_eventMove {s : State} (hc : configLegal s.cfg = true) (h : Half) (ch : Chan) :
    EventMove s (captureService h s) ch := by
  rw [captureService_eq h s hc]
  exact .keep (by cases ch <;> rfl) (fun hf e => absurd e (none_ne_jobOf hf ch))

theorem playbackService_eventMove (h : Half) (s : State) (ch : Chan) : EventMove s (playbackService h s) ch := by
  rw [playbackService_eq_update]
  exact .keep (by cases ch <;> rfl) (fun hf e => absurd e (none_ne_jobOf hf ch))

/-- An entry point moves the event of its own channel and leaves the other channel alone (R211). -/
theorem captureEvent_eventMove {s : State} {h : Half} (hp : s.cap.pend h = true) (ch : Chan) :
    EventMove s (captureEvent h s) ch := by
  cases ch with
  | cap => exact .enter h hp rfl rfl
  | pb => exact .keep rfl (fun _ => id)

theorem playbackEvent_eventMove {s : State} {h : Half} (hp : s.pb.pend h = true) (ch : Chan) :
    EventMove s (playbackEvent h s) ch := by
  cases ch with
  | cap => exact .keep rfl (fun _ => id)
  | pb => exact .enter h hp rfl rfl

theorem pollCapture_eventMove {s : State} (hj : s.job = .none) (ch : Chan) : EventMove s (pollCapture s) ch := by
  cases ch with
  | cap => exact .poll hj rfl rfl
  | pb => exact .keep rfl (fun h e => absurd e (jobSeen_ne_jobOf (by decide) _ h))

theorem pollPlayback_eventMove {s : State} (hj : s.job = .none) (ch : Chan) : EventMove s (pollPlayback s) ch := by
  cases ch with
  | cap => exact .keep rfl (fun h e => absurd e (jobSeen_ne_jobOf (by decide) _ h))
  | pb => exact .poll hj rfl rfl

/-- Every effect but that of `SYS.RESET` and of the channel's own engine moves the events of a channel so. -/
theorem effectOf_eventMove {i : Instr} {s : State} (hc : configLegal s.cfg = true) (he : enabled i s = true) (ch : Chan)
    (hreset : i ≠ .sysReset) (hengine : agentOf i ≠ engineOf ch) : EventMove s (effectOf i s) ch := by
  cases i with
  | sysReset => exact absurd rfl hreset
  | sysStart ok => obtain ⟨_, _, _, e⟩ := startBlock_frame ok s; simp only [effectOf, e]; exact .of_eq rfl rfl rfl
  | fifoWrite v => obtain ⟨_, _, _, e⟩ := writeSample_frame v s; simp only [effectOf, e]; exact .of_eq rfl rfl rfl
  | fifoRead => obtain ⟨_, _, _, e⟩ := readSample_frame s; simp only [effectOf, e]; exact .of_eq rfl rfl rfl
  | capDma w =>
    cases ch with
    | cap => exact absurd rfl hengine
    | pb => exact .keep rfl (fun _ => id)
  | evCapHalf => exact captureEvent_eventMove (h := .first) (Bool.and_eq_true_iff.1 he).2 ch
  | evCapFull => exact captureEvent_eventMove (h := .second) (Bool.and_eq_true_iff.1 he).2 ch
  | svcCap0 => exact captureService_eventMove hc .first ch
  | svcCap1 => exact captureService_eventMove hc .second ch
  | pbDma =>
    cases ch with
    | cap => exact .keep rfl (fun _ => id)
    | pb => exact absurd rfl hengine
  | evPbHalf => exact playbackEvent_eventMove (h := .first) (Bool.and_eq_true_iff.1 he).2 ch
  | evPbFull => exact playbackEvent_eventMove (h := .second) (Bool.and_eq_true_iff.1 he).2 ch
  | svcPb0 => exact playbackService_eventMove .first s ch
  | svcPb1 => exact playbackService_eventMove .second s ch
  | pollCap => exact pollCapture_eventMove (by simp_all [enabled]) ch
  | pollPb => exact pollPlayback_eventMove (by simp_all [enabled]) ch
  | _ => exact .of_eq rfl rfl rfl

/-! ## The engine and the halves (R61, R68, R130, R150) -/

/-- What the engine of channel `ch` does to its events: the channel after one DMA step, the job as it was. -/
def EngineMove (s t : State) (ch : Chan) : Prop :=
  t.chan ch = (s.chan ch).dmaStep (s.halfSize ch)
    (s.outstanding ch (halfOf (s.chan ch).pos (s.halfSize ch))) ∧ t.job = s.job

theorem eq_capDma_of_agent {i : Instr} (hi : agentOf i = .captureDma) : ∃ w, i = .capDma w := by
  cases i with
  | capDma w => exact ⟨w, rfl⟩
  | _ => nomatch hi

theorem eq_pbDma_of_agent {i : Instr} (hi : agentOf i = .playbackDma) : i = .pbDma := by
  cases i with
  | pbDma => rfl
  | _ => nomatch hi

theorem effectOf_engineMove {i : Instr} (s : State) {ch : Chan} (hi : agentOf i = engineOf ch) : EngineMove s (effectOf i s) ch := by
  cases ch with
  | cap =>
    obtain ⟨w, rfl⟩ := eq_capDma_of_agent hi
    exact ⟨rfl, rfl⟩
  | pb =>
    obtain rfl := eq_pbDma_of_agent hi
    exact ⟨rfl, rfl⟩

/-- A DMA step from an index inside half `h` either stays in that half, past its first element, or completes it, raises its
event and stops at the first element of the other half. -/
theorem Channel.dmaStep_half {c : Channel} {H : Nat} (busy : Bool) (hH : 1 ≤ H) (hp : c.pos < 2 * H) :
    ((c.dmaStep H busy).pos = c.pos + 1 ∧ halfOf (c.pos + 1) H = halfOf c.pos H ∧
      ∀ h, (c.dmaStep H busy).pend h = c.pend h) ∨
    (c.pos + 1 = ((halfOf c.pos H).index + 1) * H ∧ ((c.dmaStep H busy).pos = 0 ∨ (c.dmaStep H busy).pos = H) ∧
      ∀ h, (c.dmaStep H busy).pend h = (decide (h = halfOf c.pos H) || c.pend h)) := by
  rcases Channel.dmaStep_cases busy hH hp with ⟨hend, e⟩ | ⟨hend, e⟩ | ⟨hne, hlt, e⟩
  · have hhalf : halfOf c.pos H = .first := halfOf_of_lt (by omega)
    rw [e, hhalf]
    refine .inr ⟨by simpa [Half.index] using hend, .inr rfl, fun h => ?_⟩
    cases h <;> simp [Channel.pend]
  · have hhalf : halfOf c.pos H = .second := halfOf_of_le (by omega)
    rw [e, hhalf]
    refine .inr ⟨by simpa [Half.index] using hend, .inl rfl, fun h => ?_⟩
    cases h <;> simp [Channel.pend]
  · rw [e]
    refine .inl ⟨rfl, ?_, fun h => by cases h <;> rfl⟩
    rcases Nat.lt_or_ge (c.pos + 1) H with hbefore | hafter
    · rw [halfOf_of_lt hbefore, halfOf_of_lt (by omega)]
    · rw [halfOf_of_le hafter, halfOf_of_le (by omega)]

/-- `half(p, H)` is the half whose elements the index is among (R16). -/
theorem halfOf_of_inside {h : Half} {p H : Nat} (hlo : h.index * H ≤ p) (hhi : p < (h.index + 1) * H) : halfOf p H = h := by
  cases h with
  | first => exact halfOf_of_lt (by simpa [Half.index] using hhi)
  | second => exact halfOf_of_le (by simpa [Half.index] using hlo)

/-- The half an engine completes is the only one that may become outstanding, and it does so when the position has passed its last
element (R70). -/
theorem EngineMove.outstanding_cases {s t : State} {ch : Chan} (h : EngineMove s t ch) (hH : 1 ≤ s.halfSize ch)
    (hp : (s.chan ch).pos < 2 * s.halfSize ch) {hf : Half} (ho : t.outstanding ch hf = true) :
    s.outstanding ch hf = true ∨ (s.chan ch).pos + 1 = (hf.index + 1) * s.halfSize ch := by
  obtain ⟨chan, job⟩ := h
  rw [outstanding_iff, chan, job, Channel.dmaStep_flag] at ho
  rw [outstanding_iff]
  rcases Channel.dmaStep_half (s.outstanding ch (halfOf (s.chan ch).pos (s.halfSize ch))) hH hp with
    ⟨_, _, hpend⟩ | ⟨hend, _, hpend⟩
  · rw [hpend] at ho
    exact .inl ho
  · by_cases hhalf : hf = halfOf (s.chan ch).pos (s.halfSize ch)
    · exact .inr (hhalf ▸ hend)
    · rw [hpend, decide_eq_false hhalf, Bool.false_or] at ho
      exact .inl ho

/-- If the step records no race, the engine was in a half of its own: staying there it enters no other, and completing it, it hands
over an event that was nowhere else and stands at the edge of the other half (R70). -/
theorem EngineMove.halvesOwnedApart {s t : State} {ch : Chan} (h : EngineMove s t ch) (hH : 1 ≤ s.halfSize ch)
    (hp : (s.chan ch).pos < 2 * s.halfSize ch) (hs : HalvesOwnedApart s ch (s.halfSize ch)) :
    HalvesOwnedApart t ch (s.halfSize ch) := by
  obtain ⟨chan, job⟩ := h
  generalize s.halfSize ch = H at *
  intro hrace hf
  rw [chan, Channel.dmaStep_race, Bool.or_eq_false_iff] at hrace
  obtain ⟨hrace, hown⟩ := hrace
  obtain ⟨inside, pendFlag, pendJob, flagJob⟩ := hs hrace hf
  have hnone := (Bool.eq_false_iff.1 hown) ∘ (outstanding_iff _ s ch).2
  rw [outstanding_iff, job, chan, Channel.dmaStep_flag]
  rcases Channel.dmaStep_half (s.outstanding ch (halfOf (s.chan ch).pos H)) hH hp with ⟨hpos, hsame, hpend⟩ | ⟨_, hpos, hpend⟩
  · rw [hpend, hpos]
    refine ⟨fun ho hin => ?_, pendFlag, pendJob, flagJob⟩
    have hhalf := hsame.symm.trans (halfOf_of_inside hin.1.le hin.2)
    exact hnone (hhalf ▸ ho)
  · rw [hpend]
    refine ⟨fun _ hin => ?_, ?_⟩
    · cases hf <;> simp only [Half.index] at hin <;> omega
    · by_cases hhalf : hf = halfOf (s.chan ch).pos H
      · exact ⟨fun hb => hnone (.inr (.inl (hhalf ▸ hb.2))), fun hb => hnone (.inr (.inr (hhalf ▸ hb.2))), flagJob⟩
      · rw [decide_eq_false hhalf, Bool.false_or]
        exact ⟨pendFlag, pendJob, flagJob⟩

/-! ## The halves stay owned apart (R68, R246) -/

/-- Ownership is a matter of the channel and the job alone. -/
theorem HalvesOwnedApart.congr {s t : State} {ch : Chan} {H : Nat} (hs : HalvesOwnedApart s ch H)
    (hchan : t.chan ch = s.chan ch) (hjob : t.job = s.job) : HalvesOwnedApart t ch H := by
  simpa only [HalvesOwnedApart, outstanding_iff, hchan, hjob] using hs

theorem one_le_halfSize {s : State} (hc : configLegal s.cfg = true) (ch : Chan) : 1 ≤ s.halfSize ch := by
  cases ch with
  | cap => exact legal_capHalf hc
  | pb => exact legal_pbHalf hc

theorem BlockInv.pos_lt {s : State} (hs : BlockInv s) (ch : Chan) : (s.chan ch).pos < 2 * s.halfSize ch := by
  cases ch with
  | cap => exact hs.capPosInside
  | pb => exact hs.pbPosInside

theorem effectOf_halvesOwnedApart {i : Instr} {s : State} (hs : BlockInv s) (he : enabled i s = true) {ch : Chan}
    (h : HalvesOwnedApart s ch (s.halfSize ch)) : HalvesOwnedApart (effectOf i s) ch ((effectOf i s).halfSize ch) := by
  rw [State.halfSize_congr (effectOf_cfg hs.legal i)]
  by_cases hreset : i = .sysReset
  · subst hreset
    exact (resetBlock_atRest s).halvesOwnedApart ch _ |>.congr (by cases ch <;> rfl) rfl
  · by_cases hengine : agentOf i = engineOf ch
    · exact (effectOf_engineMove s hengine).halvesOwnedApart (one_le_halfSize hs.legal ch) (hs.pos_lt ch) h
    · exact (effectOf_eventMove hs.legal he ch hreset hengine).halvesOwnedApart h

theorem step_halvesOwnedApart {s t : State} (hs : BlockInv s) (hstep : step s = .next t) {ch : Chan}
    (h : HalvesOwnedApart s ch (s.halfSize ch)) : HalvesOwnedApart t ch (t.halfSize ch) :=
  hs.step_induction (P := fun u => HalvesOwnedApart u ch (u.halfSize ch))
    (fun u hu => State.halfSize_congr (State.takeCommand_cfg u) ch ▸ hu.congr (by cases ch <;> simp) (State.takeCommand_job u))
    (fun _ _ _ hu => hu.congr (by cases ch <;> rfl) rfl)
    (fun _ _ hinv he hu => effectOf_halvesOwnedApart hinv he hu) h hstep

/-- Settles O38: either channel's ownership is kept by its engine, by the moves of its events and by reset. -/
theorem halvesStayOwnedApart : Obligations.HalvesStayOwnedApart := fun _ _ hs hstep =>
  ⟨step_halvesOwnedApart (ch := .cap) hs hstep, step_halvesOwnedApart (ch := .pb) hs hstep⟩

/-! ## Outstanding capture halves are filled (R66 b, R70) -/

/-- The capture engine alone writes `cap_buf`, and reset (R75). -/
theorem effectOf_capBuf {i : Instr} {s : State} (hc : configLegal s.cfg = true) (hreset : i ≠ .sysReset)
    (hengine : agentOf i ≠ .captureDma) : (effectOf i s).capBuf = s.capBuf := by
  cases i with
  | sysReset => exact absurd rfl hreset
  | capDma w => exact absurd rfl hengine
  | sysStart ok => obtain ⟨_, _, _, e⟩ := startBlock_frame ok s; simp [effectOf, e]
  | fifoWrite v => obtain ⟨_, _, _, e⟩ := writeSample_frame v s; simp [effectOf, e]
  | fifoRead => obtain ⟨_, _, _, e⟩ := readSample_frame s; simp [effectOf, e]
  | svcCap0 => simp [effectOf, captureService_eq .first s hc]
  | svcCap1 => simp [effectOf, captureService_eq .second s hc]
  | svcPb0 => simp only [effectOf]; rw [playbackService_eq_update]
  | svcPb1 => simp only [effectOf]; rw [playbackService_eq_update]
  | _ => rfl

/-- The element stored at the position extends what is written below it; a half handed over on completion lies below (R70). -/
theorem captureStep_outstandingHalvesFilled {s : State} (hs : BlockInv s) (w : Raw) (h : OutstandingHalvesFilled s) :
    OutstandingHalvesFilled (captureStep w s) := by
  obtain ⟨below, halves⟩ := h
  have buf : (captureStep w s).capBuf = s.capBuf.write s.cap.pos w := rfl
  have keeps (j : Nat) (hj : s.capBuf.lookup j ≠ none) : (captureStep w s).capBuf.lookup j ≠ none := by
    rw [buf, Memory.lookup_write]
    split_ifs
    · exact Option.some_ne_none w
    · exact hj
  have upto (j : Nat) (hj : j < s.cap.pos + 1) : (captureStep w s).capBuf.lookup j ≠ none := by
    rcases Nat.lt_succ_iff_lt_or_eq.1 hj with hlt | rfl
    · exact keeps j (below j hlt)
    · simp [buf]
  have move : EngineMove s (captureStep w s) .cap := effectOf_engineMove (i := .capDma w) s rfl
  refine ⟨fun j hj => upto j (hj.trans_le ?_), fun hf ho j hj => ?_⟩
  · rw [← State.chan_cap, move.1, Channel.dmaStep_pos]
    exact Nat.mod_le _ _
  · rcases move.outstanding_cases (legal_capHalf hs.legal) hs.capPosInside ho with hold | hend
    · exact keeps _ (halves hf hold j hj)
    · refine upto _ (hend.symm ▸ ?_)
      rw [Nat.add_one_mul]
      exact Nat.add_lt_add_left hj _

theorem effectOf_outstandingHalvesFilled {i : Instr} {s : State} (hs : BlockInv s) (he : enabled i s = true)
    (h : OutstandingHalvesFilled s) : OutstandingHalvesFilled (effectOf i s) := by
  have others (hreset : i ≠ .sysReset) (hengine : agentOf i ≠ .captureDma) : OutstandingHalvesFilled (effectOf i s) := by
    obtain ⟨below, halves⟩ := h
    have move : EventMove s (effectOf i s) .cap := effectOf_eventMove hs.legal he .cap hreset hengine
    have hpos : (effectOf i s).cap.pos = s.cap.pos := move.pos_eq
    rw [OutstandingHalvesFilled, effectOf_capBuf hs.legal hreset hengine, effectOf_cfg hs.legal, hpos]
    exact ⟨below, fun hf ho => halves hf (move.outstanding_of ho)⟩
  cases i with
  | sysReset =>
    exact ⟨fun j hj => absurd hj (Nat.not_lt_zero j), fun hf ho =>
      absurd (ho.symm.trans ((resetBlock_atRest s).not_outstanding .cap hf)) (by decide)⟩
  | capDma w => exact captureStep_outstandingHalvesFilled hs w h
  | _ => exact others nofun nofun

/-- Settles O37: the engine fills before it hands over, and nothing else makes a capture half outstanding or unlists an element. -/
theorem outstandingHalvesStayFilled : Obligations.OutstandingHalvesStayFilled := by
  intro s t hs h hstep
  exact hs.step_induction (fun u hu => by simpa [OutstandingHalvesFilled, outstanding_iff] using hu)
    (fun u _ _ hu => by simpa [OutstandingHalvesFilled] using hu)
    (fun _ _ hinv he hu => effectOf_outstandingHalvesFilled hinv he hu) h hstep

/-! ## A DMA step into the other half commutes with a service (R69) -/

/-- An engine in the other half stands at no element of this one (R61). -/
theorem outside_of_halfOf_ne {p H : Nat} {h : Half} (hne : halfOf p H ≠ h) : p < h.index * H ∨ (h.index + 1) * H ≤ p := by
  by_contra hin
  rw [not_or, Nat.not_lt, Nat.not_le] at hin
  exact hne (halfOf_of_inside hin.1 hin.2)

/-- Whether the other half is outstanding does not depend on the job in hand (R47). -/
theorem outstanding_of_job_done {s t : State} {ch : Chan} {h h' : Half} (hchan : t.chan ch = s.chan ch)
    (hs : s.job = jobOf ch h) (ht : t.job = .none) (hne : h' ≠ h) : t.outstanding ch h' = s.outstanding ch h' := by
  have hother : jobOf ch h ≠ jobOf ch h' := fun e => hne (jobOf_injective e).2.symm
  rw [State.outstanding, State.outstanding, hchan, hs, ht, decide_eq_false (none_ne_jobOf h' ch), decide_eq_false hother]

/-- A service of the half reads what it would have read before the step (R77). -/
theorem rawHalf_captureStep {s : State} {h : Half} (hne : halfOf s.cap.pos s.cfg.capHalf ≠ h) (w : Raw) :
    rawHalf h (captureStep w s) = rawHalf h s := by
  refine memRead_congr fun k hk => ?_
  have hpos : h.index * s.cfg.capHalf + k ≠ s.cap.pos := by
    have hend := Nat.add_one_mul h.index s.cfg.capHalf
    have hk' : k < s.cfg.capHalf := hk
    rcases outside_of_halfOf_ne hne with hlo | hhi <;> omega
  exact (Memory.read_write s.capFill s.capBuf _ _ w).trans (if_neg hpos)

/-- A capture service reads nothing else that the engine moves, and writes nothing of it. -/
theorem captureService_captureStep {s : State} {h : Half} (hc : configLegal s.cfg = true)
    (hne : halfOf s.cap.pos s.cfg.capHalf ≠ h) (w : Raw) :
    captureService h (captureStep w s) =
      { captureService h s with capBuf := (captureStep w s).capBuf, cap := (captureStep w s).cap } := by
  have raw := rawHalf_captureStep hne w
  have batch : serviceBatch h (captureStep w s) = serviceBatch h s := by rw [serviceBatch, raw]; rfl
  rw [captureService_eq h (captureStep w s) hc, captureService_eq h s hc, raw, batch]
  rfl

/-- Of a state, a capture DMA step reads its buffer, its channel, the parameters and whether the half is outstanding (R130). -/
theorem captureStep_congr {s t : State} (w : Raw) (hcfg : t.cfg = s.cfg) (hbuf : t.capBuf = s.capBuf) (hcap : t.cap = s.cap)
    (hbusy : t.outstanding .cap (halfOf s.cap.pos s.cfg.capHalf) = s.outstanding .cap (halfOf s.cap.pos s.cfg.capHalf)) :
    captureStep w t = { t with
      capBuf := (captureStep w s).capBuf
      cap := (captureStep w s).cap
      result := (captureStep w s).result } := by
  simp only [captureStep, hcfg, hbuf, hcap, hbusy]
  rfl

theorem captureStep_captureService_comm {s : State} {h : Half} (hc : configLegal s.cfg = true) (hj : s.job = jobOf .cap h)
    (hne : halfOf s.cap.pos s.cfg.capHalf ≠ h) (w : Raw) :
    captureStep w (captureService h s) =
      { captureService h (captureStep w s) with result := (captureStep w (captureService h s)).result } := by
  have served := captureService_eq h s hc
  have busy := outstanding_of_job_done (t := captureService h s) (ch := .cap) (by rw [served]; rfl) hj (by rw [served]) hne
  rw [captureStep_congr w (by rw [served]) (by rw [served]) (by rw [served]) busy, captureService_captureStep hc hne]

/-- A playback service reads nothing that the engine moves, and writes nothing of it: neither its channel nor the output. -/
theorem playbackService_playbackStep (h : Half) (s : State) :
    playbackService h (playbackStep s) =
      { playbackService h s with txTrace := (playbackStep s).txTrace, pb := (playbackStep s).pb } := by
  rcases Nat.lt_or_ge s.fifo.count.toNat s.cfg.pbBatch with hstarved | henough
  · rw [playbackService_of_starved h hstarved, playbackService_of_starved (s := playbackStep s) h hstarved]
    rfl
  · rw [playbackService_of_enough h henough, playbackService_of_enough (s := playbackStep s) h henough]
    rfl

/-- Of a state, a playback DMA step reads the slot at the position, its channel, the output, the parameters and whether the half is
outstanding (R150). -/
theorem playbackStep_congr {s t : State} (hcfg : t.cfg = s.cfg) (htrace : t.txTrace = s.txTrace) (hpb : t.pb = s.pb)
    (hslot : t.pbAt s.pb.pos = s.pbAt s.pb.pos)
    (hbusy : t.outstanding .pb (halfOf s.pb.pos s.cfg.pbHalf) = s.outstanding .pb (halfOf s.pb.pos s.cfg.pbHalf)) :
    playbackStep t = { t with
      txTrace := (playbackStep s).txTrace
      pb := (playbackStep s).pb
      result := (playbackStep s).result } := by
  simp only [playbackStep, hcfg, htrace, hpb, hslot, hbusy]
  rfl

/-- An element reads the same in two states of one reset that list the same for it (R66). -/
theorem pbAt_congr {s t : State} {j : Nat} (hepoch : t.epoch = s.epoch) (hlist : t.pbBuf.lookup j = s.pbBuf.lookup j) :
    t.pbAt j = s.pbAt j := by
  simp only [State.pbAt, Memory.read, State.pbFill, hepoch, hlist]

theorem fifoAt_congr {s t : State} {j : Nat} (hepoch : t.epoch = s.epoch) (hlist : t.fifo.mem.lookup j = s.fifo.mem.lookup j) :
    t.fifoAt j = s.fifoAt j := by
  simp only [State.fifoAt, Memory.read, State.fifoFill, hepoch, hlist]

/-- A playback service changes no slot outside its half (R156). -/
theorem playbackService_pbAt_of_outside {s : State} (hc : configLegal s.cfg = true) (h : Half) {j : Nat}
    (hj : j < h.index * s.cfg.pbHalf ∨ (h.index + 1) * s.cfg.pbHalf ≤ j) : (playbackService h s).pbAt j = s.pbAt j :=
  pbAt_congr (by rw [playbackService_eq_update]) (playbackService_lookup_of_outside hc h j hj)

theorem playbackStep_playbackService_comm {s : State} {h : Half} (hc : configLegal s.cfg = true) (hj : s.job = jobOf .pb h)
    (hne : halfOf s.pb.pos s.cfg.pbHalf ≠ h) :
    playbackStep (playbackService h s) =
      { playbackService h (playbackStep s) with result := (playbackStep (playbackService h s)).result } := by
  have served := playbackService_eq_update h s
  have slot : (playbackService h s).pbAt s.pb.pos = s.pbAt s.pb.pos :=
    playbackService_pbAt_of_outside hc h (outside_of_halfOf_ne hne)
  have busy := outstanding_of_job_done (t := playbackService h s) (ch := .pb) (by rw [served]; rfl) hj (by rw [served]) hne
  rw [playbackStep_congr (by rw [served]) (by rw [served]) (by rw [served]) slot busy, playbackService_playbackStep]

/-- Settles O45: both orders are run, and the two effects commute on each channel. -/
theorem dmaStepsCommuteWithServicesOfTheOtherHalf : Obligations.DmaStepsCommuteWithServicesOfTheOtherHalf := by
  refine ⟨fun s h w hs run hj hw hne => ?_, fun s h hs run hj hne => ?_⟩
  · have dma {u : State} (hu : BlockInv u) (hrun : u.sys = .running) (hcfg : u.cfg = s.cfg) :
        exec (.capDma w) u = .next (captureStep w u) :=
      exec_of_enabled hu.legal (decide_eq_true (hcfg.symm ▸ hw)) (by simp [enabled, hrun]) (hu.indicesInside _)
    have hserved := captureService_eq h s hs.legal
    exact ⟨_, _, _, _, dma hs run rfl, exec_captureService hs.legal run hj, exec_captureService hs.legal run hj,
      dma (captureService_blockInv hs run h) (by rw [hserved]; exact run) (by rw [hserved]),
      captureStep_captureService_comm hs.legal hj hne w⟩
  · have dma {u : State} (hu : BlockInv u) (hrun : u.sys = .running) : exec .pbDma u = .next (playbackStep u) :=
      exec_of_enabled hu.legal rfl (by simp [enabled, hrun]) (hu.indicesInside _)
    exact ⟨_, _, _, _, dma hs run, exec_playbackService hs.legal run hj (hs.indicesInside .svcPb0),
      exec_playbackService hs.legal run hj (hs.indicesInside .svcPb0),
      dma (playbackService_blockInv hs run h) (by rw [playbackService_eq_update]; exact run),
      playbackStep_playbackService_comm hs.legal hj hne⟩

/-! ## Access rights (R75) -/

/-- A DMA step only sets latches (R210). -/
theorem Channel.dmaStep_pend_of_pend {c : Channel} {h : Half} (hp : c.pend h = true) (H : Nat) (busy : Bool) :
    (c.dmaStep H busy).pend h = true := by
  have keep (p : Nat) (r : Bool) : ({ c with race := r, pos := p } : Channel).pend h = true := by cases h <;> exact hp
  unfold Channel.dmaStep
  dsimp only
  split_ifs <;> simp [keep]

/-- The capture engine (R130): its buffer at its position, its position, its latches, its hazard bits. -/
theorem captureDma_rights {s t : State} {i : Instr} (h : exec i s = .next t) (hi : agentOf i = .captureDma) :
    t = { s with capBuf := t.capBuf, cap := t.cap, result := t.result } ∧ t.cap.flag = s.cap.flag ∧
      (∀ h, s.cap.pend h = true → t.cap.pend h = true) ∧ ∀ j, j ≠ s.cap.pos → t.capAt j = s.capAt j := by
  obtain ⟨w, rfl⟩ := eq_capDma_of_agent hi
  obtain ⟨-, ⟨-, rfl⟩ | ⟨-, -, rfl⟩ | ⟨-, -, -, rfl⟩⟩ := exec_cases h
  · exact ⟨rfl, rfl, fun _ => id, fun _ _ => rfl⟩
  · exact ⟨rfl, rfl, fun _ => id, fun _ _ => rfl⟩
  · exact ⟨rfl, Channel.dmaStep_flag _ _ _, fun _ hp => Channel.dmaStep_pend_of_pend hp _ _,
      fun j hj => (Memory.read_write s.capFill s.capBuf _ _ w).trans (if_neg hj)⟩

/-- The playback engine (R150): the output, its position, its latches, its hazard bits. -/
theorem playbackDma_rights {s t : State} {i : Instr} (h : exec i s = .next t) (hi : agentOf i = .playbackDma) :
    t = { s with txTrace := t.txTrace, pb := t.pb, result := t.result } ∧ t.pb.flag = s.pb.flag ∧
      ∀ h, s.pb.pend h = true → t.pb.pend h = true := by
  obtain rfl := eq_pbDma_of_agent hi
  obtain ⟨-, ⟨-, rfl⟩ | ⟨-, -, rfl⟩ | ⟨-, -, -, rfl⟩⟩ := exec_cases h
  · exact ⟨rfl, rfl, fun _ => id⟩
  · exact ⟨rfl, rfl, fun _ => id⟩
  · exact ⟨rfl, Channel.dmaStep_flag _ _ _, fun _ hp => Channel.dmaStep_pend_of_pend hp _ _⟩

theorem eq_entryInstr_of_interrupt {i : Instr} (hi : agentOf i = .interrupt) : ∃ ch h, i = entryInstr ch h := by
  cases i with
  | evCapHalf => exact ⟨.cap, .first, rfl⟩
  | evCapFull => exact ⟨.cap, .second, rfl⟩
  | evPbHalf => exact ⟨.pb, .first, rfl⟩
  | evPbFull => exact ⟨.pb, .second, rfl⟩
  | _ => nomatch hi

theorem effectOf_entryInstr (ch : Chan) (h : Half) (s : State) :
    effectOf (entryInstr ch h) s = (s.setChan ch ((s.chan ch).enter h)).respond .ok 0#32 := by
  cases ch <;> cases h <;> rfl

/-- An entry point (R212): its own latch, its channel's flag, its channel's lost bit. -/
theorem interrupt_rights {s t : State} {i : Instr} (h : exec i s = .next t) (hi : agentOf i = .interrupt) :
    ∃ ch h, i = entryInstr ch h ∧ t = { s.setChan ch (t.chan ch) with result := t.result } ∧
      (t.chan ch = s.chan ch ∨ t.chan ch = { (s.chan ch).setPend h false with flag := ready h, lost := (t.chan ch).lost }) := by
  obtain ⟨ch, hf, rfl⟩ := eq_entryInstr_of_interrupt hi
  refine ⟨ch, hf, rfl, ?_⟩
  obtain ⟨-, ⟨-, rfl⟩ | ⟨-, -, rfl⟩ | ⟨-, -, -, rfl⟩⟩ := exec_cases h
  · cases ch <;> exact ⟨rfl, .inl rfl⟩
  · cases ch <;> exact ⟨rfl, .inl rfl⟩
  · rw [effectOf_entryInstr]
    cases ch <;> exact ⟨rfl, .inr rfl⟩

/-- What R75 lets the scheduler write: flags, which it clears; with no job the job and the phase besides; with a job its FIFO side
and counters, of `pb_buf` the half the job names, of `fifo_mem` free elements for a capture job. -/
def SchedulerRights (s t : State) : Prop :=
  t = { s with
    fifo := t.fifo
    filt := t.filt
    hook := t.hook
    pbBuf := t.pbBuf
    cap := { s.cap with flag := t.cap.flag }
    pb := { s.pb with flag := t.pb.flag }
    job := t.job
    phase := t.phase
    ovrEvents := t.ovrEvents
    ovrSamples := t.ovrSamples
    undEvents := t.undEvents
    result := t.result } ∧
  (t.cap.flag = s.cap.flag ∨ t.cap.flag = .idle) ∧ (t.pb.flag = s.pb.flag ∨ t.pb.flag = .idle) ∧
  (s.job = .none → t.fifo = s.fifo ∧ t.pbBuf = s.pbBuf ∧ t.filt = s.filt ∧ t.hook = s.hook ∧
    t.ovrEvents = s.ovrEvents ∧ t.ovrSamples = s.ovrSamples ∧ t.undEvents = s.undEvents) ∧
  (s.job ≠ .none → t.cap.flag = s.cap.flag ∧ t.pb.flag = s.pb.flag ∧ t.phase = s.phase) ∧
  (∀ j, (∀ h, s.job = jobOf .pb h → j < h.index * s.cfg.pbHalf ∨ (h.index + 1) * s.cfg.pbHalf ≤ j) → t.pbAt j = s.pbAt j) ∧
  (∀ j, ((∃ h, s.job = jobOf .cap h) → ∀ k < min s.cfg.capBatch (s.cfg.fifoCap - s.fifo.count.toNat),
    (s.fifo.wr.toNat + k) % s.cfg.fifoCap ≠ j) → t.fifoAt j = s.fifoAt j)

theorem respond_schedulerRights (s : State) (code : ResultCode) (val : Word32) : SchedulerRights s (s.respond code val) :=
  ⟨rfl, .inl rfl, .inl rfl, fun _ => ⟨rfl, rfl, rfl, rfl, rfl, rfl, rfl⟩, fun _ => ⟨rfl, rfl, rfl⟩, fun _ _ => rfl, fun _ _ => rfl⟩

/-- A poll clears its flag and stores nothing (R170). -/
theorem pollCapture_schedulerRights {s : State} (hj : s.job = .none) : SchedulerRights s (pollCapture s) :=
  ⟨rfl, .inr rfl, .inl rfl, fun _ => ⟨rfl, rfl, rfl, rfl, rfl, rfl, rfl⟩, fun hne => absurd hj hne, fun _ _ => rfl, fun _ _ => rfl⟩

theorem pollPlayback_schedulerRights {s : State} (hj : s.job = .none) : SchedulerRights s (pollPlayback s) :=
  ⟨rfl, .inl rfl, .inr rfl, fun _ => ⟨rfl, rfl, rfl, rfl, rfl, rfl, rfl⟩, fun hne => absurd hj hne, fun _ _ => rfl, fun _ _ => rfl⟩

/-- A capture service stores into free elements of the FIFO and into no slot (R135). -/
theorem captureService_schedulerRights {s : State} {h : Half} (hc : configLegal s.cfg = true) (hj : s.job = jobOf .cap h) :
    SchedulerRights s (captureService h s) := by
  have stored (j : Nat) (hfree : (∃ h, s.job = jobOf .cap h) →
      ∀ k < min s.cfg.capBatch (s.cfg.fifoCap - s.fifo.count.toNat), (s.fifo.wr.toNat + k) % s.cfg.fifoCap ≠ j) :
      (captureService h s).fifoAt j = s.fifoAt j :=
    fifoAt_congr (by rw [captureService_eq h s hc]) (captureService_lookup_of_ne hc h j (hfree ⟨h, hj⟩))
  rw [captureService_eq h s hc] at stored ⊢
  exact ⟨rfl, .inl rfl, .inl rfl, fun hnone => absurd (hj.symm.trans hnone) (jobOf_ne_none h .cap), fun _ => ⟨rfl, rfl, rfl⟩,
    fun _ _ => rfl, stored⟩

/-- A playback service stores into its half and into no element of the FIFO (R155). -/
theorem playbackService_schedulerRights {s : State} {h : Half} (hc : configLegal s.cfg = true) (hp : popInRange s = true)
    (hj : s.job = jobOf .pb h) : SchedulerRights s (playbackService h s) := by
  have slots (j : Nat) (hout : ∀ h, s.job = jobOf .pb h → j < h.index * s.cfg.pbHalf ∨ (h.index + 1) * s.cfg.pbHalf ≤ j) :
      (playbackService h s).pbAt j = s.pbAt j := playbackService_pbAt_of_outside hc h (hout h hj)
  have elements (j : Nat) : (playbackService h s).fifoAt j = s.fifoAt j :=
    fifoAt_congr (by rw [playbackService_eq_update]) (by rw [playbackService_fifo_mem hc hp h])
  rw [playbackService_eq_update] at slots elements ⊢
  obtain ⟨-, hEvents, hSamples⟩ := playbackService_frame h s
  exact ⟨rfl, .inl rfl, .inl rfl, fun hnone => absurd (hj.symm.trans hnone) (jobOf_ne_none h .pb), fun _ => ⟨rfl, rfl, rfl⟩,
    slots, fun j _ => elements j⟩

theorem scheduler_rights {s t : State} {i : Instr} (h : exec i s = .next t) (hi : agentOf i = .scheduler) :
    SchedulerRights s t := by
  obtain ⟨hc, ⟨-, rfl⟩ | ⟨-, -, rfl⟩ | ⟨-, he, hr, rfl⟩⟩ := exec_cases h
  · exact respond_schedulerRights s _ _
  · exact respond_schedulerRights s _ _
  · cases i with
    | svcCap0 => exact captureService_schedulerRights hc (by simp_all [enabled, jobOf])
    | svcCap1 => exact captureService_schedulerRights hc (by simp_all [enabled, jobOf])
    | svcPb0 => exact playbackService_schedulerRights hc hr (by simp_all [enabled, jobOf])
    | svcPb1 => exact playbackService_schedulerRights hc hr (by simp_all [enabled, jobOf])
    | pollCap => exact pollCapture_schedulerRights (by simp_all [enabled])
    | pollPb => exact pollPlayback_schedulerRights (by simp_all [enabled])
    | _ => nomatch hi

/-- The host's operations other than `SYS.RESET` reach the FIFO, `sys_state` and the streams, and nothing else. -/
theorem effectOf_host_frame {i : Instr} (s : State) (hi : agentOf i = .host) (hreset : i ≠ .sysReset) :
    effectOf i s = { s with
      fifo := (effectOf i s).fifo
      sys := (effectOf i s).sys
      din := (effectOf i s).din
      dout := (effectOf i s).dout
      result := (effectOf i s).result } := by
  cases i with
  | sysReset => exact absurd rfl hreset
  | sysStart ok => obtain ⟨_, _, _, e⟩ := startBlock_frame ok s; simp only [effectOf, e]; rfl
  | fifoWrite v => obtain ⟨_, _, _, e⟩ := writeSample_frame v s; simp only [effectOf, e]; rfl
  | fifoRead => obtain ⟨_, _, _, e⟩ := readSample_frame s; simp only [effectOf, e]; rfl
  | sysRdstat r => rfl
  | fifoInit => rfl
  | fifoWrblk n => rfl
  | fifoRdblk n => rfl
  | _ => nomatch hi

/-- Away from `Stopped` the host may only read a register, or reset (R95). -/
theorem host_enabled_unless_stopped {i : Instr} {s : State} (hi : agentOf i = .host) (hreset : i ≠ .sysReset)
    (he : enabled i s = true) (hs : s.sys ≠ .stopped) : ∃ r, i = .sysRdstat r := by
  cases i <;> simp_all [agentOf, enabled]

/-- The host (R76): the FIFO, `sys_state` and the streams, while `Stopped`; of the storage only free elements. -/
theorem host_rights {s t : State} {i : Instr} (h : exec i s = .next t) (hi : agentOf i = .host) :
    i = .sysReset ∨
      (t = { s with fifo := t.fifo, sys := t.sys, din := t.din, dout := t.dout, result := t.result } ∧
        (s.sys ≠ .stopped → t.fifo = s.fifo ∧ t.sys = s.sys ∧ t.din = s.din ∧ t.dout = s.dout) ∧
        (s.fifo.count.toNat ≤ s.cfg.fifoCap → ∀ j, (∀ k < s.cfg.fifoCap - s.fifo.count.toNat,
          (s.fifo.wr.toNat + k) % s.cfg.fifoCap ≠ j) → t.fifoAt j = s.fifoAt j)) := by
  refine or_iff_not_imp_left.2 fun hreset => ?_
  obtain ⟨hc, ⟨-, rfl⟩ | ⟨-, -, rfl⟩ | ⟨-, he, hr, rfl⟩⟩ := exec_cases h
  · exact ⟨rfl, fun _ => ⟨rfl, rfl, rfl, rfl⟩, fun _ _ _ => rfl⟩
  · exact ⟨rfl, fun _ => ⟨rfl, rfl, rfl, rfl⟩, fun _ _ _ => rfl⟩
  · have frame := effectOf_host_frame s hi hreset
    refine ⟨frame, fun hs => ?_, fun hcount j hj => ?_⟩
    · obtain ⟨r, rfl⟩ := host_enabled_unless_stopped hi hreset he hs
      exact ⟨rfl, rfl, rfl, rfl⟩
    · exact fifoAt_congr (by rw [frame]) ((effectOf_fifoMove hc hcount hr hreset).lookup_of_ne hj)

/-- Settles O47: agent by agent. -/
theorem agentsKeepToTheirRights : Obligations.AgentsKeepToTheirRights := by
  intro s t i h
  cases hi : agentOf i with
  | host => exact host_rights h hi
  | captureDma => exact captureDma_rights h hi
  | playbackDma => exact playbackDma_rights h hi
  | interrupt => exact interrupt_rights h hi
  | scheduler => exact scheduler_rights h hi

end Sys2Proof.Machine

/-!
PROOFS. The statements of `30_encoding.md`: the command word and its operations determine each other (R90 to R93), the illegal words
and their answer (R94, R207), the answers by code (R200, R206), and the expansions that drive a DMA engine over a half (R98).
-/
namespace Sys2Proof

/-! ## Decoding the word of an operation (R92, R93) -/

section Decode

variable (rawW : Nat) (f : BitVec 4) (imm : Imm)

theorem decode_mkWord_sys : decode rawW (mkWord 0#4 f imm) = decodeSys f.toNat imm := by simp [decode]
theorem decode_mkWord_fifo : decode rawW (mkWord 1#4 f imm) = decodeFifo f.toNat imm := by simp [decode]
theorem decode_mkWord_cap : decode rawW (mkWord 2#4 f imm) = decodeCap rawW f.toNat imm := by simp [decode]
theorem decode_mkWord_pb : decode rawW (mkWord 3#4 f imm) = decodePb f.toNat imm := by simp [decode]
theorem decode_mkWord_sched : decode rawW (mkWord 4#4 f imm) = decodeSched f.toNat imm := by simp [decode]

end Decode

/-- Settles O2: the fields of the word select the row of the operation, and the operand fits by hypothesis. -/
theorem encodedOperationsDecodeBack : Obligations.EncodedOperationsDecodeBack := by
  intro rawW i hwf
  cases i with
  | sysReset => exact (decode_mkWord_sys _ _ _).trans rfl
  | sysStart ok => cases ok <;> exact (decode_mkWord_sys _ _ _).trans rfl
  | sysRdstat r => exact (decode_mkWord_sys _ _ _).trans (if_pos (of_decide_eq_true hwf))
  | fifoInit | fifoWrite | fifoRead | fifoWrblk | fifoRdblk => exact (decode_mkWord_fifo _ _ _).trans rfl
  | capDma w => exact (decode_mkWord_cap _ _ _).trans (if_pos (of_decide_eq_true hwf))
  | evCapHalf | evCapFull | svcCap0 | svcCap1 => exact (decode_mkWord_cap _ _ _).trans rfl
  | pbDma | evPbHalf | evPbFull | svcPb0 | svcPb1 => exact (decode_mkWord_pb _ _ _).trans rfl
  | pollCap | pollPb => exact (decode_mkWord_sched _ _ _).trans rfl

/-- The decoder reads a word it is shown to be the encoding of. -/
theorem decode_of_encode_eq {rawW : Nat} {i : Instr} {w : CmdWord} (he : encode i = w) (hwf : i.wellFormed rawW = true) :
    decode rawW w = .ok i :=
  he ▸ encodedOperationsDecodeBack rawW i hwf

/-- Settles O1: nine of the words are encodings; the tenth carries an element its `RAW_W` does not hold. -/
theorem tableWordsDecodeToTheirOperations : Obligations.TableWordsDecodeToTheirOperations :=
  ⟨decode_of_encode_eq rfl rfl, decode_of_encode_eq rfl rfl, decode_of_encode_eq rfl rfl, decode_of_encode_eq rfl rfl,
    decode_of_encode_eq rfl rfl, decode_of_encode_eq rfl rfl, decode_of_encode_eq rfl rfl, rfl, decode_of_encode_eq rfl rfl,
    decode_of_encode_eq rfl rfl⟩

/-! ## The word of a decoded operation (R90, R94) -/

section Encode

variable {rawW fn : Nat} {imm : Imm} {i j : Instr}

/-- `i` is a well-formed operation whose word has the fields `unit`, `fn` and `imm`. -/
def IsWordOf (rawW : Nat) (unit : BitVec 4) (fn : Nat) (imm : Imm) (i : Instr) : Prop :=
  encode i = mkWord unit (BitVec.ofNat 4 fn) imm ∧ i.wellFormed rawW = true

/-- A word of format N has no bit in `imm`. -/
theorem IsWordOf.of_formatN {unit : BitVec 4} (h : formatN imm i = .ok j) (hi : IsWordOf rawW unit fn 0#16 i) :
    IsWordOf rawW unit fn imm j := by
  obtain ⟨rfl, rfl⟩ := formatN_eq_ok.1 h
  exact hi

theorem decodeSys_isWordOf (h : decodeSys fn imm = .ok i) : IsWordOf rawW 0#4 fn imm i := by
  unfold decodeSys at h
  split at h
  · exact .of_formatN h ⟨rfl, rfl⟩
  · obtain ⟨rfl, rfl⟩ | ⟨rfl, rfl⟩ := formatK_eq_ok.1 h <;> exact ⟨rfl, rfl⟩
  · split_ifs at h with hr
    obtain rfl := Except.ok.inj h
    exact ⟨rfl, decide_eq_true hr⟩
  · nomatch h

theorem decodeFifo_isWordOf (h : decodeFifo fn imm = .ok i) : IsWordOf rawW 1#4 fn imm i := by
  unfold decodeFifo at h
  split at h
  · exact .of_formatN h ⟨rfl, rfl⟩
  · obtain rfl := Except.ok.inj h; exact ⟨rfl, rfl⟩
  · exact .of_formatN h ⟨rfl, rfl⟩
  · obtain rfl := Except.ok.inj h; exact ⟨rfl, rfl⟩
  · obtain rfl := Except.ok.inj h; exact ⟨rfl, rfl⟩
  · nomatch h

theorem decodeCap_isWordOf (h : decodeCap rawW fn imm = .ok i) : IsWordOf rawW 2#4 fn imm i := by
  unfold decodeCap at h
  split at h
  · split_ifs at h with hw
    obtain rfl := Except.ok.inj h
    exact ⟨rfl, decide_eq_true hw⟩
  iterate 4 exact .of_formatN h ⟨rfl, rfl⟩
  nomatch h

theorem decodePb_isWordOf (h : decodePb fn imm = .ok i) : IsWordOf rawW 3#4 fn imm i := by
  unfold decodePb at h
  split at h
  iterate 5 exact .of_formatN h ⟨rfl, rfl⟩
  nomatch h

theorem decodeSched_isWordOf (h : decodeSched fn imm = .ok i) : IsWordOf rawW 4#4 fn imm i := by
  unfold decodeSched at h
  split at h
  iterate 2 exact .of_formatN h ⟨rfl, rfl⟩
  nomatch h

/-- A word that decodes has no reserved bit, and its other three fields are those of its operation. -/
theorem decode_isWordOf {w : CmdWord} (h : decode rawW w = .ok i) :
    rsvOf w = 0#8 ∧ IsWordOf rawW (unitOf w) (fnOf w).toNat (immOf w) i := by
  unfold decode at h
  split_ifs at h with hrsv
  refine ⟨not_not.1 hrsv, ?_⟩
  have hunit (u : BitVec 4) (hu : (unitOf w).toNat = u.toNat) : unitOf w = u := BitVec.eq_of_toNat_eq hu
  split at h
  · exact hunit 0#4 ‹_› ▸ decodeSys_isWordOf h
  · exact hunit 1#4 ‹_› ▸ decodeFifo_isWordOf h
  · exact hunit 2#4 ‹_› ▸ decodeCap_isWordOf h
  · exact hunit 3#4 ‹_› ▸ decodePb_isWordOf h
  · exact hunit 4#4 ‹_› ▸ decodeSched_isWordOf h
  · nomatch h

end Encode

/-- Settles O3: a word is that of its fields, and its fields are those of its operation. -/
theorem legalWordsEncodeBack : Obligations.LegalWordsEncodeBack := by
  intro rawW w i h
  obtain ⟨hrsv, hword, hwf⟩ := decode_isWordOf h
  rw [BitVec.ofNat_toNat, BitVec.setWidth_eq, mkWord_fields hrsv] at hword
  exact ⟨hword, hwf⟩

end Sys2Proof

namespace Sys2Proof.Machine

/-! ## Illegal words and operations that are not enabled (R94, R206, R207) -/

/-- A word the decoder refuses is answered by its code (R207). -/
theorem execWord_of_error {w : CmdWord} {s : State} {e : DecodeError} (hc : configLegal s.cfg = true)
    (h : decode s.cfg.rawW w = .error e) : execWord w s = .next (s.respond .illegalCommand 0#32) := by
  simp only [execWord, h]
  exact issue_of_illegal hc rfl

/-- Settles O4: the decoder's refusals are collected unit by unit, over the fields as numbers. -/
theorem illegalWordsAreThoseListed : Obligations.IllegalWordsAreThoseListed := by
  intro s w hc unit fn rsv imm formatN illegal
  have hunit : (unitOf w).toNat = unit := (unitOf_toNat w).trans (Nat.mod_eq_of_lt (by have := w.isLt; omega))
  have hfn : (fnOf w).toNat = fn := fnOf_toNat w
  have hrsv : (rsvOf w).toNat = rsv := rsvOf_toNat w
  have himm : (immOf w).toNat = imm := immOf_toNat w
  have hrefused : (∃ e, decode s.cfg.rawW w = .error e) ↔ illegal := by
    rw [decode_error_iff, decodeSys_error_iff, decodeFifo_error_iff, decodeCap_error_iff, decodePb_error_iff,
      decodeSched_error_iff, hunit, hfn, hrsv, himm]
    simp only [illegal, formatN]
    clear_value unit fn rsv imm
    generalize imm / 2 ^ s.cfg.rawW = high
    -- in each unit the two lists name the same conditions on the other three fields
    rcases unit with _ | _ | _ | _ | _ | unit <;> simp <;> omega
  refine ⟨hrefused, fun hill => ?_⟩
  obtain ⟨e, he⟩ := hrefused.2 hill
  exact execWord_of_error hc he

/-- Settles O6: the command is taken off the schedule, and its word is answered by its code. -/
theorem stepAnswersAnIllegalWord : Obligations.StepAnswersAnIllegalWord := by
  intro s c rest e hc hs he
  rw [step_of_cons hs]
  exact execWord_of_error hc he

/-- Settles O7: every operation is issued with its condition in the table of R95, and the operand is decided first. -/
theorem notEnabledChangesNothing : Obligations.NotEnabledChangesNothing := by
  intro s i hc
  rw [exec_eq_issue]
  exact ⟨fun hwf hen => issue_of_not_enabled hc hwf hen, fun hwf => issue_of_illegal hc hwf⟩

/-! ## The codes of an enabled operation (R200) -/

/-- A capture service answers `Ok`, or `Overrun` with how many of its Nc samples were dropped. -/
theorem captureService_result_cases {s : State} (hc : configLegal s.cfg = true) (h : Half) :
    (captureService h s).result.code = .ok ∨
    ((captureService h s).result.code = .overrun ∧ 1 ≤ (captureService h s).result.val.toNat ∧
      (captureService h s).result.val.toNat ≤ s.cfg.capBatch) := by
  have hmax := (legal_capBatch hc).2
  rw [captureService_eq h s hc]
  dsimp only
  split_ifs with hdropped
  · refine .inr ⟨rfl, ?_⟩
    rw [BitVec.toNat_ofNat]
    omega
  · exact .inl rfl

/-- A playback service answers `Ok`, or `Underrun` with the count of the FIFO, less than a batch. -/
theorem playbackService_result_cases (h : Half) (s : State) :
    (playbackService h s).result.code = .ok ∨
    ((playbackService h s).result.code = .underrun ∧ (playbackService h s).result.val.toNat < s.cfg.pbBatch) := by
  rcases Nat.lt_or_ge s.fifo.count.toNat s.cfg.pbBatch with hstarved | henough
  · rw [playbackService_of_starved h hstarved]
    exact .inr ⟨rfl, by rwa [setWidth_32_toNat]⟩
  · rw [playbackService_of_enough h henough]
    exact .inl rfl

/-- Settles O8: the operation has its effect, and only six operations have one that can answer another code than `Ok`. -/
theorem resultCodesAreThoseListed : Obligations.ResultCodesAreThoseListed := by
  intro s i hs hwf hen
  refine ⟨_, exec_of_enabled hs.legal hwf hen (hs.indicesInside i), ?_⟩
  cases i with
  | sysStart ok =>
    cases ok
    · exact .inr (.inr (.inr (.inr (.inr ⟨rfl, rfl, rfl⟩))))
    · exact .inl rfl
  | fifoWrite v =>
    obtain ⟨-, e⟩ | ⟨_, -, e⟩ := writeSample_cases v s
    · exact .inr (.inl (by simp [effectOf, e]))
    · exact .inl (by simp [effectOf, e])
  | fifoRead =>
    obtain ⟨-, e⟩ | ⟨_, _, -, e⟩ := readSample_cases s
    · exact .inr (.inr (.inl (by simp [effectOf, e])))
    · exact .inl (by simp [effectOf, e])
  | svcCap0 =>
    exact (captureService_result_cases hs.legal .first).imp_right fun ⟨hcode, hval⟩ =>
      .inr (.inr (.inl ⟨hcode, .inl rfl, hval⟩))
  | svcCap1 =>
    exact (captureService_result_cases hs.legal .second).imp_right fun ⟨hcode, hval⟩ =>
      .inr (.inr (.inl ⟨hcode, .inr rfl, hval⟩))
  | svcPb0 =>
    exact (playbackService_result_cases .first s).imp_right fun ⟨hcode, hval⟩ =>
      .inr (.inr (.inr (.inl ⟨hcode, .inl rfl, hval⟩)))
  | svcPb1 =>
    exact (playbackService_result_cases .second s).imp_right fun ⟨hcode, hval⟩ =>
      .inr (.inr (.inr (.inl ⟨hcode, .inr rfl, hval⟩)))
  | _ => exact .inl rfl

/-! ## An engine driven over a half (R61, R98) -/

section Engine

variable {H n : Nat} {h : Half} {c c' : Channel}

/-- A DMA step sets the latch of a half exactly when it passes that half's last element. -/
theorem Channel.dmaStep_pend (busy : Bool) (hH : 1 ≤ H) (hp : c.pos < 2 * H) (k : Half) :
    (c.dmaStep H busy).pend k = (decide (c.pos + 1 = (k.index + 1) * H) || c.pend k) := by
  have hne : H ≠ 2 * H := by omega
  rcases Channel.dmaStep_cases busy hH hp with ⟨hend, e⟩ | ⟨hend, e⟩ | ⟨hinside, hlt, e⟩
  · rw [e, hend]
    cases k <;> simp [Channel.pend, Half.index, hne]
  · rw [e, hend]
    cases k <;> simp [Channel.pend, Half.index, hne.symm]
  · have hpass : c.pos + 1 ≠ (k.index + 1) * H := by cases k <;> simp only [Half.index] <;> omega
    rw [e, decide_eq_false hpass, Bool.false_or]
    cases k <;> rfl

/-- The channel `c'` is what `c`, at the start of half `h`, is after `n` DMA steps, but for its hazard bits: the last step of the
half has raised the half's event. -/
structure EngineAt (H : Nat) (h : Half) (n : Nat) (c c' : Channel) : Prop where
  flag : c'.flag = c.flag
  pos : c'.pos = (h.index * H + n) % (2 * H)
  pend : ∀ k, c'.pend k = (decide (k = h ∧ n = H) || c.pend k)

theorem half_element_lt (h : Half) (hn : n < H) : h.index * H + n < 2 * H := by
  have hend := half_end_le h H
  rw [Nat.add_one_mul] at hend
  omega

theorem EngineAt.start (hH : 1 ≤ H) (hpos : c.pos = h.index * H) : EngineAt H h 0 c c where
  flag := rfl
  pos := by rw [Nat.mod_eq_of_lt (half_element_lt h hH)]; exact hpos
  pend k := by rw [decide_eq_false (by omega), Bool.false_or]

theorem EngineAt.pos_of_lt (he : EngineAt H h n c c') (hn : n < H) : c'.pos = h.index * H + n :=
  he.pos.trans (Nat.mod_eq_of_lt (half_element_lt h hn))

theorem EngineAt.step (he : EngineAt H h n c c') (hn : n < H) (busy : Bool) :
    EngineAt H h (n + 1) c (c'.dmaStep H busy) where
  flag := (Channel.dmaStep_flag _ _ _).trans he.flag
  pos := by rw [Channel.dmaStep_pos, he.pos_of_lt hn, Nat.add_assoc]
  pend k := by
    have hpos := he.pos_of_lt hn
    have hpass : c'.pos + 1 = (k.index + 1) * H ↔ k = h ∧ n + 1 = H := by
      rw [hpos]
      cases k <;> cases h <;> simp [Half.index] <;> omega
    have hbefore : ¬ (k = h ∧ n = H) := by omega
    rw [Channel.dmaStep_pend busy (by omega) (hpos ▸ half_element_lt h hn), he.pend, decide_eq_false hbefore,
      Bool.false_or, decide_eq_decide.2 hpass]

/-- At the end of the half. -/
theorem EngineAt.eq_of_half (he : EngineAt H h H c c') :
    c' = { c.setPend h true with
      pos := ((h.index + 1) * H) % (2 * H)
      lost := c'.lost
      race := c'.race } := by
  obtain ⟨hflag, hpos, hpend⟩ := he
  have h0 := hpend .first
  have h1 := hpend .second
  obtain ⟨⟩ := c'
  cases h <;> simp_all [Channel.pend, Channel.setPend, Nat.add_one_mul]

end Engine

/-- An expansion with one more operation at its end. -/
theorem runItems_concat {items : List PseudoItem} {s t : State} (h : runItems items s = .next t) (i : Instr) :
    runItems (items ++ [.op i]) s = exec i t := by
  induction items generalizing s with
  | nil =>
    obtain rfl : s = t := by simpa [runItems] using h
    simp only [List.nil_append, runItems, PseudoItem.instr]
    cases exec i s <;> rfl
  | cons item rest ih =>
    simp only [List.cons_append, runItems] at h ⊢
    split at h
    · exact ih h
    · split at h
      · exact ih h
      · nomatch h
      · nomatch h

theorem BlockInv.exec_capDma {s : State} (hs : BlockInv s) (run : s.sys = .running) {w : Raw} (hw : w.toNat < 2 ^ s.cfg.rawW) :
    exec (.capDma w) s = .next (captureStep w s) :=
  exec_of_enabled hs.legal (decide_eq_true hw) (by simp [enabled, run]) (hs.indicesInside _)

theorem BlockInv.exec_pbDma {s : State} (hs : BlockInv s) (run : s.sys = .running) :
    exec .pbDma s = .next (playbackStep s) :=
  exec_of_enabled hs.legal rfl (by simp [enabled, run]) (hs.indicesInside _)

/-! ## `CAP.FILL` (R98, R130) -/

section Fill

variable {s t : State} {h : Half} {ws : List Raw}

theorem capAt_captureStep (w : Raw) (s : State) (j : Nat) :
    (captureStep w s).capAt j = if j = s.cap.pos then w else s.capAt j :=
  Memory.read_write s.capFill s.capBuf _ _ w

/-- The state `t` is `s`, its engine at the start of half `h`, after the elements `ws`. -/
structure FilledBy (s : State) (h : Half) (ws : List Raw) (t : State) : Prop where
  stored : ∀ i < ws.length, ws[i]? = some (t.capAt (h.index * s.cfg.capHalf + i))
  kept : ∀ j, (j < h.index * s.cfg.capHalf ∨ h.index * s.cfg.capHalf + ws.length ≤ j) → t.capAt j = s.capAt j
  engine : EngineAt s.cfg.capHalf h ws.length s.cap t.cap
  frame : t = { s with capBuf := t.capBuf, cap := t.cap, result := t.result }

theorem FilledBy.nil (hH : 1 ≤ s.cfg.capHalf) (hpos : s.cap.pos = h.index * s.cfg.capHalf) : FilledBy s h [] s where
  stored i hi := absurd hi (Nat.not_lt_zero i)
  kept _ _ := rfl
  engine := .start hH hpos
  frame := rfl

/-- The next element goes to the next index, so it is in order and overwrites none. -/
theorem FilledBy.concat (hf : FilledBy s h ws t) (hn : ws.length < s.cfg.capHalf) (w : Raw) :
    FilledBy s h (ws ++ [w]) (captureStep w t) := by
  have hpos := hf.engine.pos_of_lt hn
  have hcfg : t.cfg = s.cfg := by rw [hf.frame]
  refine ⟨fun i hi => ?_, fun j hj => ?_, ?_, ?_⟩
  · rw [List.length_append, List.length_singleton] at hi
    rw [capAt_captureStep, hpos]
    rcases Nat.lt_or_eq_of_le (Nat.le_of_lt_succ hi) with hlt | rfl
    · rw [List.getElem?_append_left hlt, if_neg (by omega), hf.stored i hlt]
    · rw [List.getElem?_concat_length, if_pos rfl]
  · rw [List.length_append, List.length_singleton] at hj
    rw [capAt_captureStep, hpos, if_neg (by omega), hf.kept j (by omega)]
  · rw [List.length_append, List.length_singleton, ← hcfg]
    exact EngineAt.step (hcfg.symm ▸ hf.engine) (hcfg.symm ▸ hn) _
  · rw [hf.frame]
    rfl

/-- Any number of elements, up to a half, is taken in order. -/
theorem runItems_capDma (hs : BlockInv s) (run : s.sys = .running) (hpos : s.cap.pos = h.index * s.cfg.capHalf) :
    ∀ ws : List Raw, ws.length ≤ s.cfg.capHalf → (∀ w ∈ ws, w.toNat < 2 ^ s.cfg.rawW) →
      ∃ t, runItems (ws.map fun w => .op (.capDma w)) s = .next t ∧ BlockInv t ∧ FilledBy s h ws t := by
  intro ws
  induction ws using List.reverseRecOn with
  | nil => exact fun _ _ => ⟨s, rfl, hs, .nil (legal_capHalf hs.legal) hpos⟩
  | append_singleton ws w ih =>
    intro hlen hfit
    rw [List.length_append, List.length_singleton] at hlen
    obtain ⟨t, hrun, ht, hf⟩ := ih (by omega) fun v hv => hfit v (List.mem_append_left _ hv)
    have htrun : t.sys = .running := by rw [hf.frame]; exact run
    have hw : w.toNat < 2 ^ t.cfg.rawW := by rw [hf.frame]; exact hfit w (by simp)
    refine ⟨captureStep w t, ?_, captureStep_blockInv ht htrun hw, hf.concat (by omega) w⟩
    rw [List.map_append, List.map_singleton, runItems_concat hrun]
    exact ht.exec_capDma htrun hw

end Fill

/-- Settles O32: the fill of a whole half, element by element. -/
theorem fillStoresTheHalfInOrder : Obligations.FillStoresTheHalfInOrder := by
  intro s h ws hs run hmeaning hfit
  obtain ⟨hlen, hpos⟩ : ws.length = s.cfg.capHalf ∧ s.cap.pos = h.index * s.cfg.capHalf := by
    simpa [meaningful] using hmeaning
  obtain ⟨t, hrun, -, hstored, hkept, hengine, hframe⟩ := runItems_capDma hs run hpos ws hlen.le hfit
  rw [hlen] at hstored hkept hengine
  rw [← Nat.add_one_mul] at hkept
  exact ⟨t, hrun, hstored, hkept, hengine.eq_of_half, hframe⟩

/-! ## `PB.DRAIN` (R98, R150) -/

section Drain

variable {s t : State} {h : Half} {n : Nat}

/-- The state `t` is `s`, its engine at the start of half `h`, after `n` slots. -/
structure DrainedBy (s : State) (h : Half) (n : Nat) (t : State) : Prop where
  sent : t.txTrace = s.txTrace ++ (List.range n).map (fun i => s.pbAt (h.index * s.cfg.pbHalf + i))
  engine : EngineAt s.cfg.pbHalf h n s.pb t.pb
  frame : t = { s with txTrace := t.txTrace, pb := t.pb, result := t.result }

theorem DrainedBy.zero (hH : 1 ≤ s.cfg.pbHalf) (hpos : s.pb.pos = h.index * s.cfg.pbHalf) : DrainedBy s h 0 s where
  sent := by simp
  engine := .start hH hpos
  frame := rfl

/-- The next slot sent is the next of the half, as it was at the start: the engine writes no slot. -/
theorem DrainedBy.succ (hd : DrainedBy s h n t) (hn : n < s.cfg.pbHalf) : DrainedBy s h (n + 1) (playbackStep t) := by
  have hpos := hd.engine.pos_of_lt hn
  have hcfg : t.cfg = s.cfg := by rw [hd.frame]
  have hslot : t.pbAt t.pb.pos = s.pbAt (h.index * s.cfg.pbHalf + n) := by
    rw [hpos]
    exact pbAt_congr (by rw [hd.frame]) (by rw [hd.frame])
  refine ⟨?_, ?_, ?_⟩
  · change t.txTrace ++ [t.pbAt t.pb.pos] = _
    rw [hslot, hd.sent, List.range_succ, List.map_append, List.map_singleton, List.append_assoc]
  · rw [← hcfg]
    exact EngineAt.step (hcfg.symm ▸ hd.engine) (hcfg.symm ▸ hn) _
  · rw [hd.frame]
    rfl

/-- Any number of slots, up to a half, is sent in order. -/
theorem runItems_pbDma (hs : BlockInv s) (run : s.sys = .running) (hpos : s.pb.pos = h.index * s.cfg.pbHalf) :
    ∀ n ≤ s.cfg.pbHalf, ∃ t, runItems (List.replicate n (.op .pbDma)) s = .next t ∧ BlockInv t ∧ DrainedBy s h n t := by
  intro n
  induction n with
  | zero => exact fun _ => ⟨s, rfl, hs, .zero (legal_pbHalf hs.legal) hpos⟩
  | succ n ih =>
    intro hn
    obtain ⟨t, hrun, ht, hd⟩ := ih (by omega)
    have htrun : t.sys = .running := by rw [hd.frame]; exact run
    refine ⟨playbackStep t, ?_, playbackStep_blockInv ht htrun, hd.succ hn⟩
    rw [List.replicate_succ', runItems_concat hrun]
    exact ht.exec_pbDma htrun

end Drain

/-- Settles O33: the drain of a whole half, slot by slot. -/
theorem drainTransmitsTheHalfInOrder : Obligations.DrainTransmitsTheHalfInOrder := by
  intro s h hs run hpos
  obtain ⟨t, hrun, -, hsent, hengine, hframe⟩ := runItems_pbDma hs run hpos s.cfg.pbHalf le_rfl
  exact ⟨t, hrun, hsent, hengine.eq_of_half, hframe⟩

end Sys2Proof.Machine

/-!
PROOFS. The statements of `40_ringfifo.md`: the five operations of the host (R110 to R114), the strict order of the FIFO (R115), and
the block operations as repeated single ones (R117).
-/
namespace Sys2Proof

/-- The operand of a word stands in its low bits (R90). -/
theorem mkWord_eq_add (u f : BitVec 4) (imm : Imm) : mkWord u f imm = mkWord u f 0#16 + imm.setWidth 32 := by
  have hword := (mkWord u f imm).isLt
  rw [mkWord_toNat] at hword
  apply BitVec.eq_of_toNat_eq
  rw [BitVec.toNat_add, mkWord_toNat, mkWord_toNat, Machine.setWidth_32_toNat, BitVec.toNat_ofNat]
  omega

end Sys2Proof

namespace Sys2Proof.Machine

/-! ## The FIFO functions, inverted (R111, R112) -/

section Fifo

variable {cap : Nat} {fill : Nat → Sample} {f f' : Fifo} {v : Sample}

theorem Fifo.write_eq_none_iff : f.write cap v = none ↔ f.count.toNat = cap := by
  unfold Fifo.write; split_ifs with h <;> simp [h]

theorem Fifo.read_eq_none_iff : f.read cap fill = none ↔ f.count.toNat = 0 := by
  unfold Fifo.read; split_ifs with h <;> simp [h]

/-- What a write that succeeds tells (R111). -/
theorem Fifo.write_eq_some (hc : 1 ≤ cap ∧ cap ≤ 65535) (hcount : f.count.toNat ≤ cap) (e : f.write cap v = some f') :
    f.count.toNat < cap ∧ f'.mem = f.mem.write f.wr.toNat v ∧ f'.rd = f.rd ∧ f'.wr.toNat = (f.wr.toNat + 1) % cap ∧
      f'.count.toNat = f.count.toNat + 1 := by
  rcases Fifo.write_cases v hc hcount with ⟨-, hfull⟩ | ⟨g, hroom, hg, fields⟩
  · exact absurd (hfull.symm.trans e) (by simp)
  · obtain rfl : g = f' := Option.some.inj (hg.symm.trans e)
    exact ⟨hroom, fields⟩

/-- What a read that succeeds tells (R112). -/
theorem Fifo.read_eq_some (hc : 1 ≤ cap ∧ cap ≤ 65535) (e : f.read cap fill = some (v, f')) :
    0 < f.count.toNat ∧ v = f.mem.read fill f.rd.toNat ∧ f'.mem = f.mem ∧ f'.wr = f.wr ∧
      f'.rd.toNat = (f.rd.toNat + 1) % cap ∧ f'.count.toNat = f.count.toNat - 1 := by
  rcases Fifo.read_cases fill hc (f := f) with ⟨-, hempty⟩ | ⟨g, hpos, hg, fields⟩
  · exact absurd (hempty.symm.trans e) (by simp)
  · obtain ⟨rfl, rfl⟩ : f.mem.read fill f.rd.toNat = v ∧ g = f' := Prod.ext_iff.1 (Option.some.inj (hg.symm.trans e))
    exact ⟨hpos, rfl, fields⟩

/-! ## The logical content (R23 d, R115) -/

/-- A write puts its sample after the content: the write cursor is the slot after the newest, and no slot of the content. -/
theorem Fifo.content_of_write (hc : 1 ≤ cap ∧ cap ≤ 65535) (hcount : f.count.toNat ≤ cap)
    (hcursors : f.wr.toNat = (f.rd.toNat + f.count.toNat) % cap) (e : f.write cap v = some f') :
    f'.content cap fill = f.content cap fill ++ [v] := by
  obtain ⟨hroom, hmem, hrd, -, hcount'⟩ := Fifo.write_eq_some hc hcount e
  simp only [Fifo.content, hmem, hrd, hcount', hcursors, List.range_succ, List.map_append, List.map_singleton,
    Memory.read_write, if_true]
  congr 1
  refine List.map_congr_left fun i hi => if_neg fun hslot => ?_
  have hold := List.mem_range.1 hi
  exact hold.ne (ring_injective (hold.trans hroom) hroom hslot)

/-- A read takes the head off the content. -/
theorem Fifo.content_of_read (hc : 1 ≤ cap ∧ cap ≤ 65535) (hrd : f.rd.toNat < cap) (e : f.read cap fill = some (v, f')) :
    f.content cap fill = v :: f'.content cap fill := by
  obtain ⟨hpos, rfl, hmem, -, hrd', hcount'⟩ := Fifo.read_eq_some hc e
  have hsucc : f.count.toNat = f'.count.toNat + 1 := by omega
  simp only [Fifo.content, hsucc, List.range_succ_eq_map, List.map_cons, List.map_map, Nat.add_zero, Nat.mod_eq_of_lt hrd, hmem,
    hrd', Nat.mod_add_mod]
  congr 1
  refine List.map_congr_left fun i _ => ?_
  simp only [Function.comp_apply, Nat.succ_eq_add_one, Nat.add_comm i 1, Nat.add_assoc]

theorem Fifo.content_eq_nil_iff : f.content cap fill = [] ↔ f.count.toNat = 0 := by
  rw [← List.length_eq_zero_iff, Fifo.content_length]

/-! ## A block write is single writes (R117) -/

/-- Starting a ring write one slot on is starting it with the next index. -/
theorem ringWrite_succ_start (cap start : Nat) (xs : List Sample) :
    ∀ (k : Nat) (m : Memory), ringWrite cap ((start + 1) % cap) k xs m = ringWrite cap start (k + 1) xs m := by
  induction xs with
  | nil => exact fun _ _ => rfl
  | cons x xs ih =>
    intro k m
    simp only [ringWrite]
    rw [ih, Nat.mod_add_mod, Nat.add_assoc start, Nat.add_comm 1 k]

/-- A block write with no sample, or no room, leaves the FIFO as it is. -/
theorem Fifo.writeBlock_of_nothing {xs : List Sample} (hwr : f.wr.toNat < cap) (h : min xs.length (cap - f.count.toNat) = 0) :
    f.writeBlock cap xs = (0, f) := by
  simp [Fifo.writeBlock, h, ringWrite, Nat.mod_eq_of_lt hwr]

/-- With room, a block write is a single write and the block write of the rest. -/
theorem Fifo.writeBlock_cons (hc : 1 ≤ cap ∧ cap ≤ 65535) (hwr : f.wr.toNat < cap) (hcount : f.count.toNat ≤ cap)
    (e : f.write cap v = some f') (xs : List Sample) :
    f.writeBlock cap (v :: xs) = ((f'.writeBlock cap xs).1 + 1, (f'.writeBlock cap xs).2) := by
  obtain ⟨hroom, hmem, hrd, hwr', hcount'⟩ := Fifo.write_eq_some hc hcount e
  have hw : min (v :: xs).length (cap - f.count.toNat) = min xs.length (cap - (f.count.toNat + 1)) + 1 := by
    rw [List.length_cons]
    omega
  simp only [Fifo.writeBlock, hw, hmem, hrd, hwr', hcount', List.take_succ_cons, ringWrite, ringWrite_succ_start, Nat.add_zero,
    Nat.mod_eq_of_lt hwr, Nat.mod_add_mod, Nat.add_assoc, Nat.add_comm 1]

theorem Fifo.writeBlock_eq_writeEach (hc : 1 ≤ cap ∧ cap ≤ 65535) (xs : List Sample) :
    ∀ f : Fifo, f.wr.toNat < cap → f.count.toNat ≤ cap → f.writeBlock cap xs = writeEach cap xs f := by
  induction xs with
  | nil => exact fun f hwr _ => Fifo.writeBlock_of_nothing hwr (Nat.zero_min _)
  | cons x xs ih =>
    intro f hwr hcount
    cases e : f.write cap x with
    | none =>
      have hfull := Fifo.write_eq_none_iff.1 e
      simp only [writeEach, e]
      exact Fifo.writeBlock_of_nothing hwr (by omega)
    | some f' =>
      obtain ⟨hroom, -, -, hwr', hcount'⟩ := Fifo.write_eq_some hc hcount e
      have hrest := ih f' (hwr' ▸ Nat.mod_lt _ hc.1) (hcount' ▸ hroom)
      simp only [writeEach, e]
      rw [Fifo.writeBlock_cons hc hwr hcount e, hrest]

/-! ## A block read is single reads (R117) -/

/-- A block read of no sample, or of an empty FIFO, leaves the FIFO as it is. -/
theorem Fifo.readBlock_of_nothing {n : Nat} (hrd : f.rd.toNat < cap) (h : min n f.count.toNat = 0) :
    f.readBlock cap fill n = ([], f) := by
  simp [Fifo.readBlock, h, Nat.mod_eq_of_lt hrd]

/-- Of a FIFO with a sample, a block read is a single read and the block read of the rest. -/
theorem Fifo.readBlock_succ (hc : 1 ≤ cap ∧ cap ≤ 65535) (hrd : f.rd.toNat < cap) (e : f.read cap fill = some (v, f'))
    (n : Nat) :
    f.readBlock cap fill (n + 1) = (v :: (f'.readBlock cap fill n).1, (f'.readBlock cap fill n).2) := by
  obtain ⟨hpos, -, hmem, hwr, hrd', hcount'⟩ := Fifo.read_eq_some hc e
  refine Prod.ext ?_ ?_
  · rw [Fifo.readBlock_fst, Fifo.content_of_read hc hrd e, List.take_succ_cons, Fifo.readBlock_fst]
  · have hr : min (n + 1) f.count.toNat = 1 + min n (f.count.toNat - 1) := by omega
    simp only [Fifo.readBlock, hmem, hwr, hrd', hcount', hr, Nat.mod_add_mod, Nat.add_assoc, Nat.sub_sub]

theorem Fifo.readBlock_eq_readEach (hc : 1 ≤ cap ∧ cap ≤ 65535) (n : Nat) :
    ∀ f : Fifo, f.rd.toNat < cap → f.readBlock cap fill n = readEach cap fill n f := by
  induction n with
  | zero => exact fun f hrd => Fifo.readBlock_of_nothing hrd (Nat.zero_min _)
  | succ n ih =>
    intro f hrd
    cases e : f.read cap fill with
    | none =>
      have hempty := Fifo.read_eq_none_iff.1 e
      simp only [readEach, e]
      exact Fifo.readBlock_of_nothing hrd (by omega)
    | some p =>
      obtain ⟨v, f'⟩ := p
      obtain ⟨-, -, -, -, hrd', -⟩ := Fifo.read_eq_some hc e
      have hrest := ih f' (hrd' ▸ Nat.mod_lt _ hc.1)
      simp only [readEach, e]
      rw [Fifo.readBlock_succ hc hrd e, hrest]

end Fifo

/-- Settles O20: by induction on the samples to write, and on the number of samples to read. -/
theorem blockOperationsAreRepeatedSingleOnes : Obligations.BlockOperationsAreRepeatedSingleOnes := by
  intro cap fill f hmin hmax
  exact ⟨fun hwr hcount xs => Fifo.writeBlock_eq_writeEach ⟨hmin, hmax⟩ xs f hwr hcount,
    fun hrd n => Fifo.readBlock_eq_readEach ⟨hmin, hmax⟩ n f hrd⟩

/-- Settles O21: whether an operation succeeds is the length of the content; what it does to the content is said above. -/
theorem fifoOrderIsStrict : Obligations.FifoOrderIsStrict := by
  intro cap fill f hmin hmax hrd hcount hcursors
  have hc : 1 ≤ cap ∧ cap ≤ 65535 := ⟨hmin, hmax⟩
  rw [Fifo.content_length]
  refine ⟨fun v hroom => ?_, fun v => Fifo.write_eq_none_iff.2, fun v l hcontent => ?_,
    fun hnil => Fifo.read_eq_none_iff.2 (Fifo.content_eq_nil_iff.1 hnil), rfl⟩
  · cases e : f.write cap v with
    | none => exact absurd (Fifo.write_eq_none_iff.1 e) hroom.ne
    | some f' => exact ⟨f', rfl, Fifo.content_of_write hc hcount hcursors e⟩
  · cases e : f.read cap fill with
    | none =>
      have hnil : f.content cap fill = [] := Fifo.content_eq_nil_iff.2 (Fifo.read_eq_none_iff.1 e)
      exact absurd (hcontent.symm.trans hnil) (List.cons_ne_nil v l)
    | some p =>
      obtain ⟨u, f'⟩ := p
      obtain ⟨rfl, rfl⟩ := List.cons.inj ((Fifo.content_of_read hc hrd e).symm.trans hcontent)
      exact ⟨f', rfl, rfl⟩

/-! ## The operations of the host (R110 to R114) -/

/-- An operation that is not enabled is answered by its code (R206). -/
theorem exec_of_not_enabled {i : Instr} {s : State} (hc : configLegal s.cfg = true) (hl : i.wellFormed s.cfg.rawW = true)
    (he : enabled i s = false) : exec i s = .next { s with result := ⟨.notEnabled, 0#32⟩ } :=
  (notEnabledChangesNothing s i hc).1 hl he

/-- An element that is listed reads as what is listed for it (R66). -/
theorem State.fifoAt_of_lookup {s : State} {i : Nat} {v : Sample} (h : s.fifo.mem.lookup i = some v) : s.fifoAt i = v := by
  simp only [State.fifoAt, Memory.read, h, Option.getD_some]

/-- Settles O15: the effect writes no element. -/
theorem fifoInitEmptiesTheFifo : Obligations.FifoInitEmptiesTheFifo := by
  intro s hc
  refine ⟨rfl, fun hs => ?_, fun hs => exec_of_not_enabled hc rfl (by simp [enabled, hs])⟩
  exact ⟨effectOf .fifoInit s, exec_of_enabled hc rfl (by simp [enabled, hs]) rfl, rfl, rfl, rfl, fun _ => rfl, rfl⟩

/-- Settles O16: the effect is that of `F_write`, which is `Full` exactly when the count is C. -/
theorem fifoWriteAppendsOrReportsFull : Obligations.FifoWriteAppendsOrReportsFull := by
  intro s v hc
  have hen (hs : s.sys = .stopped) : enabled (.fifoWrite v) s = true := by simp [enabled, hs]
  refine ⟨mkWord_eq_add 1#4 1#4 v, fun hs hroom hwr => ?_, fun hs hfull => ?_,
    fun hs => exec_of_not_enabled hc rfl (by simp [enabled, hs])⟩
  · have hexec := exec_of_enabled hc rfl (hen hs) (decide_eq_true (.inr hwr))
    obtain ⟨hnone, -⟩ | ⟨f, hwrite, heffect⟩ := writeSample_cases v s
    · exact absurd (Fifo.write_eq_none_iff.1 hnone) hroom.ne
    · obtain ⟨-, hmem, hrd, hwr', hcount⟩ := Fifo.write_eq_some (legal_fifoCap hc) hroom.le hwrite
      rw [effectOf, heffect] at hexec
      refine ⟨_, hexec, hwr', hrd, hcount, fun i => ?_, rfl⟩
      calc f.mem.read s.fifoFill i
        _ = (s.fifo.mem.write s.fifo.wr.toNat v).read s.fifoFill i := by rw [hmem]
        _ = if i = s.fifo.wr.toNat then v else s.fifoAt i := Memory.read_write _ _ _ _ _
  · have hexec := exec_of_enabled hc rfl (hen hs) (decide_eq_true (.inl hfull))
    obtain ⟨-, heffect⟩ | ⟨f, hwrite, -⟩ := writeSample_cases v s
    · rwa [effectOf, heffect] at hexec
    · exact absurd (hwrite.symm.trans (Fifo.write_eq_none_iff.2 hfull)) (Option.some_ne_none f)

/-- Settles O17: the effect is that of `F_read`, which is `Empty` exactly when the count is 0. -/
theorem fifoReadRemovesTheOldestOrReportsEmpty : Obligations.FifoReadRemovesTheOldestOrReportsEmpty := by
  intro s hc
  have hen (hs : s.sys = .stopped) : enabled .fifoRead s = true := by simp [enabled, hs]
  refine ⟨rfl, fun hs hpos hrd => ?_, fun hs hempty => ?_, fun hs => exec_of_not_enabled hc rfl (by simp [enabled, hs])⟩
  · have hexec := exec_of_enabled hc rfl (hen hs) (decide_eq_true (.inr hrd))
    obtain ⟨hnone, -⟩ | ⟨v, f, hread, heffect⟩ := readSample_cases s
    · exact absurd (Fifo.read_eq_none_iff.1 hnone) hpos.ne'
    · obtain ⟨-, rfl, hmem, hwr, hrd', hcount⟩ := Fifo.read_eq_some (legal_fifoCap hc) hread
      rw [effectOf, heffect] at hexec
      exact ⟨_, hexec, hrd', hwr, hcount, fun i => fifoAt_congr rfl (congrArg (·.lookup i) hmem), rfl⟩
  · have hexec := exec_of_enabled hc rfl (hen hs) (decide_eq_true (.inl hempty))
    obtain ⟨-, heffect⟩ | ⟨v, f, hread, -⟩ := readSample_cases s
    · rwa [effectOf, heffect] at hexec
    · exact absurd (hread.symm.trans (Fifo.read_eq_none_iff.2 hempty)) (Option.some_ne_none (v, f))

/-- Settles O18: the effect is that of `F_write_block` on the first `n` samples of `din`, which are there. -/
theorem fifoBlockWriteStoresWhatFits : Obligations.FifoBlockWriteStoresWhatFits := by
  intro s n hc
  have hcap := legal_fifoCap hc
  refine ⟨mkWord_eq_add 1#4 3#4 n, fun hs hn hcount => ?_, fun h => exec_of_not_enabled hc rfl ?_⟩
  · have hlen : (s.din.take n.toNat).length = n.toNat := List.length_take_of_le hn
    have hwr := Fifo.writeBlock_wr s.fifo (s.din.take n.toNat) hcap
    have hcount' := Fifo.writeBlock_count (s.din.take n.toNat) hcap hcount
    have hstored := Fifo.writeBlock_lookup_of_lt (cap := s.cfg.fifoCap) (f := s.fifo) (s.din.take n.toNat)
    have hkept := Fifo.writeBlock_lookup_of_ne (cap := s.cfg.fifoCap) (f := s.fifo) (s.din.take n.toNat)
    rw [hlen] at hwr hcount' hkept
    refine ⟨effectOf (.fifoWrblk n) s, _, rfl, exec_of_enabled hc rfl (by simp [enabled, hs, hn]) rfl, hwr, rfl, hcount',
      fun i hi => ?_, fun j hj => fifoAt_congr rfl (hkept j hj), ?_⟩
    · have hin : i < s.din.length := by omega
      rw [State.fifoAt_of_lookup (hstored i (by rwa [hlen])), List.getElem_take, List.getElem?_eq_getElem hin]
    · simp only [effectOf, writeSamples, State.respond, Fifo.writeBlock_fst, hlen]
  · obtain hs | hshort := h
    · simp [enabled, hs]
    · simp [enabled, hshort]

/-- Settles O19: the effect is that of `F_read_block`, which writes no element. -/
theorem fifoBlockReadTakesWhatIsThere : Obligations.FifoBlockReadTakesWhatIsThere := by
  intro s n hc
  refine ⟨mkWord_eq_add 1#4 4#4 n, fun hs => ?_, fun hs => exec_of_not_enabled hc rfl (by simp [enabled, hs])⟩
  refine ⟨effectOf (.fifoRdblk n) s, _, rfl, exec_of_enabled hc rfl (by simp [enabled, hs]) rfl,
    Fifo.readBlock_rd s.fifoFill _ _ (legal_fifoCap hc), rfl, Fifo.readBlock_count _ s.fifoFill _ _, fun _ => rfl, rfl, ?_⟩
  simp only [effectOf, readSamples, State.respond, Fifo.readBlock_length]

end Sys2Proof.Machine

/-!
PROOFS. The statements of `41_capture.md`: the capture DMA step (R130), the entry points (R131, R132), the services (R133 to R135).
What holds of either channel is said of either.
-/
namespace Sys2Proof.Machine

/-! ## One DMA step, field by field (R61, R130, R150) -/

section DmaStep

variable {H : Nat} {c : Channel}

/-- The engine wraps at the end of the buffer. -/
theorem Channel.dmaStep_pos_of_lt (busy : Bool) (hp : c.pos < 2 * H) :
    (c.dmaStep H busy).pos = if c.pos + 1 = 2 * H then 0 else c.pos + 1 := by
  rw [Channel.dmaStep_pos]
  split_ifs with hend
  · rw [hend, Nat.mod_self]
  · exact Nat.mod_eq_of_lt (by omega)

theorem Channel.dmaStep_pend0 (busy : Bool) (hH : 1 ≤ H) (hp : c.pos < 2 * H) :
    (c.dmaStep H busy).pend0 = (c.pend0 || decide (c.pos + 1 = H)) := by
  simpa [Channel.pend, Half.index, Bool.or_comm] using Channel.dmaStep_pend busy hH hp .first

theorem Channel.dmaStep_pend1 (busy : Bool) (hH : 1 ≤ H) (hp : c.pos < 2 * H) :
    (c.dmaStep H busy).pend1 = (c.pend1 || decide (c.pos + 1 = 2 * H)) :=
  (Channel.dmaStep_pend busy hH hp .second).trans (Bool.or_comm _ _)

/-- An event is lost when the latch it sets was set already (R221 a). -/
theorem Channel.dmaStep_lost (busy : Bool) (hH : 1 ≤ H) (hp : c.pos < 2 * H) :
    (c.dmaStep H busy).lost =
      (c.lost || (c.pend0 && decide (c.pos + 1 = H)) || (c.pend1 && decide (c.pos + 1 = 2 * H))) := by
  have hne : H ≠ 2 * H := by omega
  rcases Channel.dmaStep_cases busy hH hp with ⟨hend, e⟩ | ⟨hend, e⟩ | ⟨hinside, hlt, e⟩
  · simp [e, hend, hne]
  · simp [e, hend, hne.symm]
  · simp [e, hinside, hlt.ne]

end DmaStep

/-- Whether the half an engine steps into is the scheduler's (R47, R68), half by half. -/
theorem State.outstanding_halfOf (s : State) (ch : Chan) (p H : Nat) :
    s.outstanding ch (halfOf p H) =
      if p < H then (s.chan ch).pend0 || (s.chan ch).flag == .firstHalfReady || s.job == jobOf ch .first
      else (s.chan ch).pend1 || (s.chan ch).flag == .secondHalfReady || s.job == jobOf ch .second := by
  rcases Nat.lt_or_ge p H with hlt | hge
  · rw [halfOf_of_lt hlt, if_pos hlt]
    rfl
  · rw [halfOf_of_le hge, if_neg (Nat.not_lt.2 hge)]
    rfl

/-- Settles O22: the effect is one DMA step of the channel and one write of the buffer; an element too wide makes the term
ill-formed. -/
theorem captureDmaStoresAndRaises : Obligations.CaptureDmaStoresAndRaises := by
  intro s w hc
  have hH := legal_capHalf hc
  refine ⟨mkWord_eq_add 2#4 0#4 w, fun hw run hpos => ?_, fun hw hs => ?_, fun hwide => ?_⟩
  · refine ⟨captureStep w s, exec_of_enabled hc (decide_eq_true hw) (by simp [enabled, run]) (decide_eq_true hpos),
      capAt_captureStep w s, Channel.dmaStep_pos_of_lt _ hpos, Channel.dmaStep_flag _ _ _,
      Channel.dmaStep_pend0 _ hH hpos, Channel.dmaStep_pend1 _ hH hpos, Channel.dmaStep_lost _ hH hpos, ?_, rfl⟩
    exact (Channel.dmaStep_race _ _ _).trans (congrArg _ (s.outstanding_halfOf .cap _ _))
  · exact exec_of_not_enabled hc (decide_eq_true hw) (by simp [enabled, hs])
  · exact (notEnabledChangesNothing s (.capDma w) hc).2 (decide_eq_false (Nat.not_lt.2 hwide))

/-! ## The entry points (R131, R132, R151, R152) -/

theorem enabled_entryInstr (ch : Chan) (h : Half) (s : State) :
    enabled (entryInstr ch h) s = (s.sys == .running && (s.chan ch).pend h) := by
  cases ch <;> cases h <;> rfl

section Entry

variable {s : State} {ch : Chan} {h : Half}

theorem exec_entryInstr (hc : configLegal s.cfg = true) (run : s.sys = .running) (hp : (s.chan ch).pend h = true) :
    exec (entryInstr ch h) s = .next ((s.setChan ch ((s.chan ch).enter h)).respond .ok 0#32) := by
  rw [← effectOf_entryInstr]
  refine exec_of_enabled hc ?_ (by simp [enabled_entryInstr, run, hp]) ?_ <;> cases ch <;> cases h <;> rfl

theorem exec_entryInstr_of_not_enabled (hc : configLegal s.cfg = true)
    (hn : s.sys ≠ .running ∨ (s.chan ch).pend h = false) :
    exec (entryInstr ch h) s = .next { s with result := ⟨.notEnabled, 0#32⟩ } := by
  refine exec_of_not_enabled hc (by cases ch <;> cases h <;> rfl) ?_
  rw [enabled_entryInstr]
  rcases hn with hs | hp
  · simp [hs]
  · simp [hp]

end Entry

/-- Taking an event, as one update (R212, R221 b). -/
theorem Channel.enter_eq (c : Channel) (h : Half) :
    c.enter h = { c.setPend h false with flag := ready h, lost := c.lost || c.flag != .idle } := by
  rw [Channel.enter, bne, beq_eq_decide, ← decide_not]

/-- Settles O23: each entry point takes the event of its half. -/
theorem captureEventsSetTheFlag : Obligations.CaptureEventsSetTheFlag := by
  intro s hc
  have taken (h : Half) (run : s.sys = .running) (hp : s.cap.pend h = true) :=
    exec_entryInstr (ch := .cap) hc run hp
  simp only [State.chan_cap, Channel.enter_eq] at taken
  exact ⟨rfl, rfl, taken .first, taken .second, exec_entryInstr_of_not_enabled (ch := .cap) (h := .first) hc,
    exec_entryInstr_of_not_enabled (ch := .cap) (h := .second) hc⟩

/-! ## The services (R133, R134, R135) -/

theorem enabled_serviceInstr (ch : Chan) (h : Half) (s : State) :
    enabled (serviceInstr ch h) s = (s.sys == .running && s.job == jobOf ch h) := by
  cases ch <;> cases h <;> rfl

theorem exec_serviceInstr_of_not_enabled {s : State} {ch : Chan} {h : Half} (hc : configLegal s.cfg = true)
    (hn : s.sys ≠ .running ∨ s.job ≠ jobOf ch h) :
    exec (serviceInstr ch h) s = .next { s with result := ⟨.notEnabled, 0#32⟩ } := by
  refine exec_of_not_enabled hc (by cases ch <;> cases h <;> rfl) ?_
  rw [enabled_serviceInstr]
  rcases hn with hs | hj
  · simp [hs]
  · simp [hj]

section CaptureService

variable {s : State}

theorem captureService_fifo (hc : configLegal s.cfg = true) (h : Half) :
    (captureService h s).fifo = (s.fifo.writeBlock s.cfg.fifoCap (serviceBatch h s)).2 := by
  rw [captureService_eq h s hc]

/-- The cursors after a capture service (R23). -/
theorem captureService_cursors (hc : configLegal s.cfg = true) (hcount : s.fifo.count.toNat ≤ s.cfg.fifoCap) (h : Half) :
    (captureService h s).fifo.wr.toNat =
        (s.fifo.wr.toNat + min s.cfg.capBatch (s.cfg.fifoCap - s.fifo.count.toNat)) % s.cfg.fifoCap ∧
      (captureService h s).fifo.rd = s.fifo.rd ∧
      (captureService h s).fifo.count.toNat =
        s.fifo.count.toNat + min s.cfg.capBatch (s.cfg.fifoCap - s.fifo.count.toNat) := by
  rw [captureService_fifo hc, ← serviceBatch_length hc h]
  exact ⟨Fifo.writeBlock_wr _ _ (legal_fifoCap hc), rfl, Fifo.writeBlock_count _ (legal_fifoCap hc) hcount⟩

/-- The samples that fit are the first of the batch, and go to the FIFO in order (R135). -/
theorem captureService_fifoAt_of_lt (hc : configLegal s.cfg = true) (h : Half) {k : Nat}
    (hk : k < min s.cfg.capBatch (s.cfg.fifoCap - s.fifo.count.toNat)) :
    (serviceBatch h s)[k]? = some ((captureService h s).fifoAt ((s.fifo.wr.toNat + k) % s.cfg.fifoCap)) := by
  rw [← serviceBatch_length hc h] at hk
  have hlisted := Fifo.writeBlock_lookup_of_lt (serviceBatch h s) k hk
  rw [← captureService_fifo hc] at hlisted
  rw [State.fifoAt_of_lookup hlisted, List.getElem?_eq_getElem]

theorem captureService_fifoAt_of_ne (hc : configLegal s.cfg = true) (h : Half) {j : Nat}
    (hj : ∀ k < min s.cfg.capBatch (s.cfg.fifoCap - s.fifo.count.toNat), (s.fifo.wr.toNat + k) % s.cfg.fifoCap ≠ j) :
    (captureService h s).fifoAt j = s.fifoAt j :=
  fifoAt_congr (by rw [captureService_eq h s hc]) (captureService_lookup_of_ne hc h j hj)

/-- With room for less than the batch, the rest is counted and reported (R34, R135, R203). -/
theorem captureService_of_overrun (hc : configLegal s.cfg = true) (h : Half) {w : Nat}
    (hw : w = min s.cfg.capBatch (s.cfg.fifoCap - s.fifo.count.toNat)) (hlt : w < s.cfg.capBatch) :
    (captureService h s).ovrEvents = satInc s.ovrEvents 1 ∧
      (captureService h s).ovrSamples = satInc s.ovrSamples (s.cfg.capBatch - w) ∧
      (captureService h s).result = ⟨.overrun, BitVec.ofNat 32 (s.cfg.capBatch - w)⟩ := by
  simp only [captureService_eq h s hc, ← hw, if_pos hlt, and_self]

/-- With room for the whole batch, nothing is counted. -/
theorem captureService_of_room (hc : configLegal s.cfg = true) (h : Half)
    (hroom : min s.cfg.capBatch (s.cfg.fifoCap - s.fifo.count.toNat) = s.cfg.capBatch) :
    (captureService h s).ovrEvents = s.ovrEvents ∧ (captureService h s).ovrSamples = s.ovrSamples ∧
      (captureService h s).result = ⟨.ok, BitVec.ofNat 32 s.cfg.capBatch⟩ := by
  simp only [captureService_eq h s hc, hroom, lt_irrefl, if_false, and_self]

end CaptureService

/-- Settles O24: the batch is the half through `Decimate` and `Hook`, and the effect is that of `F_write_block` on it. -/
theorem captureServicesPushTheBatch : Obligations.CaptureServicesPushTheBatch := by
  refine ⟨rfl, rfl, fun s h hc hcount => ⟨fun run hj => ?_, exec_serviceInstr_of_not_enabled hc⟩⟩
  obtain ⟨hwr, hrd, hcount'⟩ := captureService_cursors hc hcount h
  refine ⟨captureService h s, rawHalf h s, serviceBatch h s, _, rfl, ?_, ?_, rfl, serviceBatch_length hc h, rfl,
    exec_captureService hc run hj, hwr, hrd, hcount', fun k hk => captureService_fifoAt_of_lt hc h hk,
    fun j hj => captureService_fifoAt_of_ne hc h hj, fun hlt => ?_, fun hroom => captureService_of_room hc h hroom, ?_⟩
  · rw [captureService_eq h s hc]
  · rw [captureService_eq h s hc]
  · obtain ⟨hevents, hsamples, hresult⟩ := captureService_of_overrun hc h rfl hlt
    exact ⟨by rw [hevents, satInc_toNat], by rw [hsamples, satInc_toNat], hresult⟩
  · rw [captureService_eq h s hc]

end Sys2Proof.Machine

/-!
PROOFS. The statements of `42_playback.md`: the playback DMA step (R150), the entry points (R151, R152), the services (R153 to R156).
-/
namespace Sys2Proof.Machine

/-! ## The DMA step and the entry points (R150 to R152) -/

/-- Settles O25: the effect is one DMA step of the channel, and the slot it reads goes to the output. -/
theorem playbackDmaTransmitsAndRaises : Obligations.PlaybackDmaTransmitsAndRaises := by
  intro s hc
  have hH := legal_pbHalf hc
  refine ⟨rfl, fun run hpos => ?_, fun hs => exec_of_not_enabled hc rfl (by simp [enabled, hs])⟩
  refine ⟨playbackStep s, exec_of_enabled hc rfl (by simp [enabled, run]) (decide_eq_true hpos), rfl,
    Channel.dmaStep_pos_of_lt _ hpos, Channel.dmaStep_flag _ _ _, Channel.dmaStep_pend0 _ hH hpos,
    Channel.dmaStep_pend1 _ hH hpos, Channel.dmaStep_lost _ hH hpos, ?_, rfl⟩
  exact (Channel.dmaStep_race _ _ _).trans (congrArg _ (s.outstanding_halfOf .pb _ _))

/-- Settles O26: each entry point takes the event of its half. -/
theorem playbackEventsSetTheFlag : Obligations.PlaybackEventsSetTheFlag := by
  intro s hc
  have taken (h : Half) (run : s.sys = .running) (hp : s.pb.pend h = true) := exec_entryInstr (ch := .pb) hc run hp
  simp only [State.chan_pb, Channel.enter_eq] at taken
  exact ⟨rfl, rfl, taken .first, taken .second, exec_entryInstr_of_not_enabled (ch := .pb) (h := .first) hc,
    exec_entryInstr_of_not_enabled (ch := .pb) (h := .second) hc⟩

/-! ## The services (R153 to R156) -/

/-- A slot that is listed reads as what is listed for it (R66). -/
theorem State.pbAt_of_lookup {s : State} {i : Nat} {v : Slot} (h : s.pbBuf.lookup i = some v) : s.pbAt i = v := by
  simp only [State.pbAt, Memory.read, h, Option.getD_some]

theorem popInRange_of_lt {s : State} (hrd : s.fifo.rd.toNat < s.cfg.fifoCap) : popInRange s = true :=
  decide_eq_true (.inr hrd)

theorem popInRange_of_starved {s : State} (hn : s.fifo.count.toNat < s.cfg.pbBatch) : popInRange s = true :=
  decide_eq_true (.inl hn)

section Refill

variable {s : State} (hn : s.cfg.pbBatch ≤ s.fifo.count.toNat) (h : Half)
include hn

/-- With a whole batch queued, exactly a batch leaves the FIFO (R155). -/
theorem playbackService_cursors (hc : configLegal s.cfg = true) (hrd : s.fifo.rd.toNat < s.cfg.fifoCap) :
    (playbackService h s).fifo.rd.toNat = (s.fifo.rd.toNat + s.cfg.pbBatch) % s.cfg.fifoCap ∧
      (playbackService h s).fifo.wr = s.fifo.wr ∧
      (playbackService h s).fifo.count.toNat = s.fifo.count.toNat - s.cfg.pbBatch := by
  rw [playbackService_of_enough h hn]
  obtain ⟨-, hwr, hcount, hrd'⟩ := refill_fifo s.fifoFill (h.index * s.cfg.pbHalf) (legal_fifoCap hc) s.cfg.pbBatch 0 s.fifo
    s.pbBuf hn fun _ => hrd
  exact ⟨hrd' (legal_pbBatch hc).1, hwr, hcount⟩

/-- The k-th sample popped is in every slot of its group (R156). -/
theorem playbackService_pbAt_of_group (hc : configLegal s.cfg = true) (hrd : s.fifo.rd.toNat < s.cfg.fifoCap) {k o : Nat}
    (hk : k < s.cfg.pbBatch) (ho : o ∈ s.cfg.pbOffsets) :
    (playbackService h s).pbAt (h.index * s.cfg.pbHalf + k * s.cfg.pbStride + o) =
      s.fifoAt ((s.fifo.rd.toNat + k) % s.cfg.fifoCap) := by
  have hlisted := lookup_refill_of_group s.fifoFill (h.index * s.cfg.pbHalf) (legal_fifoCap hc) (legal_offset_lt hc)
    s.cfg.pbBatch 0 s.fifo s.pbBuf hn hrd k hk o ho
  rw [Nat.zero_add] at hlisted
  rw [playbackService_of_enough h hn]
  exact State.pbAt_of_lookup hlisted

/-- A slot of no group keeps its content (R156). -/
theorem playbackService_pbAt_of_ne {j : Nat}
    (hj : ∀ k < s.cfg.pbBatch, ∀ o ∈ s.cfg.pbOffsets, j ≠ h.index * s.cfg.pbHalf + k * s.cfg.pbStride + o) :
    (playbackService h s).pbAt j = s.pbAt j := by
  rw [playbackService_of_enough h hn]
  exact pbAt_congr rfl (lookup_refill_of_ne _ _ _ _ _ _ _ fun k hk o ho => by simpa only [Nat.zero_add] using hj k hk o ho)

end Refill

theorem playbackService_fifoAt {s : State} (hc : configLegal s.cfg = true) (hp : popInRange s = true) (h : Half) (j : Nat) :
    (playbackService h s).fifoAt j = s.fifoAt j :=
  fifoAt_congr (by rw [playbackService_eq_update]) (by rw [playbackService_fifo_mem hc hp h])

section Starved

variable {s : State} (hn : s.fifo.count.toNat < s.cfg.pbBatch) (h : Half)
include hn

/-- Under `repeat_last` a starved half is left as it was (R8). -/
theorem playbackService_of_repeatLast (hu : s.cfg.onUnderrun = .repeatLast) : (playbackService h s).pbBuf = s.pbBuf := by
  simp only [playbackService_of_starved h hn, hu]

/-- Under `silence` a starved half is zeroed whole, and no other slot is written (R8). -/
theorem playbackService_of_silence (hu : s.cfg.onUnderrun = .silence) (j : Nat) :
    (playbackService h s).pbAt j =
      if h.index * s.cfg.pbHalf ≤ j ∧ j < (h.index + 1) * s.cfg.pbHalf then 0#16 else s.pbAt j := by
  have hlookup : (playbackService h s).pbBuf.lookup j =
      if h.index * s.cfg.pbHalf ≤ j ∧ j < (h.index + 1) * s.cfg.pbHalf then some 0#16 else s.pbBuf.lookup j := by
    simp only [playbackService_of_starved h hn, hu, lookup_silenceSlots, Nat.succ_mul]
  split_ifs at hlookup ⊢ with hj
  · exact State.pbAt_of_lookup hlookup
  · exact pbAt_congr (by rw [playbackService_of_starved h hn]) hlookup

end Starved

/-- Settles O27: a whole batch refills the half, anything less is an underrun. -/
theorem playbackServicesRefillOrReportUnderrun : Obligations.PlaybackServicesRefillOrReportUnderrun := by
  refine ⟨rfl, rfl, fun s h hc => ⟨fun run hj hn hrd => ?_, fun run hj hn => ?_, exec_serviceInstr_of_not_enabled hc⟩⟩
  · have hp := popInRange_of_lt hrd
    obtain ⟨hrd', hwr, hcount⟩ := playbackService_cursors hn h hc hrd
    refine ⟨playbackService h s, exec_playbackService hc run hj hp, hrd', hwr, hcount, playbackService_fifoAt hc hp h,
      fun k hk o ho => playbackService_pbAt_of_group hn h hc hrd hk ho, fun j hj => playbackService_pbAt_of_ne hn h hj, ?_⟩
    rw [playbackService_of_enough h hn]
  · refine ⟨playbackService h s, exec_playbackService hc run hj (popInRange_of_starved hn), ?_,
      playbackService_of_repeatLast hn h, playbackService_of_silence hn h, ?_⟩
    · rw [playbackService_of_starved h hn, satInc_toNat]
    · rw [playbackService_of_starved h hn]

end Sys2Proof.Machine

/-!
PROOFS. The statements of `43_scheduler.md`: the polls (R170, R171), the scheduler's one operation (R172), an iteration of the polling
loop (R173, R98), and the two sides that meet only in the FIFO (R175). What holds of either channel is said of either.
-/
namespace Sys2Proof.Machine

/-! ## The scheduler's operations (R92, R172) -/

/-- The phase in which a channel is polled (R33). -/
def phaseOf : Chan → SchedPhase
  | .cap => .phCap
  | .pb => .phPb

/-- The channel that is not this one. -/
def Chan.other : Chan → Chan
  | .cap => .pb
  | .pb => .cap

theorem Chan.other_other (ch : Chan) : ch.other.other = ch := by cases ch <;> rfl

theorem Chan.eq_other_of_ne {c ch : Chan} (h : c ≠ ch) : c = ch.other := by
  cases ch with
  | cap =>
    cases c with
    | cap => exact absurd rfl h
    | pb => rfl
  | pb =>
    cases c with
    | cap => rfl
    | pb => exact absurd rfl h

theorem SchedJob.eq_none_or_jobOf (j : SchedJob) : j = .none ∨ ∃ ch h, j = jobOf ch h := by
  cases j with
  | none => exact .inl rfl
  | cap0 => exact .inr ⟨.cap, .first, rfl⟩
  | cap1 => exact .inr ⟨.cap, .second, rfl⟩
  | pb0 => exact .inr ⟨.pb, .first, rfl⟩
  | pb1 => exact .inr ⟨.pb, .second, rfl⟩

theorem TransferState.eq_idle_or_ready (v : TransferState) : v = .idle ∨ ∃ h, v = ready h := by
  cases v with
  | idle => exact .inl rfl
  | firstHalfReady => exact .inr ⟨.first, rfl⟩
  | secondHalfReady => exact .inr ⟨.second, rfl⟩

theorem jobSeen_ready (ch : Chan) (h : Half) : jobSeen ch (ready h) = jobOf ch h := (jobSeen_eq_jobOf_iff ch _ h).2 rfl

theorem serviceOf_jobOf (ch : Chan) (h : Half) : serviceOf (jobOf ch h) = some (serviceInstr ch h) := by
  cases ch <;> cases h <;> rfl

theorem schedulerOp_jobOf (ch : Chan) (h : Half) (ph : SchedPhase) : schedulerOp (jobOf ch h) ph = serviceInstr ch h := by
  rw [schedulerOp, serviceOf_jobOf, Option.getD_some]

theorem schedulerOp_none (ph : SchedPhase) : schedulerOp .none ph = pollOf ph := rfl

theorem agentOf_serviceInstr (ch : Chan) (h : Half) : agentOf (serviceInstr ch h) = .scheduler := by
  cases ch <;> cases h <;> rfl

theorem agentOf_pollOf (ph : SchedPhase) : agentOf (pollOf ph) = .scheduler := by cases ph <;> rfl

theorem enabled_pollOf (ph : SchedPhase) (s : State) :
    enabled (pollOf ph) s = (s.sys == .running && s.job == .none && s.phase == ph) := by cases ph <;> rfl

/-- The scheduler's operations are the services and the polls. -/
theorem eq_service_or_poll_of_scheduler {i : Instr} (hi : agentOf i = .scheduler) :
    (∃ ch h, i = serviceInstr ch h) ∨ ∃ ph, i = pollOf ph := by
  cases i with
  | svcCap0 => exact .inl ⟨.cap, .first, rfl⟩
  | svcCap1 => exact .inl ⟨.cap, .second, rfl⟩
  | svcPb0 => exact .inl ⟨.pb, .first, rfl⟩
  | svcPb1 => exact .inl ⟨.pb, .second, rfl⟩
  | pollCap => exact .inr ⟨.phCap, rfl⟩
  | pollPb => exact .inr ⟨.phPb, rfl⟩
  | _ => nomatch hi

/-- Settles O30: a service is enabled by its job, a poll by its phase when there is no job, and the job and the phase are one each. -/
theorem schedulerHasOneOperation : Obligations.SchedulerHasOneOperation := by
  refine fun s run => ⟨fun i => ⟨fun ⟨hi, he⟩ => ?_, ?_⟩, rfl, rfl, rfl, rfl, rfl, rfl⟩
  · obtain ⟨ch, h, rfl⟩ | ⟨ph, rfl⟩ := eq_service_or_poll_of_scheduler hi
    · have hj : s.job = jobOf ch h := by simpa [enabled_serviceInstr, run] using he
      rw [hj, schedulerOp_jobOf]
    · obtain ⟨hj, hp⟩ : s.job = .none ∧ s.phase = ph := by simpa [enabled_pollOf, run] using he
      rw [hj, hp, schedulerOp_none]
  · rintro rfl
    obtain hj | ⟨ch, h, hj⟩ := s.job.eq_none_or_jobOf
    · rw [hj, schedulerOp_none]
      exact ⟨agentOf_pollOf _, by simp [enabled_pollOf, run, hj]⟩
    · rw [hj, schedulerOp_jobOf]
      exact ⟨agentOf_serviceInstr ch h, by simp [enabled_serviceInstr, run, hj]⟩

/-! ## The polls (R170, R171) -/

/-- The effect of a poll, as one update: the flag of its channel is cleared and what it said is the job. -/
theorem effectOf_pollOf (ch : Chan) (s : State) :
    effectOf (pollOf (phaseOf ch)) s = { s.setChan ch (s.chan ch).clearFlag with
      job := jobSeen ch (s.chan ch).flag
      phase := phaseOf ch.other
      result := ⟨.ok, BitVec.ofNat 32 (encFlag (s.chan ch).flag)⟩ } := by
  cases ch <;> rfl

section Poll

variable {s : State} {ch : Chan} (hc : configLegal s.cfg = true)
include hc

theorem exec_pollOf (run : s.sys = .running) (hj : s.job = .none) (hp : s.phase = phaseOf ch) :
    exec (pollOf (phaseOf ch)) s = .next (effectOf (pollOf (phaseOf ch)) s) := by
  refine exec_of_enabled hc ?_ (by simp [enabled_pollOf, run, hj, hp]) ?_ <;> cases ch <;> rfl

theorem exec_pollOf_of_not_enabled (hn : s.sys ≠ .running ∨ s.job ≠ .none ∨ s.phase ≠ phaseOf ch) :
    exec (pollOf (phaseOf ch)) s = .next { s with result := ⟨.notEnabled, 0#32⟩ } := by
  refine exec_of_not_enabled hc (by cases ch <;> rfl) ?_
  rw [enabled_pollOf]
  rcases hn with hs | hj | hp
  · simp [hs]
  · simp [hj]
  · simp [hp]

end Poll

/-- Settles O28: the job and the value returned are read off the flag, case by case. -/
theorem capturePollTakesTheFlag : Obligations.CapturePollTakesTheFlag := by
  refine fun s hc => ⟨rfl, fun run hj hp => ?_, exec_pollOf_of_not_enabled (ch := .cap) hc⟩
  refine (exec_pollOf (ch := .cap) hc run hj hp).trans ?_
  rw [effectOf_pollOf, State.chan_cap]
  cases s.cap.flag <;> rfl

/-- Settles O29: the same cases, of the playback flag. -/
theorem playbackPollTakesTheFlag : Obligations.PlaybackPollTakesTheFlag := by
  refine fun s hc => ⟨rfl, fun run hj hp => ?_, exec_pollOf_of_not_enabled (ch := .pb) hc⟩
  refine (exec_pollOf (ch := .pb) hc run hj hp).trans ?_
  rw [effectOf_pollOf, State.chan_pb]
  cases s.pb.flag <;> rfl

/-! ## An iteration of the polling loop (R173, R98) -/

theorem runItems_op {i : Instr} {s t : State} (h : exec i s = .next t) (rest : List PseudoItem) :
    runItems (.op i :: rest) s = runItems rest t := by
  simp only [runItems, PseudoItem.instr, h]

/-- `SVC` with no job in hand stands for no operation. -/
theorem runItems_svc_of_none {s : State} (hj : s.job = .none) (rest : List PseudoItem) :
    runItems (.svc :: rest) s = runItems rest s := by
  simp only [runItems, PseudoItem.instr, hj, serviceOf]

theorem runItems_svc_of_job {s t : State} {ch : Chan} {h : Half} (hj : s.job = jobOf ch h)
    (hserve : exec (serviceInstr ch h) s = .next t) (rest : List PseudoItem) :
    runItems (.svc :: rest) s = runItems rest t := by
  simp only [runItems, PseudoItem.instr, hj, serviceOf_jobOf, hserve]

/-- What belongs to one channel alone beside its flag and its engine: the collaborators, the write cursor and the overrun counters
to capture, the buffer, the read cursor and the underrun counter to playback. -/
def SideKept : Chan → State → State → Prop
  | .cap, s, t => t.filt = s.filt ∧ t.hook = s.hook ∧ t.fifo.wr = s.fifo.wr ∧ t.ovrEvents = s.ovrEvents ∧
      t.ovrSamples = s.ovrSamples
  | .pb, s, t => t.pbBuf = s.pbBuf ∧ t.fifo.rd = s.fifo.rd ∧ t.undEvents = s.undEvents

theorem SideKept.trans {ch : Chan} {s u t : State} (hsu : SideKept ch s u) (hut : SideKept ch u t) : SideKept ch s t := by
  cases ch with
  | cap =>
    obtain ⟨filt, hook, wr, events, samples⟩ := hsu
    obtain ⟨filt', hook', wr', events', samples'⟩ := hut
    exact ⟨filt'.trans filt, hook'.trans hook, wr'.trans wr, events'.trans events, samples'.trans samples⟩
  | pb =>
    obtain ⟨buf, rd, events⟩ := hsu
    obtain ⟨buf', rd', events'⟩ := hut
    exact ⟨buf'.trans buf, rd'.trans rd, events'.trans events⟩

/-- A playback service takes samples off the FIFO and stores none. -/
theorem playbackService_wr {s : State} (hs : BlockInv s) (h : Half) : (playbackService h s).fifo.wr = s.fifo.wr := by
  rcases Nat.lt_or_ge s.fifo.count.toNat s.cfg.pbBatch with hstarved | henough
  · rw [playbackService_of_starved h hstarved]
  · exact (playbackService_cursors henough h hs.legal hs.rdInside).2.1

/-- The part of the state a service leaves alone: all that is the other channel's, its own flag, and what the engines own. -/
structure ServiceKeeps (ch : Chan) (s t : State) : Prop where
  sys : t.sys = s.sys
  job : t.job = .none
  phase : t.phase = s.phase
  chan : ∀ c, t.chan c = s.chan c
  capBuf : t.capBuf = s.capBuf
  txTrace : t.txTrace = s.txTrace
  side : SideKept ch.other s t

theorem effectOf_serviceInstr_keeps {s : State} (hs : BlockInv s) (ch : Chan) (h : Half) :
    ServiceKeeps ch s (effectOf (serviceInstr ch h) s) := by
  cases ch with
  | cap =>
    have served : effectOf (serviceInstr .cap h) s = captureService h s := by cases h <;> rfl
    rw [served, captureService_eq h s hs.legal]
    exact ⟨rfl, rfl, rfl, fun c => by cases c <;> rfl, rfl, rfl, rfl, rfl, rfl⟩
  | pb =>
    have served : effectOf (serviceInstr .pb h) s = playbackService h s := by cases h <;> rfl
    have hwr := playbackService_wr hs h
    rw [served]
    rw [playbackService_eq_update] at hwr ⊢
    exact ⟨rfl, rfl, rfl, fun c => by cases c <;> rfl, rfl, rfl, rfl, rfl, hwr, rfl, rfl⟩

/-- The part of the state a poll leaves alone: all but the flag it clears, the job, the phase and the result. -/
structure PollKeeps (ch : Chan) (s t : State) : Prop where
  sys : t.sys = s.sys
  job : t.job = jobSeen ch (s.chan ch).flag
  phase : t.phase = phaseOf ch.other
  own : t.chan ch = (s.chan ch).clearFlag
  other : t.chan ch.other = s.chan ch.other
  capBuf : t.capBuf = s.capBuf
  txTrace : t.txTrace = s.txTrace
  side : ∀ c, SideKept c s t

theorem effectOf_pollOf_keeps (ch : Chan) (s : State) : PollKeeps ch s (effectOf (pollOf (phaseOf ch)) s) := by
  have side (c : Chan) : SideKept c s (effectOf (pollOf (phaseOf ch)) s) := by
    cases c with
    | cap => cases ch <;> exact ⟨rfl, rfl, rfl, rfl, rfl⟩
    | pb => cases ch <;> exact ⟨rfl, rfl, rfl⟩
  cases ch <;> exact ⟨rfl, rfl, rfl, rfl, rfl, rfl, rfl, side⟩

theorem effectOf_pollOf_blockInv {s : State} (hs : BlockInv s) (run : s.sys = .running) (ph : SchedPhase) :
    BlockInv (effectOf (pollOf ph) s) := by
  cases ph with
  | phCap => exact pollCapture_blockInv hs run
  | phPb => exact pollPlayback_blockInv hs run

/-- What a channel's turn in the iteration leaves: its flag `Idle`, no job, the other channel to be polled next; what the engines
own and the other channel as they were, and its own side too when its flag was `Idle`. -/
structure TurnLeaves (ch : Chan) (s u : State) : Prop where
  inv : BlockInv u
  sys : u.sys = s.sys
  job : u.job = .none
  phase : u.phase = phaseOf ch.other
  own : u.chan ch = (s.chan ch).clearFlag
  other : u.chan ch.other = s.chan ch.other
  capBuf : u.capBuf = s.capBuf
  txTrace : u.txTrace = s.txTrace
  otherSide : SideKept ch.other s u
  ownSide : (s.chan ch).flag = .idle → SideKept ch s u

/-- A poll that finds its flag `Idle` is a whole turn. -/
theorem PollKeeps.turn_of_idle {ch : Chan} {s p : State} (hpoll : PollKeeps ch s p) (inv : BlockInv p)
    (hidle : (s.chan ch).flag = .idle) : TurnLeaves ch s p where
  inv
  sys := hpoll.sys
  job := by rw [hpoll.job, hidle, jobSeen]
  phase := hpoll.phase
  own := hpoll.own
  other := hpoll.other
  capBuf := hpoll.capBuf
  txTrace := hpoll.txTrace
  otherSide := hpoll.side _
  ownSide _ := hpoll.side _

/-- A poll that finds its flag set and the service it selects make a turn. -/
theorem PollKeeps.turn_of_service {ch : Chan} {s p u : State} (hpoll : PollKeeps ch s p) (hserve : ServiceKeeps ch p u)
    (inv : BlockInv u) (hset : (s.chan ch).flag ≠ .idle) : TurnLeaves ch s u where
  inv
  sys := hserve.sys.trans hpoll.sys
  job := hserve.job
  phase := hserve.phase.trans hpoll.phase
  own := (hserve.chan _).trans hpoll.own
  other := (hserve.chan _).trans hpoll.other
  capBuf := hserve.capBuf.trans hpoll.capBuf
  txTrace := hserve.txTrace.trans hpoll.txTrace
  otherSide := (hpoll.side _).trans hserve.side
  ownSide hidle := absurd hidle hset

theorem effectOf_serviceInstr_blockInv {s : State} (hs : BlockInv s) (run : s.sys = .running) (ch : Chan) (h : Half) :
    BlockInv (effectOf (serviceInstr ch h) s) := by
  cases ch with
  | cap => cases h <;> exact captureService_blockInv hs run _
  | pb => cases h <;> exact playbackService_blockInv hs run _

/-- A service whose job is in hand has its effect, on either channel. -/
theorem BlockInv.exec_serviceInstr {s : State} (hs : BlockInv s) (run : s.sys = .running) {ch : Chan} {h : Half}
    (hj : s.job = jobOf ch h) : exec (serviceInstr ch h) s = .next (effectOf (serviceInstr ch h) s) :=
  exec_of_enabled hs.legal (by cases ch <;> cases h <;> rfl) (by simp [enabled_serviceInstr, run, hj]) (hs.indicesInside _)

/-- How a channel's turn runs when its flag holds `v`: the poll alone, or the poll and the service of the half `v` names. -/
structure TurnRuns (ch : Chan) (v : TransferState) (s u : State) : Prop where
  items : ∀ rest, runItems (.op (pollOf (phaseOf ch)) :: .svc :: rest) s = runItems rest u
  ofIdle : v = .idle → exec (pollOf (phaseOf ch)) s = .next u
  ofReady : ∀ h, v = ready h → ∃ p, exec (pollOf (phaseOf ch)) s = .next p ∧ exec (serviceInstr ch h) p = .next u

/-- A channel's turn completes: what the poll finds decides whether there is a service to run. -/
theorem turn_completes {s : State} (hs : BlockInv s) (run : s.sys = .running) {ch : Chan} (hj : s.job = .none)
    (hp : s.phase = phaseOf ch) : ∃ u, TurnRuns ch (s.chan ch).flag s u ∧ TurnLeaves ch s u := by
  have polled := exec_pollOf hs.legal run hj hp
  have kept := effectOf_pollOf_keeps ch s
  have inv := effectOf_pollOf_blockInv hs run (phaseOf ch)
  generalize effectOf (pollOf (phaseOf ch)) s = p at polled kept inv
  obtain hidle | ⟨h, hset⟩ := (s.chan ch).flag.eq_idle_or_ready
  · have leaves := kept.turn_of_idle inv hidle
    exact ⟨p, ⟨fun rest => (runItems_op polled _).trans (runItems_svc_of_none leaves.job rest), fun _ => polled,
      fun h' e => absurd (e.symm.trans hidle) (ready_ne_idle h')⟩, leaves⟩
  · have hjob : p.job = jobOf ch h := by rw [kept.job, hset, jobSeen_ready]
    have running : p.sys = .running := kept.sys.trans run
    have served := inv.exec_serviceInstr running hjob
    refine ⟨effectOf (serviceInstr ch h) p, ⟨fun rest => (runItems_op polled _).trans (runItems_svc_of_job hjob served rest),
      fun e => absurd (hset.symm.trans e) (ready_ne_idle h), fun h' e => ?_⟩,
      kept.turn_of_service (effectOf_serviceInstr_keeps inv ch h) (effectOf_serviceInstr_blockInv inv running ch h)
        (hset ▸ ready_ne_idle h)⟩
    obtain rfl := ready_injective (hset.symm.trans e)
    exact ⟨p, polled, served⟩

/-- What an iteration that polls `ch` first leaves, said of either channel. -/
structure IterationLeaves (ch : Chan) (s t : State) : Prop where
  sys : t.sys = s.sys
  job : t.job = .none
  phase : t.phase = phaseOf ch
  chan : ∀ c, t.chan c = (s.chan c).clearFlag
  capBuf : t.capBuf = s.capBuf
  txTrace : t.txTrace = s.txTrace
  side : ∀ c, (s.chan c).flag = .idle → SideKept c s t

/-- The turns of the two channels, one after the other, touch each channel once. -/
theorem TurnLeaves.iteration {ch : Chan} {s u t : State} (first : TurnLeaves ch s u) (second : TurnLeaves ch.other u t) :
    IterationLeaves ch s t where
  sys := second.sys.trans first.sys
  job := second.job
  phase := by rw [second.phase, Chan.other_other]
  chan c := by
    rcases eq_or_ne c ch with rfl | hne
    · have kept := second.other
      rw [Chan.other_other] at kept
      rw [kept, first.own]
    · rw [Chan.eq_other_of_ne hne, second.own, first.other]
  capBuf := second.capBuf.trans first.capBuf
  txTrace := second.txTrace.trans first.txTrace
  side c hidle := by
    rcases eq_or_ne c ch with rfl | hne
    · have kept := second.otherSide
      rw [Chan.other_other] at kept
      exact (first.ownSide hidle).trans kept
    · rw [Chan.eq_other_of_ne hne] at hidle ⊢
      exact first.otherSide.trans (second.ownSide (first.other ▸ hidle))

/-- An iteration completes in either order, each channel's turn decided by the flag the iteration began with. -/
theorem iteration_completes {s : State} (hs : BlockInv s) (run : s.sys = .running) {ch : Chan} (hj : s.job = .none)
    (hp : s.phase = phaseOf ch) :
    ∃ u t, TurnRuns ch (s.chan ch).flag s u ∧ TurnRuns ch.other (s.chan ch.other).flag u t ∧ IterationLeaves ch s t := by
  obtain ⟨u, runsFirst, first⟩ := turn_completes hs run hj hp
  obtain ⟨t, runsSecond, second⟩ := turn_completes first.inv (first.sys.trans run) first.job first.phase
  exact ⟨u, t, runsFirst, first.other ▸ runsSecond, first.iteration second⟩

/-- Settles O31: the capture turn, then the playback turn. -/
theorem iterationServesEverySetFlag : Obligations.IterationServesEverySetFlag := by
  intro s hs run hj hp
  obtain ⟨u, t, first, second, leaves⟩ := iteration_completes (ch := .cap) hs run hj hp
  exact ⟨u, t, (first.items _).trans (second.items []), first.ofIdle, first.ofReady, second.ofIdle, second.ofReady,
    leaves.sys.trans run, leaves.job, leaves.phase, leaves.chan .cap, leaves.chan .pb, leaves.capBuf, leaves.txTrace,
    leaves.side .cap, leaves.side .pb⟩

/-- Settles O50: the playback turn, then the capture turn. -/
theorem playbackFirstIterationServesEverySetFlag : Obligations.PlaybackFirstIterationServesEverySetFlag := by
  intro s hs run hj hp
  obtain ⟨u, t, first, second, leaves⟩ := iteration_completes (ch := .pb) hs run hj hp
  exact ⟨u, t, (first.items _).trans (second.items []), first.ofIdle, first.ofReady, second.ofIdle, second.ofReady,
    leaves.sys.trans run, leaves.job, leaves.phase, leaves.chan .cap, leaves.chan .pb, leaves.capBuf, leaves.txTrace,
    leaves.side .cap, leaves.side .pb⟩

/-! ## The two sides (R175) -/

/-- A state with all that is playback's alone replaced. -/
def State.withPlayback (s : State) (p : Channel) (m : Memory) (tr : List Slot) (u : Word32) : State :=
  { s with pb := p, pbBuf := m, txTrace := tr, undEvents := u }

/-- A state with all that is capture's alone replaced. -/
def State.withCapture (s : State) (p : Channel) (m : Memory) (f k : CollabState) (u v : Word32) : State :=
  { s with cap := p, capBuf := m, filt := f, hook := k, ovrEvents := u, ovrSamples := v }

/-- Operation `i` does not read what `f` replaces to decide how it is answered, and its effect neither reads it nor writes it. -/
structure Untouched (f : State → State) (i : Instr) (s : State) : Prop where
  enabled_eq : enabled i (f s) = enabled i s
  indices_eq : indicesInside i (f s) = indicesInside i s
  effect_comm : effectOf i (f s) = f (effectOf i s)

/-- Where the effect leaves a part of the state untouched, so does the whole operation, its answers by code included. -/
theorem Untouched.exec_comm {f : State → State} {i : Instr} {s t : State} (hu : Untouched f i s) (hcfg : (f s).cfg = s.cfg)
    (hrespond : ∀ code val, (f s).respond code val = f (s.respond code val)) (h : exec i s = .next t) :
    exec i (f s) = .next (f t) := by
  rw [exec_eq_issue, hcfg, hu.enabled_eq, hu.indices_eq, hu.effect_comm]
  obtain ⟨hc, ⟨hl, rfl⟩ | ⟨hl, he, rfl⟩ | ⟨hl, he, hr, rfl⟩⟩ := exec_cases h
  · rw [issue_of_illegal (hcfg ▸ hc) hl, hrespond]
  · rw [issue_of_not_enabled (hcfg ▸ hc) hl he, hrespond]
  · rw [issue_of_enabled (hcfg ▸ hc) hl he hr]

theorem captureService_withPlayback {s : State} (hc : configLegal s.cfg = true) (h : Half) (p : Channel) (m : Memory)
    (tr : List Slot) (u : Word32) :
    captureService h (s.withPlayback p m tr u) = (captureService h s).withPlayback p m tr u := by
  rw [captureService_eq h s hc, captureService_eq h (s.withPlayback p m tr u) hc]
  rfl

theorem playbackService_withCapture (h : Half) (s : State) (p : Channel) (m : Memory) (f k : CollabState) (u v : Word32) :
    playbackService h (s.withCapture p m f k u v) = (playbackService h s).withCapture p m f k u v := by
  rcases Nat.lt_or_ge s.fifo.count.toNat s.cfg.pbBatch with hstarved | henough
  · rw [playbackService_of_starved h hstarved, playbackService_of_starved (s := s.withCapture p m f k u v) h hstarved]
    rfl
  · rw [playbackService_of_enough h henough, playbackService_of_enough (s := s.withCapture p m f k u v) h henough]
    rfl

/-- Of the operations of the capture side the services alone need an argument: the others read and write named parts (R137). -/
theorem capture_leaves_playback_untouched {i : Instr} {s : State} (hc : configLegal s.cfg = true)
    (hi : (∃ w, i = .capDma w) ∨ i = .evCapHalf ∨ i = .evCapFull ∨ i = .svcCap0 ∨ i = .svcCap1 ∨ i = .pollCap)
    (p : Channel) (m : Memory) (tr : List Slot) (u : Word32) : Untouched (·.withPlayback p m tr u) i s := by
  rcases hi with ⟨w, rfl⟩ | rfl | rfl | rfl | rfl | rfl
  · exact ⟨rfl, rfl, rfl⟩
  · exact ⟨rfl, rfl, rfl⟩
  · exact ⟨rfl, rfl, rfl⟩
  · exact ⟨rfl, rfl, captureService_withPlayback hc .first p m tr u⟩
  · exact ⟨rfl, rfl, captureService_withPlayback hc .second p m tr u⟩
  · exact ⟨rfl, rfl, rfl⟩

/-- Likewise of the playback side (R157). -/
theorem playback_leaves_capture_untouched {i : Instr} (s : State)
    (hi : i = .pbDma ∨ i = .evPbHalf ∨ i = .evPbFull ∨ i = .svcPb0 ∨ i = .svcPb1 ∨ i = .pollPb)
    (p : Channel) (m : Memory) (f k : CollabState) (u v : Word32) : Untouched (·.withCapture p m f k u v) i s := by
  rcases hi with rfl | rfl | rfl | rfl | rfl | rfl
  · exact ⟨rfl, rfl, rfl⟩
  · exact ⟨rfl, rfl, rfl⟩
  · exact ⟨rfl, rfl, rfl⟩
  · exact ⟨rfl, rfl, playbackService_withCapture .first s p m f k u v⟩
  · exact ⟨rfl, rfl, playbackService_withCapture .second s p m f k u v⟩
  · exact ⟨rfl, rfl, rfl⟩

/-- Settles O48: each side's operations leave the other side's part of the state untouched. -/
theorem channelsMeetOnlyInTheFifo : Obligations.ChannelsMeetOnlyInTheFifo := by
  refine ⟨fun s t i p m tr u hi h => ?_, fun s t i p m f k u v hi h => ?_⟩
  · exact (capture_leaves_playback_untouched (exec_cases h).1 hi p m tr u).exec_comm rfl (fun _ _ => rfl) h
  · exact (playback_leaves_capture_untouched s hi p m f k u v).exec_comm rfl (fun _ _ => rfl) h

end Sys2Proof.Machine

/-!
PROOFS. The statements of `44_system.md`: reset leaves the table of R46 (R185), `SYS.START` runs the block or halts it (R186),
`SYS.RDSTAT` reads a register (R187), `Halted` is left by reset alone (R188), and the first slots sent are those the buffer held at
power-up (R186, R243).
-/
namespace Sys2Proof.Machine

/-! ## The start-up transient (R186, R243) -/

/-- Of the effects but reset's, a playback service alone writes `pb_buf` (R75), and none begins a new epoch of the memories. -/
theorem effectOf_epoch_pbBuf {i : Instr} {s : State} (hc : configLegal s.cfg = true) (hreset : i ≠ .sysReset) :
    (effectOf i s).epoch = s.epoch ∧ ((∀ h, i ≠ serviceInstr .pb h) → (effectOf i s).pbBuf = s.pbBuf) := by
  have hservice (h : Half) : (playbackService h s).epoch = s.epoch := by rw [playbackService_eq_update]
  cases i with
  | sysReset => exact absurd rfl hreset
  | sysStart ok => obtain ⟨_, _, _, e⟩ := startBlock_frame ok s; simp [effectOf, e]
  | fifoWrite v => obtain ⟨_, _, _, e⟩ := writeSample_frame v s; simp [effectOf, e]
  | fifoRead => obtain ⟨_, _, _, e⟩ := readSample_frame s; simp [effectOf, e]
  | svcCap0 => simp [effectOf, captureService_eq .first s hc]
  | svcCap1 => simp [effectOf, captureService_eq .second s hc]
  | svcPb0 => exact ⟨hservice .first, fun hne => absurd rfl (hne .first)⟩
  | svcPb1 => exact ⟨hservice .second, fun hne => absurd rfl (hne .second)⟩
  | _ => exact ⟨rfl, fun _ => rfl⟩

/-- A playback service is enabled only for a half that is outstanding (R47, R95). -/
theorem outstanding_of_enabled_service {s : State} {ch : Chan} {h : Half} (he : enabled (serviceInstr ch h) s = true) :
    s.outstanding ch h = true := by
  rw [enabled_serviceInstr, Bool.and_eq_true_iff] at he
  exact (outstanding_iff h s ch).2 (.inr (.inr (eq_of_beq he.2)))

/-- A slot nothing has written holds `PB_BUF_INIT` (R66). -/
theorem State.pbAt_of_unwritten {s : State} (h : s.pbBuf = .unwritten) (j : Nat) : s.pbAt j = Config.freePbBuf s.epoch j := by
  rw [State.pbAt, h, Memory.read_unwritten, State.pbFill]

/-- While fewer than Hp slots have been sent the engine sends the unwritten slot whose number is the count of slots sent, and
hands no half over before it has sent Hp. -/
theorem playbackStep_startupTransient {s : State} (hs : BlockInv s) (h : StartupTransient s) :
    StartupTransient (playbackStep s) := by
  intro hepoch
  obtain ⟨sent, early⟩ := h hepoch
  have trace : (playbackStep s).txTrace = s.txTrace ++ [s.pbAt s.pb.pos] := rfl
  have cfg : (playbackStep s).cfg = s.cfg := rfl
  rw [trace, cfg, List.length_append, List.length_singleton]
  refine ⟨fun j hj => ?_, fun hlt => ?_⟩
  · rcases Nat.lt_succ_iff_lt_or_eq.1 (lt_min_iff.1 hj).1 with hbefore | rfl
    · rw [List.getElem?_append_left hbefore]
      exact sent j (lt_min hbefore (lt_min_iff.1 hj).2)
    · obtain ⟨hpos, hbuf, -⟩ := early (lt_min_iff.1 hj).2
      rw [List.getElem?_concat_length, hpos, State.pbAt_of_unwritten hbuf, show s.epoch = 0 from hepoch]
  · obtain ⟨hpos, hbuf, hnone⟩ := early (Nat.lt_of_succ_lt hlt)
    have move : EngineMove s (playbackStep s) .pb := effectOf_engineMove (i := .pbDma) s rfl
    refine ⟨?_, hbuf, fun hf => ?_⟩
    · rw [← State.chan_pb, move.1, Channel.dmaStep_pos, State.chan_pb, hpos, State.halfSize]
      exact Nat.mod_eq_of_lt (by omega)
    · by_contra ho
      rcases move.outstanding_cases (legal_pbHalf hs.legal) hs.pbPosInside (Bool.eq_true_of_not_eq_false ho) with hold | hend
      · exact absurd (hold.symm.trans (hnone hf)) (by decide)
      · rw [State.chan_pb, hpos, State.halfSize, Nat.add_one_mul] at hend
        omega

/-- Reset begins another epoch; what is neither reset nor the engine sends nothing, and hands no half over to a service that
could write a slot. -/
theorem effectOf_startupTransient {i : Instr} {s : State} (hs : BlockInv s) (he : enabled i s = true) (h : StartupTransient s) :
    StartupTransient (effectOf i s) := by
  by_cases hreset : i = .sysReset
  · subst hreset
    exact fun hepoch => absurd hepoch (Nat.succ_ne_zero s.epoch)
  by_cases hengine : i = .pbDma
  · subst hengine
    exact playbackStep_startupTransient hs h
  have move : EventMove s (effectOf i s) .pb :=
    effectOf_eventMove hs.legal he .pb hreset fun hagent => hengine (eq_pbDma_of_agent hagent)
  have hpos : (effectOf i s).pb.pos = s.pb.pos := move.pos_eq
  obtain ⟨hepoch, hbuf⟩ := effectOf_epoch_pbBuf hs.legal hreset
  rw [StartupTransient, hepoch, effectOf_txTrace hs.legal, if_neg hengine, effectOf_cfg hs.legal, hpos]
  refine fun hfirst => (h hfirst).imp_right fun early hlt => ?_
  obtain ⟨hat, hunwritten, hnone⟩ := early hlt
  refine ⟨hat, (hbuf fun hf e => ?_).trans hunwritten, fun hf => ?_⟩
  · subst e
    exact absurd ((outstanding_of_enabled_service he).symm.trans (hnone hf)) (by decide)
  · by_contra ho
    exact absurd ((move.outstanding_of (Bool.eq_true_of_not_eq_false ho)).symm.trans (hnone hf)) (by decide)

@[simp] theorem State.takeCommand_outstanding (s : State) (ch : Chan) (h : Half) :
    s.takeCommand.outstanding ch h = s.outstanding ch h := by
  unfold State.takeCommand; split <;> cases ch <;> rfl

/-- Settles O39: under the invariant of the block every effect keeps the start-up transient. -/
theorem firstSlotsSentAreTheInitialBuffer : Obligations.FirstSlotsSentAreTheInitialBuffer := by
  intro s t hs h hstep
  exact hs.step_induction (fun u hu => by simpa [StartupTransient] using hu) (fun _ _ _ hu => hu)
    (fun _ _ hinv he hu => effectOf_startupTransient hinv he hu) h hstep

/-! ## Halted (R188) -/

/-- In `Halted` nothing is enabled but `SYS.RDSTAT` and `SYS.RESET`. -/
theorem eq_sysRdstat_of_halted {i : Instr} {s : State} (hs : s.sys = .halted) (hreset : i ≠ .sysReset) (he : enabled i s = true) :
    ∃ r, i = .sysRdstat r := by
  by_cases hi : agentOf i = .host
  · exact host_enabled_unless_stopped hi hreset he (hs ▸ by decide)
  · exact absurd ((running_of_enabled he hi).symm.trans hs) (by decide)

/-- An operation but reset only answers in `Halted`, and by a refusal unless it reads a register. -/
theorem exec_cases_of_halted {i : Instr} {s t : State} (hs : s.sys = .halted) (h : exec i s = .next t) (hreset : i ≠ .sysReset) :
    ∃ code val, t = s.respond code val ∧ ((∀ r, i ≠ .sysRdstat r) → code = .notEnabled ∨ code = .illegalCommand) := by
  obtain ⟨-, ⟨-, rfl⟩ | ⟨-, -, rfl⟩ | ⟨-, he, -, rfl⟩⟩ := exec_cases h
  · exact ⟨_, _, rfl, fun _ => .inr rfl⟩
  · exact ⟨_, _, rfl, fun _ => .inl rfl⟩
  · obtain ⟨r, rfl⟩ := eq_sysRdstat_of_halted hs hreset he
    exact ⟨.ok, statusReg s r.toNat, rfl, fun hne => absurd rfl (hne r)⟩

/-- Settles O14: an answer by code changes nothing but the returned pair, so the block stays halted. -/
theorem haltedIsLeftOnlyByReset : Obligations.HaltedIsLeftOnlyByReset := by
  intro s t i hs hexec hreset
  obtain ⟨code, val, rfl, hcode⟩ := exec_cases_of_halted hs hexec hreset
  exact ⟨rfl, hs, decide_eq_true hs, rfl, hcode⟩

/-! ## Reset, start and status (R185 to R187) -/

/-- The poll order names the channel polled first (R10, R33). -/
theorem firstPhase_eq_ite (o : PollOrder) : firstPhase o = if o = .captureFirst then .phCap else .phPb := by cases o <;> rfl

/-! After reset the memories read as the free values of the new epoch (R46, R66). -/

@[simp] theorem State.resetBlock_fifoAt (s : State) (j : Nat) : s.resetBlock.fifoAt j = Config.freeFifoMem (s.epoch + 1) j := rfl
@[simp] theorem State.resetBlock_pbAt (s : State) (j : Nat) : s.resetBlock.pbAt j = Config.freePbBuf (s.epoch + 1) j := rfl
@[simp] theorem State.resetBlock_capAt (s : State) (j : Nat) : s.resetBlock.capAt j =
    BitVec.ofNat 16 ((Config.freeCapBuf (s.epoch + 1) j).toNat % 2 ^ s.cfg.rawW) := rfl

/-- Settles O9: the operation is always enabled, and its effect is the reset of the block, field by field. -/
theorem resetRestoresTheResetTable : Obligations.ResetRestoresTheResetTable := by
  refine ⟨rfl, fun s hc => ⟨effectOf .sysReset s, exec_of_enabled hc rfl rfl rfl, ?_⟩⟩
  simp [effectOf, Fifo.atReset, Channel.atReset, firstPhase_eq_ite, State.faultInd]

/-- Settles O11: `Stopped` is its enable condition, and either operand has its effect. -/
theorem startRunsOrHaltsTheBlock : Obligations.StartRunsOrHaltsTheBlock := by
  intro s hc
  have hstart (hs : s.sys = .stopped) (ok : Bool) : exec (.sysStart ok) s = .next (startBlock ok s) :=
    exec_of_enabled hc rfl (by simp [enabled, hs]) rfl
  exact ⟨rfl, rfl, fun hs => hstart hs true, fun hs => ⟨_, hstart hs false, rfl, rfl⟩,
    fun hs ok => exec_of_not_enabled hc rfl (by simp [enabled, hs])⟩

/-- Settles O12: always enabled, it only answers; a register that does not exist makes the term ill-formed. -/
theorem statusReadReturnsTheRegister : Obligations.StatusReadReturnsTheRegister := by
  intro s r hc
  refine ⟨mkWord_eq_add 0#4 3#4 r, fun hr => exec_of_enabled (i := .sysRdstat r) hc (decide_eq_true hr) rfl rfl, fun hr => ?_⟩
  exact (notEnabledChangesNothing s (.sysRdstat r) hc).2 (decide_eq_false (Nat.not_lt.2 hr))

end Sys2Proof.Machine

/-!
PROOFS. The statements of `60_exceptions.md`: the entry points of the two channels commute (R211, R213), and an event leaves the
block only by its own service or as a recorded loss (R221, R47).
-/
namespace Sys2Proof.Machine

/-! ## The entry points of the two channels (R211) -/

section OtherChannel

variable (s : State) (ch : Chan) (c d : Channel)

@[simp] theorem State.setChan_cfg : (s.setChan ch c).cfg = s.cfg := by cases ch <;> rfl
@[simp] theorem State.setChan_sys : (s.setChan ch c).sys = s.sys := by cases ch <;> rfl
@[simp] theorem State.setChan_job : (s.setChan ch c).job = s.job := by cases ch <;> rfl

theorem State.setChan_setChan_other :
    (s.setChan ch.other d).setChan ch c = (s.setChan ch c).setChan ch.other d := by cases ch <;> rfl

end OtherChannel

/-- The entry point of one channel neither reads nor writes what that of the other has changed. -/
theorem exec_entryInstr_after_other {s : State} {ch : Chan} {h : Half} (hc : configLegal s.cfg = true) (run : s.sys = .running)
    (hp : (s.chan ch.other).pend h = true) (c : Channel) (code : ResultCode) (val : Word32) :
    exec (entryInstr ch.other h) ((s.setChan ch c).respond code val) =
      .next (((s.setChan ch c).setChan ch.other ((s.chan ch.other).enter h)).respond .ok 0#32) := by
  have own : ((s.setChan ch c).respond code val).chan ch.other = s.chan ch.other := by cases ch <;> rfl
  rw [exec_entryInstr (by simpa using hc) (by simpa using run) (own ▸ hp), own]
  cases ch <;> rfl

/-- Settles O44: both orders end with both channels entered, and the two updates are of different fields. -/
theorem entryPointsOfTheChannelsCommute : Obligations.EntryPointsOfTheChannelsCommute := by
  intro s i j hc hi hj hei hej
  obtain ⟨h, rfl⟩ : ∃ h, i = entryInstr .cap h := hi.elim (⟨.first, ·⟩) (⟨.second, ·⟩)
  obtain ⟨k, rfl⟩ : ∃ k, j = entryInstr .pb k := hj.elim (⟨.first, ·⟩) (⟨.second, ·⟩)
  rw [enabled_entryInstr, Bool.and_eq_true_iff, beq_iff_eq] at hei hej
  obtain ⟨run, hcap⟩ := hei
  obtain ⟨-, hpb⟩ := hej
  refine ⟨_, _, _, exec_entryInstr hc run hcap, exec_entryInstr_after_other (ch := .cap) hc run hpb _ _ _,
    exec_entryInstr hc run hpb, (exec_entryInstr_after_other (ch := .pb) hc run hcap _ _ _).trans ?_⟩
  exact congrArg (fun u : State => Host.Outcome.next (u.respond .ok 0#32)) (s.setChan_setChan_other .cap _ _)

/-! ## Where an event can go (R47, R221) -/

section Events

variable {s t : State} {ch : Chan} {h : Half}

/-- An event that moves goes from the latch to the flag or from the flag to the job; one that is pushed out of the flag is
recorded as lost (R221 b). -/
theorem EventMove.outstanding_or_lost (move : EventMove s t ch) (hjob : s.job = jobOf ch h → t.job = jobOf ch h)
    (ho : s.outstanding ch h = true) : t.outstanding ch h = true ∨ (t.chan ch).lost = true := by
  rw [outstanding_iff] at ho ⊢
  cases move with
  | enter k pending chan job =>
    rw [chan, Channel.enter_pend, Channel.enter_flag, Channel.enter_lost, ready_eq_iff]
    rcases ho with hp | hf | hj
    · by_cases hk : h = k
      · exact .inl (.inr (.inl hk.symm))
      · exact .inl (.inl (by simp [hk, hp]))
    · exact .inr (by simp [hf])
    · exact .inl (.inr (.inr (hjob hj)))
  | poll idle chan job =>
    rw [chan, Channel.clearFlag_pend]
    rcases ho with hp | hf | hj
    · exact .inl (.inl hp)
    · exact .inl (.inr (.inr (job.trans ((jobSeen_eq_jobOf_iff ch _ h).2 hf))))
    · exact .inl (.inr (.inr (hjob hj)))
  | keep chan job =>
    rw [chan]
    exact .inl (ho.imp_right (Or.imp_right hjob))

/-- The engine only sets latches, so no half ceases to be outstanding. -/
theorem EngineMove.outstanding_of_outstanding (move : EngineMove s t ch) (ho : s.outstanding ch h = true) :
    t.outstanding ch h = true := by
  obtain ⟨chan, job⟩ := move
  rw [outstanding_iff] at ho ⊢
  rw [chan, job, Channel.dmaStep_flag]
  exact ho.imp_left fun hp => Channel.dmaStep_pend_of_pend hp _ _

/-- None but the scheduler and reset writes the job (R75). -/
theorem exec_job_of_not_scheduler {i : Instr} (hexec : exec i s = .next t) (hreset : i ≠ .sysReset)
    (hi : agentOf i ≠ .scheduler) : t.job = s.job := by
  cases hagent : agentOf i with
  | host =>
    obtain ⟨frame, -, -⟩ := (host_rights hexec hagent).resolve_left hreset
    rw [frame]
  | captureDma =>
    obtain ⟨frame, -⟩ := captureDma_rights hexec hagent
    rw [frame]
  | playbackDma =>
    obtain ⟨frame, -⟩ := playbackDma_rights hexec hagent
    rw [frame]
  | interrupt =>
    obtain ⟨k, hf, -, frame, -⟩ := interrupt_rights hexec hagent
    rw [frame, State.setChan_job]
  | scheduler => exact absurd hagent hi

/-- A job in hand bars the scheduler from every operation but its service (R172), so it stays until then. -/
theorem exec_job_of_job {i : Instr} (hexec : exec i s = .next t) (hreset : i ≠ .sysReset) (hservice : i ≠ serviceInstr ch h)
    (hj : s.job = jobOf ch h) : t.job = jobOf ch h := by
  by_cases hi : agentOf i = .scheduler
  · obtain ⟨-, ⟨-, rfl⟩ | ⟨-, -, rfl⟩ | ⟨-, he, -, -⟩⟩ := exec_cases hexec
    · exact hj
    · exact hj
    · have run := running_of_enabled he (hi ▸ by decide)
      have hop := ((schedulerHasOneOperation s run).1 i).1 ⟨hi, he⟩
      rw [hj, schedulerOp_jobOf] at hop
      exact absurd hop hservice
  · exact (exec_job_of_not_scheduler hexec hreset hi).trans hj

end Events

/-- Settles O46: a half leaves the job by its service alone; the engine keeps every event, and any other operation moves it on or
records its loss. -/
theorem eventsVanishOnlyAsLost : Obligations.EventsVanishOnlyAsLost := by
  intro s t i ch h hexec ho
  rw [schedulerOp_jobOf]
  by_cases hreset : i = .sysReset
  · exact .inr (.inr (.inl hreset))
  by_cases hservice : i = serviceInstr ch h
  · exact .inr (.inr (.inr hservice))
  have hjob := exec_job_of_job hexec hreset hservice
  obtain ⟨hc, ⟨-, rfl⟩ | ⟨-, -, rfl⟩ | ⟨-, he, -, rfl⟩⟩ := exec_cases hexec
  · exact .inl ((s.respond_outstanding _ _ ch h).trans ho)
  · exact .inl ((s.respond_outstanding _ _ ch h).trans ho)
  · by_cases hengine : agentOf i = engineOf ch
    · exact .inl ((effectOf_engineMove s hengine).outstanding_of_outstanding ho)
    · exact ((effectOf_eventMove hc he ch hreset hengine).outstanding_or_lost hjob ho).imp_right .inl

end Sys2Proof.Machine

/-!
PROOFS. The statements of `70_reset_and_hazards.md`: power-up leaves the table of R46 (R240), and under weak fairness the scheduler
finishes every job (R254).
-/
namespace Sys2Proof.Machine

/-! ## Power-up (R46, R240) -/

/-! At power-up the memories read as the free values of reset number 0 (R66; log 3). -/

@[simp] theorem State.powerUp_fifoAt (c : Config) (j : Nat) : (State.powerUp c).fifoAt j = Config.freeFifoMem 0 j := rfl
@[simp] theorem State.powerUp_pbAt (c : Config) (j : Nat) : (State.powerUp c).pbAt j = Config.freePbBuf 0 j := rfl
@[simp] theorem State.powerUp_capAt (c : Config) (j : Nat) : (State.powerUp c).capAt j =
    BitVec.ofNat 16 ((Config.freeCapBuf 0 j).toNat % 2 ^ c.rawW) := rfl

/-- Settles O10: the table field by field; `State.reset` is defined as that power-up, and the example's parameters are checked. -/
theorem powerUpLeavesTheResetTable : Obligations.PowerUpLeavesTheResetTable := by
  refine ⟨fun c => ?_, rfl, by decide⟩
  simp [Fifo.atReset, firstPhase_eq_ite, State.faultInd, hazardFree]

/-! ## The scheduler in a fair execution (R172, R174, R254) -/

theorem wellFormed_of_scheduler {i : Instr} (hi : agentOf i = .scheduler) (rawW : Nat) : i.wellFormed rawW = true := by
  obtain ⟨ch, h, rfl⟩ | ⟨ph, rfl⟩ := eq_service_or_poll_of_scheduler hi
  · cases ch <;> cases h <;> rfl
  · cases ph <;> rfl

/-- A running block never leaves the scheduler without an operation (R172). -/
theorem hasEnabledOp_scheduler {s : State} (run : s.sys = .running) : hasEnabledOp .scheduler s := by
  obtain ⟨hi, he⟩ := ((schedulerHasOneOperation s run).1 _).2 rfl
  exact ⟨schedulerOp s.job s.phase, hi, wellFormed_of_scheduler hi _, he⟩

/-- When the scheduler steps, its command is the word of the one operation R172 leaves it. -/
theorem decode_of_steppingAgent_scheduler {c : Command} {s : State} (run : s.sys = .running)
    (h : steppingAgent c s = some .scheduler) : decode s.cfg.rawW c.word = .ok (schedulerOp s.job s.phase) := by
  unfold steppingAgent at h
  split at h
  next i hdec =>
    split at h
    next he =>
      have hop := ((schedulerHasOneOperation { s with din := s.din ++ c.data } run).1 i).1 ⟨Option.some.inj h, he⟩
      exact hdec.trans (congrArg Except.ok hop)
    next => nomatch h
  next => nomatch h

/-- A service leaves no job in hand, served in full or not (R135, R155). -/
theorem effectOf_serviceInstr_job {s : State} (hc : configLegal s.cfg = true) (ch : Chan) (h : Half) :
    (effectOf (serviceInstr ch h) s).job = .none := by
  cases ch with
  | cap =>
    have served : effectOf (serviceInstr .cap h) s = captureService h s := by cases h <;> rfl
    rw [served, captureService_eq h s hc]
  | pb =>
    have served : effectOf (serviceInstr .pb h) s = playbackService h s := by cases h <;> rfl
    rw [served, playbackService_eq_update]

/-- With a job in hand the scheduler's operation is its service, which finishes it (R172, R174). -/
theorem exec_schedulerOp_finishes {s t : State} (run : s.sys = .running) (hj : s.job ≠ .none)
    (hexec : exec (schedulerOp s.job s.phase) s = .next t) : t.job = .none := by
  obtain ⟨ch, h, hjob⟩ := s.job.eq_none_or_jobOf.resolve_left hj
  rw [hjob, schedulerOp_jobOf] at hexec
  obtain ⟨hc, ⟨hl, -⟩ | ⟨-, he, -⟩ | ⟨-, -, -, rfl⟩⟩ := exec_cases hexec
  · exact absurd ((wellFormed_of_scheduler (agentOf_serviceInstr ch h) _).symm.trans hl) (by decide)
  · exact absurd he (by simp [enabled_serviceInstr, run, hjob])
  · exact effectOf_serviceInstr_job hc ch h

/-- A step of an execution runs the operation its command stands for, with the command's samples on `din` (R69, R38). -/
theorem IsExecution.exec_of_decode {c : Nat → Command} {r : Nat → State} (h : IsExecution c r) {n : Nat} {i : Instr}
    (hdec : decode (r n).cfg.rawW (c n).word = .ok i) :
    exec i { r n with schedule := [], din := (r n).din ++ (c n).data } = .next (r (n + 1)) :=
  (stepRunsTheDecodedOperation.1 { r n with schedule := [c n] } (c n) [] i rfl hdec).symm.trans (h n)

/-- Settles O49: the scheduler always has an operation enabled, so it steps again and again; a step of it that finds a job in hand
leaves none. -/
theorem fairSchedulersFinishEveryJob : Obligations.FairSchedulersFinishEveryJob := by
  intro c r execution fair run n
  obtain ⟨m, hm, hstep⟩ := fair .scheduler n fun k _ => hasEnabledOp_scheduler (run k)
  by_cases hj : (r m).job = .none
  · exact ⟨m, hm, hj⟩
  · have hexec := execution.exec_of_decode (decode_of_steppingAgent_scheduler (run m) hstep)
    exact ⟨m + 1, Nat.le_add_right_of_le hm,
      exec_schedulerOp_finishes (s := { r m with schedule := [], din := _ }) (run m) hj hexec⟩

end Sys2Proof.Machine
